-- ==== Sys2Proof/Word.lean ====
section
/-! DEFINITION. The word types of the EMMY CPU: 32-bit data words (R5, R8), 3-bit register numbers (R22), 12-bit
control-store addresses (R5, R63), the 18-bit right half of a microinstruction (R120). -/

namespace Sys2Proof

/-- A register, control-store word, bus data word or bus address word: 32 bits, bit 31 leftmost (R7, R8). -/
abbrev Word := BitVec 32

/-- One cell of the model's control store. -/
abbrev Byte := BitVec 8

/-- A register number, `AF`, `BF`, `CF` or `DF`: all eight values are legal (R22, R133). -/
abbrev RegNo := BitVec 3

/-- A control-store word address, 0x000 to 0xFFF (R5, R26). -/
abbrev Addr := BitVec 12

/-- The right half of a microinstruction word, bits 17-0 (R120). -/
abbrev Acf := BitVec 18

end Sys2Proof
end

