-- ==== Sys2Proof/Config.lean ====
section
/-! DEFINITION. The values the spec leaves open (R6, R10 `draw`): constants with no body, so that nothing can be proved of
their values. What an implementation fixes is a constant; what may differ at each use is a function of the number of
values drawn so far (`State.draws`). The two parameters of R6 that the spec itself decides have the value it decides. -/

namespace Sys2Proof

/-- SHIFT_COUNT_BITS less 5: the source gives no width of the shift amount; it is at least 5 and at most 32 (R211, D10).
DESIGN CHOICE, safe; log entry 8. -/
opaque Config.shiftCountExtra : Fin 28

/-- SHIFT_COUNT_BITS: how many low bits of the amount operand P the shifter uses, 5 to 32 (R6, R211, D10). -/
def Config.shiftCountBits : Nat := 5 + Config.shiftCountExtra.val

/-- DIVSTEP_SIGN_TEST where an operand has bit 31 set: the source does not say how "REG[AF] minus REG[BF] >= 0" is then
evaluated (R233, D11). DESIGN CHOICE, safe; log entry 9. -/
opaque Config.divStepSignTest : Word → Word → Bool

/-- EXCESS6_OTHER_DIGITS: true when EXCESS SIX keeps the digits of x[AF] whose source digit is 9 or less, false when it
writes them 0000 (R235, D12). DESIGN CHOICE, safe; log entry 10. -/
opaque Config.excess6Keeps : Bool

/-- The n-th free bit: bit C after a LOGICAL microinstruction (R36, D25) and which of the two values MAR takes after a
failing fetch (R331). DESIGN CHOICE, safe; log entries 5 and 6. -/
opaque Config.freeBit : Nat → Bool

/-- The n-th free choice among the three values of CC that are not Overflow (R236, D13). DESIGN CHOICE, safe; log
entry 7. -/
opaque Config.freeClass : Nat → Fin 3

/-- The n-th free word: what a reading bus master is given for a word that fails parity (R331). DESIGN CHOICE, safe; log
entry 4. -/
opaque Config.freeWord : Nat → Word

/-- The n-th free register file: the registers after a parity fault (R331: everything but parity_error and H is
unspecified) or after MASTER CLEAR (R44, R381). DESIGN CHOICE, safe; log entries 4 and 24. -/
opaque Config.freeRegs : Nat → Vector Word 8

/-- What PTRMOD_EF3 may be: the readings of the damaged formula of POINTER MODIFICATION with EF = 11 (R6, D14). -/
inductive PtrmodEf3 where
  /-- `c - d - 1`. -/
  | minusOne
  /-- `c - d`. -/
  | exact
  /-- `c - d - 2`. -/
  | minusTwo
deriving DecidableEq, Repr

/-- PTRMOD_EF3, as the spec decides it (R6, R315, D14). DEDUCED, unsafe; log entry 11. -/
def Config.ptrmodEf3 : PtrmodEf3 := .minusOne

/-- What PARITY_SENSE may be: which parity of a result the P code shows as 1 (R6, C1). -/
inductive ParitySense where
  /-- P = 1 for an odd number of one bits. -/
  | odd
  /-- P = 1 for an even number of one bits. -/
  | even
deriving DecidableEq, Repr

/-- PARITY_SENSE, as the spec decides it (R6, R34, C1). DEDUCED, unsafe; log entry 11. -/
def Config.paritySense : ParitySense := .odd

/-- The timing entries of Figure 2-11 that are lost or illegible (R403). UNVERIFIED, safe; log entry 34. -/
opaque Config.lostCycles : Nat → Nat

end Sys2Proof
end

