-- ==== Sys2Proof/Machine/State.lean ====
section
/-! DEFINITION. The state of the EMMY CPU (10_state.md), the outcomes a step can stop with, and the state after reset.
The spec's own state: the eight registers (R20), the control store with its parity bits (R39), the bus controller's
pending operation (R41), the CPU's access controller (R102), the two error latches and the owed time-out interrupt
(R42). The model's own fields: where in the microinstruction the sequencer stands, what the other agents do next, the
transfers done so far and the number of free values drawn. -/

namespace Sys2Proof.Machine

/-- The control store: cells (address, byte) with addresses strictly rising. Word `a` holds its bits 31-24, 23-16, 15-8,
7-0 in the cells 4a, 4a+1, 4a+2, 4a+3 and its parity bit (R39) in the cell 0x4000 + a. An address not listed has no
value: nothing has written it (R44, D24). DESIGN CHOICE, log entries 2 and 3. -/
abbrev Memory := List Host.Cell

/-- Where a deferred bus read puts its data (R41). -/
inductive Dest where
  /-- A register. -/
  | reg (r : RegNo)
  /-- A control-store word. -/
  | mem (a : Addr)
deriving DecidableEq, Repr

/-- The CPU-issued bus operation that is outstanding (R41); its fields are fixed at issue (R296). -/
inductive Pending where
  /-- No operation: BUSY is 0. -/
  | none
  /-- A deferred read: address word and destination. -/
  | read (aw : Word) (dest : Dest)
  /-- A write: address word and data. -/
  | write (aw data : Word)
deriving DecidableEq, Repr

/-- A bus form of INDIRECT ACCESS whose operands have been read and whose address is not accepted yet (R76, R283): the
operation as it is sent, and the pointer modification that follows its acceptance. -/
structure Sending where
  /-- The operation: address word and destination or data. -/
  op : Pending
  /-- The field CF. -/
  cf : RegNo
  /-- The field DF. -/
  df : RegNo
  /-- The field EF. -/
  ef : BitVec 2
  /-- The field VAL. -/
  val : BitVec 4
deriving DecidableEq, Repr

/-- The states of an access controller, by the numbers of Figure 4-3 as R102 gives them. -/
inductive AccessState where
  /-- State 0. -/
  | idle
  /-- State 1. -/
  | requesting
  /-- State 2: the unit is master. -/
  | using
  /-- State 3, the first reject wait (R103). -/
  | wait3
  /-- State 4. -/
  | wait4
  /-- State 5. -/
  | wait5
  /-- State 6. -/
  | wait6
  /-- State 7. -/
  | wait7
  /-- State 8, the last reject wait. -/
  | wait8
deriving DecidableEq, Repr

/-- What an access controller sees on its lines (R98, R99, R102). -/
inductive AccessSignal where
  /-- The rising edge of BUSCLK. -/
  | busClk
  /-- AVAILABLE(IN) is 1. -/
  | available
  /-- CREJ: an access control cycle has completed. -/
  | crej
  /-- REJECT from the addressed slave. -/
  | reject
deriving DecidableEq, Repr

/-- Where in the microinstruction cycle the sequencer stands (R86, R130). The MODEL's own field, log entry 14. -/
inductive Phase where
  /-- Before an IFETCH (interleave point 1), or halted (point 4). -/
  | ifetch
  /-- The T-machine sequence is done and the right half `acf` is to be run (point 2), or waits for the end of the
  outstanding bus operation with nothing read yet (point 3, R77, R295). -/
  | aSeq (acf : Acf)
  /-- A bus form has read its operands and waits for its address to be accepted (point 3, R76, R283). -/
  | sending (x : Sending)
  /-- The CPU holds the bus and no answer came: nothing more is executed until MASTER CLEAR (R80). -/
  | stuck
deriving DecidableEq, Repr

/-- What an agent does next (R12, R86, R93). An event is placed at the moment at which it is performed. -/
inductive Act where
  /-- The CPU runs its next sequence. -/
  | cpu
  /-- Another master accesses a register or control-store word with the address word `aw`: it reads when bit 24 is 0 and
  writes `v` when bit 24 is 1 (R72, R82, R107). -/
  | slaveAccess (aw v : Word)
  /-- Another master sends an interrupt vector (R352, R353). -/
  | interrupt (v : Word)
  /-- The outstanding bus operation completes; `d` is the data of a read (R79). -/
  | complete (d : Word)
  /-- The bus time-out falls while the CPU itself holds the bus (R80). -/
  | noAnswer
  /-- The bus time-out falls while another unit holds the bus (R333). -/
  | busTimeout
  /-- A pulse of the RUN line (R342). -/
  | run
  /-- A pulse of the HALT/STEP line (R343, R344). -/
  | haltStep
  /-- A pulse of the PARITY RESET line (R345). -/
  | parityReset
  /-- MASTER CLEAR (R381). -/
  | masterClear
  /-- The CPU's access controller sees a line (R102). -/
  | access (sig : AccessSignal)
deriving DecidableEq, Repr

/-- A bus transfer the CPU has taken part in. -/
inductive Transfer where
  /-- The CPU's read with this address word returned `d` (R79). -/
  | cpuRead (aw d : Word)
  /-- The slave addressed by `aw` accepted `v` from the CPU (R79). -/
  | cpuWrite (aw v : Word)
  /-- A master reading the CPU with `aw` was given `d` (R82). -/
  | slaveRead (aw d : Word)
deriving DecidableEq, Repr

/-- The whole state. -/
structure State where
  /-- x[0] to x[7] (R20). Bit 24 of x[0] is no storage bit (R31): it is kept 0. -/
  regs : Vector Word 8
  /-- The control store (R39). -/
  store : Memory
  /-- The outstanding CPU-issued bus operation (R41). -/
  pending : Pending
  /-- The state of the CPU's access controller (R102). -/
  access : AccessState
  /-- The PARITY ERROR latch (R42). -/
  parityError : Bool
  /-- The TIMEOUT latch (R42). -/
  timeout : Bool
  /-- A time-out interrupt has been requested and not yet performed (R42, R333). -/
  timeoutIrq : Bool
  /-- The model's own: where the sequencer stands. -/
  phase : Phase
  /-- The model's own: what the agents do next; when it is empty the CPU runs alone (log entry 12). -/
  schedule : List Act
  /-- The model's own: the transfers done, newest first (log entry 25). -/
  busLog : List Transfer
  /-- The model's own: how many free values have been drawn (log entry 6). -/
  draws : Nat
deriving DecidableEq, Repr

/-- Why the machine stops with a fault: never. The two error conditions of the machine are next states (R330, log entry
4), and what the spec does not define it asks a model to refuse. -/
inductive Fault where
deriving DecidableEq, Repr

/-- Why the model gives no next state. -/
inductive Refusal where
  /-- An instruction whose meaning is not written: raised by `exec` alone. Safe. -/
  | notModelled (mnemonic : String)
  /-- A left half of class 111, "T-SPARE" (R140): raised by its meaning. Safe. -/
  | spareLeft
  /-- A right half of class 010, "A-SPARE1" (R140): raised by its meaning. Safe. -/
  | spareRight1
  /-- A right half of class 110, "A-SPARE2" (R140): raised by its meaning. Safe. -/
  | spareRight2
  /-- EXTENDED with OP = 0000 to 1011, "UNASSIGNED" (R231): raised by its meaning. Safe. -/
  | unassignedExtended
  /-- INDIRECT ACCESS with XOP = 111, "Unassigned" (R291): raised by its meaning. Safe. -/
  | unassignedIndirect
  /-- A bus form of INDIRECT ACCESS whose address word names unit FF, the CPU itself (R81, D27): raised by the four bus
  forms. Safe. -/
  | selfAddress
  /-- An interrupt vector with bit 0 set (R352, D21): raised by the bus controller. Safe. -/
  | oddVector
  /-- A slave access names an internal address of unit FF that is not assigned, 0x1008 and up (R71, R82, D27): raised by
  the bus controller. Safe. -/
  | unassignedUnitAddress (aw : Word)
  /-- A second bus time-out before MASTER CLEAR (R333, D23): raised by the time-out circuit. Safe. -/
  | secondTimeout
deriving DecidableEq, Repr

/-- The machine right after reset. The spec gives no reset value of anything (R44, R380, D19): every register and latch
is 0, nothing is pending, no control-store word holds a value. DESIGN CHOICE, unsafe; log entries 1, 2, 12, 14, 25. -/
def State.reset : State where
  regs := #v[0, 0, 0, 0, 0, 0, 0, 0]
  store := []
  pending := .none
  access := .idle
  parityError := false
  timeout := false
  timeoutIrq := false
  phase := .ifetch
  schedule := []
  busLog := []
  draws := 0

end Sys2Proof.Machine
end

