-- ==== Sys2Proof/Machine/Ops.lean ====
section
/-! DEFINITION. The named operations over registers, register 0's fields, the control store and the bus side of the CPU,
and the two things that take the place of exceptions: the parity fault (R331) and the interrupt exchange (R353). -/

namespace Sys2Proof.Machine

/-! ### Registers (R20 to R31) -/

/-- BUSY: a CPU-issued bus operation is outstanding (R35, R41). -/
def State.busy (s : State) : Bool := decide (s.pending ≠ .none)

/-- The stored bits of register `r`. -/
def State.raw (s : State) (r : RegNo) : Word := s.regs[r.toNat]'r.isLt

/-- Replace the stored bits of register `r`. -/
def State.setRaw (s : State) (r : RegNo) (v : Word) : State :=
  { s with regs := s.regs.set r.toNat v r.isLt }

/-- Bit 24 of register 0 as the bus controller drives it (R30). -/
def State.busyBit (s : State) : Word := if s.busy then 0x01000000#32 else 0#32

/-- Read of a register (R10 `x[i]`): register 0 with bit 24 live (R30, D4), the others as stored (R21). -/
def State.readReg (s : State) (r : RegNo) : Word :=
  if r = 0#3 then (s.raw 0#3 &&& 0xFEFFFFFF#32) ||| s.busyBit else s.raw r

/-- Write of a register: bit 24 of a value written to register 0 is discarded (R31, D4). -/
def State.writeReg (s : State) (r : RegNo) (v : Word) : State :=
  s.setRaw r (if r = 0#3 then v &&& 0xFEFFFFFF#32 else v)

/-- MAR, bits 11-0 of register 0: the address of the next microinstruction (R26). -/
def State.mar (s : State) : Addr := (s.raw 0#3).extractLsb' 0 12

/-- Write MAR alone: bits 31-12 of register 0 stay (R27, D2). -/
def State.setMar (s : State) (m : Addr) : State :=
  s.setRaw 0#3 ((s.raw 0#3).extractLsb' 12 20 ++ m)

/-- MAR plus a branch distance VAL, modulo 4096 (R27, R132). -/
def State.branchBy (s : State) (val : BitVec 4) : State :=
  s.setMar (s.mar + val.signExtend 12)

/-- H, bit 15 of register 0: the CPU is halted (R28, R340). -/
def State.halted (s : State) : Bool := (s.raw 0#3).getLsbD 15

/-- Write H alone (R342, R343). -/
def State.setHalted (s : State) (h : Bool) : State :=
  s.setRaw 0#3 ((s.raw 0#3).extractLsb' 16 16 ++ BitVec.ofBool h ++ (s.raw 0#3).extractLsb' 0 15)

/-- I, bit 14 of register 0: interrupts are enabled (R28, R350). -/
def State.interruptsEnabled (s : State) : Bool := (s.raw 0#3).getLsbD 14

/-- The other register of a pair: the number with its lowest bit inverted (R9, R23). -/
def pairOf (r : RegNo) : RegNo := r ^^^ 1#3

/-! ### Control store (R39, R60 to R68) -/

/-- The exclusive OR of the bits: true when an odd number of them are 1 (R34). -/
def parity (w : Word) : Bool :=
  (List.range 32).foldl (fun p i => p ^^ w.getLsbD i) false

/-- The value at a cell, or nothing where no value stands. -/
def Memory.byteAt : Memory → Nat → Option Byte
  | [], _ => none
  | (k, b) :: rest, a => if k = a then some b else Memory.byteAt rest a

/-- Write a cell, keeping addresses strictly rising. -/
def Memory.put : Memory → Nat → Byte → Memory
  | [], a, b => [(a, b)]
  | (k, c) :: rest, a, b =>
    if a < k then (a, b) :: (k, c) :: rest
    else if a = k then (a, b) :: rest
    else (k, c) :: Memory.put rest a b

/-- Addresses strictly rise, are at least `low` and are cells of the control store. -/
def Memory.wfFrom : Nat → Memory → Bool
  | _, [] => true
  | low, (k, _) :: rest => decide (low ≤ k) && decide (k < 0x5000) && Memory.wfFrom (k + 1) rest

/-- The canonical form: addresses strictly rising, all below 0x5000. No listed cell can equal what an unlisted address
reads as, for an unlisted address has no value. -/
def Memory.wf (m : Memory) : Bool := Memory.wfFrom 0 m

/-- The cell of byte `k` of a word, byte 0 holding bits 31-24 (log entry 3). -/
def dataCell (a : Addr) (k : Nat) : Nat := 4 * a.toNat + k

/-- The cell of a word's parity bit (log entry 3). -/
def parityCell (a : Addr) : Nat := 0x4000 + a.toNat

/-- The parity bit generated for a word (R66), in a cell. The sense of the control store's own parity bit is not stated
and cannot be observed. DESIGN CHOICE, log entry 3. -/
def parityByte (w : Word) : Byte := if parity w then 1#8 else 0#8

/-- Read word `a` and check its parity: nothing where the check fails, which it does for a word nothing has written
(R66, D24). -/
def Memory.wordAt (m : Memory) (a : Addr) : Option Word :=
  match m.byteAt (dataCell a 0), m.byteAt (dataCell a 1), m.byteAt (dataCell a 2), m.byteAt (dataCell a 3),
      m.byteAt (parityCell a) with
  | some b3, some b2, some b1, some b0, some p =>
    if p = parityByte (b3 ++ b2 ++ b1 ++ b0) then some (b3 ++ b2 ++ b1 ++ b0) else none
  | _, _, _, _, _ => none

/-- Write all 32 bits of word `a` and generate its parity bit (R66). -/
def Memory.writeWord (m : Memory) (a : Addr) (w : Word) : Memory :=
  ((((m.put (dataCell a 0) (w.extractLsb' 24 8)).put (dataCell a 1) (w.extractLsb' 16 8)).put
    (dataCell a 2) (w.extractLsb' 8 8)).put (dataCell a 3) (w.extractLsb' 0 8)).put (parityCell a) (parityByte w)

/-- One cell of the control store. -/
def State.byteAt (s : State) (a : Nat) : Option Byte := s.store.byteAt a

/-- `MemRead(a, 32)` without its fault: the word, or nothing where parity fails (R10, R66). -/
def State.memRead (s : State) (a : Addr) : Option Word := s.store.wordAt a

/-- `MemWrite(a, 32, v)` (R10, R66). -/
def State.memWrite (s : State) (a : Addr) (v : Word) : State :=
  { s with store := s.store.writeWord a v }

/-! ### The microinstruction cycle (R85, R129, R130) -/

/-- The I-machine's increment: MAR plus 1 modulo 4096, nothing else (R27, R131). -/
def State.incMar (s : State) : State := s.setMar (s.mar + 1#12)

/-- The T-machine sequence ends: the right half is skipped, or is what the A-machine runs (R129). -/
def State.afterT (s : State) (skip : Bool) (acf : Acf) : State :=
  { s with phase := if skip then .ifetch else .aSeq acf }

/-- The A-machine sequence, and with it the microinstruction, ends (R85). -/
def State.endA (s : State) : State := { s with phase := .ifetch }

/-- Only the acts still to come change (log entry 12). -/
def State.withSchedule (s : State) (rest : List Act) : State := { s with schedule := rest }

/-- One more free value has been drawn (log entry 6). -/
def State.drawn (s : State) : State := { s with draws := s.draws + 1 }

/-! ### Taking the parity fault (R331) and the interrupt (R353) -/

/-- The parity fault: parity_error and H are set, the sequence that made the read is abandoned, and no register's other
value is specified (R331, R336, D34). `mar` is the value MAR is known to take, if any. The control store, the bus
controller and the time-out latches stay: a read has no side effect on them (R68, R346). DESIGN CHOICE, log entry 4. -/
def State.parityFault (s : State) (mar : Option Addr) : State :=
  let t : State :=
    { s with
      regs := Config.freeRegs s.draws
      parityError := true
      phase := if s.phase = .stuck then .stuck else .ifetch
      draws := s.draws + 1 }
  let u := t.writeReg 0#3 (t.raw 0#3)
  (match mar with
    | none => u
    | some m => u.setMar m).setHalted true

/-- A checked control-store read inside a sequence: go on with the word, or take the parity fault (R66, R331). -/
def State.withWord (s : State) (a : Addr) (k : Word → State) : State :=
  match s.memRead a with
  | some w => k w
  | none => s.parityFault none

/-- The parity fault of a microinstruction fetch: MAR is the fetch address or one more (R331). -/
def State.fetchFault (s : State) : State :=
  s.parityFault (some (if Config.freeBit s.draws then s.mar + 1#12 else s.mar))

/-- The interrupt sequence through the even-odd pair at `e`: register 0, with live BUSY, is stored in the odd word, then
replaced by the even word; no other register changes (R353). -/
def State.interruptThrough (s : State) (e : Addr) : State :=
  let t := s.memWrite (e + 1#12) (s.readReg 0#3)
  t.withWord e fun w => t.writeReg 0#3 w

/-- A register is loaded from a control-store word. With `r` = 0 and `a` the odd word of an interrupt pair this is the
return from an interrupt handler: MAR, H, I, ICODES and the condition codes are restored, bit 24 is ignored (R272,
R356). -/
def State.loadReg (s : State) (r : RegNo) (a : Addr) : State :=
  s.withWord a fun w => s.writeReg r w

/-! ### The CPU as bus master (R41, R72 to R80, R102) -/

/-- The address word of a bus read: bit 24 is 0 (R73). -/
def readAddressWord (p : Word) : Word := p &&& 0xFEFFFFFF#32

/-- The address word of a bus write: bit 24 is 1 (R73). -/
def writeAddressWord (p : Word) : Word := p ||| 0x01000000#32

/-- The unit address, bits 23-16 of an address word (R72). -/
def unitOf (aw : Word) : BitVec 8 := aw.extractLsb' 16 8

/-- Whether an address word names the CPU's own unit FF (R71, R81). -/
def namesCpu (aw : Word) : Bool := decide (unitOf aw = 0xFF#8)

/-- The states in which a rejected unit may not obtain the bus (R103). -/
def AccessState.rejectWait : AccessState → Bool
  | .idle | .requesting | .using => false
  | .wait3 | .wait4 | .wait5 | .wait6 | .wait7 | .wait8 => true

/-- The states in which the CPU's turn finds the bus won: using it (2), or idle (0), from which the turn requests and
wins it at once. In state 1 another unit may win, and in the reject wait none may (R102, R103). Log entry 15. -/
def AccessState.winnable : AccessState → Bool
  | .idle | .using => true
  | .requesting | .wait3 | .wait4 | .wait5 | .wait6 | .wait7 | .wait8 => false

/-- REQUEST/USING as the access controller drives it (R102). -/
def AccessState.drivesRequest : AccessState → Bool
  | .requesting | .using | .wait4 | .wait6 | .wait8 => true
  | .idle | .wait3 | .wait5 | .wait7 => false

/-- Whether the access controller passes AVAILABLE on (R102). -/
def AccessState.passesAvailable : AccessState → Bool
  | .requesting | .using => false
  | .idle | .wait3 | .wait4 | .wait5 | .wait6 | .wait7 | .wait8 => true

/-- The access controller's transitions (R102, R103); `req` is REQ from its device controller (R100). State 2 is left on
DONE by `State.busComplete`, and when REQ is 0. -/
def AccessState.next (req : Bool) : AccessState → AccessSignal → AccessState
  | .idle, .busClk => if req then .requesting else .idle
  | .requesting, .available => .using
  | .requesting, .crej => .idle
  | .using, .reject => .wait3
  | .using, _ => if req then .using else .idle
  | .wait3, .busClk => .wait4
  | .wait4, .crej => .wait5
  | .wait5, .busClk => .wait6
  | .wait6, .crej => .wait7
  | .wait7, .busClk => .wait8
  | .wait8, .crej => .idle
  | a, _ => a

/-- An address that the CPU sends is accepted at its turn: no operation is outstanding (R77, R295) and the bus is won
(R76). -/
def State.busReady (s : State) : Bool := !s.busy && s.access.winnable

/-- The operands of a bus form are read and its address is not accepted yet (R76, R283). -/
def State.keepSending (s : State) (x : Sending) : State := { s with phase := .sending x }

/-- The bus is won and the address accepted: the operation is outstanding, BUSY becomes 1 (R74, R75). The bus controller
stays master until the data transmission ends (R108). -/
def State.issue (s : State) (p : Pending) : State := { s with pending := p, access := .using }

/-- BusComplete (R79): the data of a read goes to its destination, or the slave has accepted the data of a write; BUSY
becomes 0. No condition code is set. -/
def State.busComplete (s : State) (d : Word) : State :=
  let done : State := { s with pending := .none, access := .idle }
  match s.pending with
  | .none => s
  | .read aw (.reg r) => { done.writeReg r d with busLog := .cpuRead aw d :: s.busLog }
  | .read aw (.mem a) => { done.memWrite a d with busLog := .cpuRead aw d :: s.busLog }
  | .write aw v => { done with busLog := .cpuWrite aw v :: s.busLog }

end Sys2Proof.Machine
end

