-- ==== Sys2Proof/Machine/Flags.lean ====
section
/-! DEFINITION. The condition codes (R32 to R38) and the code test (R260, R262). -/

namespace Sys2Proof.Machine

/-- The CC field of a result: Overflow/Underflow 11, Zero 00, Less than 01, Greater than 10 (R33, R36). -/
def resultClass (res : Word) (ovf : Bool) : BitVec 2 :=
  if ovf then 3#2
  else if res = 0#32 then 0#2
  else if res.getLsbD 31 then 1#2
  else 2#2

/-- The P code of a result with an odd (`true`) or even number of one bits, by PARITY_SENSE (R34, C1; log entry 11). -/
def parityCode (sense : ParitySense) (odd : Bool) : Bool :=
  match sense with
  | .odd => odd
  | .even => !odd

/-- Bits 31-25 of register 0 for a result: CC, C, H, L, S, P (R34, R36). -/
def codesOf (res : Word) (carry ovf : Bool) : BitVec 7 :=
  resultClass res ovf ++ BitVec.ofBool carry ++ BitVec.ofBool (res.getLsbD 31) ++ BitVec.ofBool (res.getLsbD 0) ++
    BitVec.ofBool (decide (res = 0#32 ∨ res = 0xFFFFFFFF#32)) ++ BitVec.ofBool (parityCode Config.paritySense (parity res))

/-- `SetCC(res, carry, ovf)`: bits 24 and 23-0 of register 0 are not written (R36). -/
def State.setCC (s : State) (res : Word) (carry ovf : Bool) : State :=
  s.setRaw 0#3 (codesOf res carry ovf ++ (s.raw 0#3).extractLsb' 0 25)

/-- Write the CC field alone (R236). -/
def State.setClass (s : State) (cc : BitVec 2) : State :=
  s.setRaw 0#3 (cc ++ (s.raw 0#3).extractLsb' 0 30)

/-- The CARRY condition code, bit 29 of register 0 (R32, R191). -/
def State.carry (s : State) : Bool := (s.raw 0#3).getLsbD 29

/-- The CC field, bits 31-30 of register 0 (R33). -/
def State.resultClass (s : State) : BitVec 2 := (s.raw 0#3).extractLsb' 30 2

/-- `CodeTest(MASK, V, C, S)`: the condition codes, with live BUSY, or the indicator codes, complemented or not, masked,
ORed together, inverted or not (R260); leftmost mask bit with leftmost code bit (R262, D7). -/
def State.codeTest (s : State) (mask : BitVec 8) (v c sel : Bool) : Bool :=
  let r0 := s.readReg 0#3
  let codes : BitVec 8 := if sel then r0.extractLsb' 16 8 else r0.extractLsb' 24 8
  let codes := if c then ~~~codes else codes
  decide (codes &&& mask ≠ 0#8) ^^ v

end Sys2Proof.Machine
end

