-- ==== Sys2Proof/Machine/Bus.lean ====
section
/-! DEFINITION. What the other agents do to the CPU: slave accesses (R82 to R84), the interrupt sequence (R351 to R353,
R358), the bus time-out (R80, R333), the direct control and status lines (R96, R97, R342 to R346), MASTER CLEAR (R381),
the access controller's lines (R102), and the host's start-up (R383). -/

namespace Sys2Proof.Machine

open Host

/-! ### The CPU as bus slave (R71, R82) -/

/-- What an internal address of unit FF names (R71). -/
inductive SlaveTarget where
  /-- FF0000 to FF0FFF. -/
  | word (a : Addr)
  /-- FF1000 to FF1007. -/
  | reg (r : RegNo)
  /-- FF1008 and up. -/
  | unassigned
deriving DecidableEq, Repr

/-- The unit internal address, bits 15-0, as a location of the CPU (R71, R72). -/
def slaveTarget (aw : Word) : SlaveTarget :=
  let internal : BitVec 16 := aw.extractLsb' 0 16
  if internal.toNat < 0x1000 then .word (aw.extractLsb' 0 12)
  else if internal.toNat < 0x1008 then .reg (aw.extractLsb' 0 3)
  else .unassigned

/-- The data a reading master received is recorded (log entry 25). -/
def State.gave (s : State) (aw d : Word) : State := { s with busLog := .slaveRead aw d :: s.busLog }

/-- SlaveRead, with bit 24 of `aw` 0 (R82). A unit that is not addressed stays inactive (R94). A word that fails parity
halts the CPU, and what the master is given is open (R331; log entry 4). -/
def State.slaveReads (s : State) (aw : Word) : Outcome State Fault Refusal :=
  if namesCpu aw then
    match slaveTarget aw with
    | .word a =>
      match s.memRead a with
      | some w => .next (s.gave aw w)
      | none => .next ((s.parityFault none).gave aw (Config.freeWord s.draws))
    | .reg r => .next (s.gave aw (s.readReg r))
    | .unassigned => .refused (.unassignedUnitAddress aw)
  else .next s

/-- SlaveWrite, with bit 24 of `aw` 1 (R82). -/
def State.slaveWrites (s : State) (aw v : Word) : Outcome State Fault Refusal :=
  if namesCpu aw then
    match slaveTarget aw with
    | .word a => .next (s.memWrite a v)
    | .reg r => .next (s.writeReg r v)
    | .unassigned => .refused (.unassignedUnitAddress aw)
  else .next s

/-- A slave access: bit 24 of the address word tells a write from a read; the other command bits are ignored (R72, R82,
R107). -/
def State.slaveAccessed (s : State) (aw v : Word) : Outcome State Fault Refusal :=
  if aw.getLsbD 24 then s.slaveWrites aw v else s.slaveReads aw

/-! ### Interrupts (R350 to R358) -/

/-- `Interrupt(v)`: bits 31-12 of the vector are ignored and its low 12 bits must be even (R352, D21). The I bit is
honoured by the devices, not by the CPU (R350). -/
def State.interrupted (s : State) (v : Word) : Outcome State Fault Refusal :=
  if v.getLsbD 0 then .refused .oddVector else .next (s.interruptThrough (v.extractLsb' 0 12))

/-- The owed time-out interrupt has been performed (R358). -/
def State.irqDone (s : State) : State := { s with timeoutIrq := false }

/-- The time-out interrupt through the pair 04C-04D, whatever the I bit is, once per setting of the latch (R358, D23).
Where the word 04C fails its parity check the exchange is abandoned by the parity fault, and the interrupt is still owed:
R358 ends the debt only after the exchange and R331 leaves the point open. DESIGN CHOICE, log entry 36. -/
def State.timeoutInterrupt (s : State) : State :=
  let t := s.interruptThrough 0x04C#12
  if (s.memRead 0x04C#12).isSome then t.irqDone else t

/-! ### The bus time-out (R80, R333) -/

/-- Both consequences of a bus time-out (R333). -/
def State.timedOut (s : State) : State := { s with timeout := true, timeoutIrq := true }

/-- BusTimeout while another unit holds the bus; a second one before MASTER CLEAR is not defined (R333, D23). The act is
performed also where the CPU itself is bus master, its operation outstanding or its controller in state 2: the CPU is then
not stuck and takes the interrupt. R108 lets a model rely on it that no other unit has the bus there, or ignore it. DESIGN
CHOICE, log entry 38. The time-out of the CPU's own access is `State.getsNoAnswer`. -/
def State.busTimesOut (s : State) : Outcome State Fault Refusal :=
  if s.timeout then .refused .secondTimeout else .next s.timedOut

/-- REQ of the CPU's access controller (R100): the A-machine is at a bus form of INDIRECT ACCESS, class 101 with XOP bit 2
clear (R73), or sends its address. So the bus may be requested and won before the operands are read, where R283 with R74
names the winning after the read: when REQ rises is not said, and no program sees it. DESIGN CHOICE, log entry 39. -/
def State.wantsBus (s : State) : Bool :=
  match s.phase with
  | .aSeq acf => decide (acf.extractLsb' 15 3 = 5#3) && !acf.getLsbD 6
  | .sending _ => true
  | .ifetch | .stuck => false

/-- The A-machine has read the operands of a bus form and sends its address (R76). -/
def State.isSending (s : State) : Bool :=
  match s.phase with
  | .sending _ => true
  | .ifetch | .aSeq _ | .stuck => false

/-- The CPU is the unit that holds the bus: its operation is outstanding (R108), or it has won the bus, state 2, and sends
an address (R76, R102). -/
def State.holdsBus (s : State) : Bool := s.busy || (s.isSending && decide (s.access = .using))

/-- No answer to the CPU's own access: the latch is set and the CPU executes nothing more until MASTER CLEAR; the owed
interrupt cannot be taken (R80, R333, D31; log entry 16). Where the CPU does not hold the bus the act has no effect. -/
def State.getsNoAnswer (s : State) : Outcome State Fault Refusal :=
  if s.phase = .stuck || !s.holdsBus then .next s
  else if s.timeout then .refused .secondTimeout
  else .next { s.timedOut with phase := .stuck, access := .using }

/-- Completion of the outstanding operation; none is enabled once the CPU is stuck (R79, R80). -/
def State.completes (s : State) (d : Word) : State :=
  if s.phase = .stuck then s else s.busComplete d

/-- A line of the access controller (R102). While an operation is outstanding, or the CPU is stuck, the controller stays
master whatever the lines show (R108). -/
def State.accessLine (s : State) (sig : AccessSignal) : State :=
  if s.phase = .stuck || s.busy then s else { s with access := s.access.next s.wantsBus sig }

/-! ### The direct lines (R96, R97) -/

/-- The status lines the CPU drives (R96). -/
structure StatusLines where
  /-- RUN/HALT: 1 when halted. -/
  runHalt : Bool
  /-- PARITY ERROR. -/
  parityError : Bool
  /-- TIMEOUT. -/
  timeout : Bool
  /-- INTERRUPT: 1 when interrupts are enabled. -/
  interrupt : Bool
deriving DecidableEq, Repr

/-- The status lines follow register 0 and the latches at once (R28, R42, R96, R341). -/
def State.statusLines (s : State) : StatusLines :=
  { runHalt := s.halted, parityError := s.parityError, timeout := s.timeout, interrupt := s.interruptsEnabled }

/-- PARITY RESET: it clears the latch and nothing else (R345). -/
def State.parityReset (s : State) : State := { s with parityError := false }

/-- MASTER CLEAR: the bus controller is initialised and the time-out condition cleared (R104, R334, R381); the control
store is unchanged and PARITY ERROR not said to change; the registers are unspecified (R44); a waiting microinstruction
is released. DESIGN CHOICE, log entry 24. -/
def State.masterCleared (s : State) : State :=
  let t : State :=
    { s with
      regs := Config.freeRegs s.draws
      pending := .none
      access := .idle
      timeout := false
      timeoutIrq := false
      phase := .ifetch
      draws := s.draws + 1 }
  t.writeReg 0#3 (t.raw 0#3)

/-! ### Start-up by the host (R383) -/

/-- `Launch`: the acts by which a host loads a program of (address, word) pairs and registers and starts the CPU at the
MAR of `r0`: HALT if it runs, PARITY RESET, slave writes, register 0 halted, RUN (R383). -/
def launch (running : Bool) (program : List (Addr × Word)) (regs : List (RegNo × Word)) (r0 : Word) : List Act :=
  (if running then [Act.haltStep] else []) ++ [Act.parityReset]
    ++ program.map (fun p => Act.slaveAccess (0x01FF0000#32 + p.1.setWidth 32) p.2)
    ++ regs.map (fun p => Act.slaveAccess (0x01FF1000#32 + p.1.setWidth 32) p.2)
    ++ [Act.slaveAccess 0x01FF1000#32 (r0 ||| 0x8000#32), Act.run]

end Sys2Proof.Machine
end

