-- ==== Sys2Proof/Syntax.lean ====
section
/-! DEFINITION. The microinstruction set as syntax: one constructor per mnemonic of spec/opcode_table.json (R134, R138).
A T constructor is a left half (bits 31-18) together with the whole right half `acf`, which it consumes as data, skips
or leaves for the A-machine (R129). An A constructor is a right half (bits 17-0) run by the A-machine. -/

namespace Sys2Proof

/-- One half-microinstruction. `imm` is bit 28 of the first three classes (I, R123), `skip` bit 28 of EXTENDED (R230),
`w` bit 26 of ARITHMETIC and SHIFT/ROTATE (R190, R210), `bf`, `af`, `cf`, `df` register fields; `v`, `c`, `sel` are the
three test bits V, C, S (R125, R127). -/
inductive Instr where
  /-- LOG.NOTA, R162. -/
  | logNotA (imm : Bool) (bf af : RegNo) (acf : Acf)
  /-- LOG.NAND, R163. -/
  | logNand (imm : Bool) (bf af : RegNo) (acf : Acf)
  /-- LOG.ORNA, R164. -/
  | logOrNA (imm : Bool) (bf af : RegNo) (acf : Acf)
  /-- LOG.ONES, R165. -/
  | logOnes (imm : Bool) (bf af : RegNo) (acf : Acf)
  /-- LOG.NOR, R166. -/
  | logNor (imm : Bool) (bf af : RegNo) (acf : Acf)
  /-- LOG.NOTB, R167. -/
  | logNotB (imm : Bool) (bf af : RegNo) (acf : Acf)
  /-- LOG.XNOR, R168. -/
  | logXnor (imm : Bool) (bf af : RegNo) (acf : Acf)
  /-- LOG.ORNB, R169. -/
  | logOrNB (imm : Bool) (bf af : RegNo) (acf : Acf)
  /-- LOG.ANDNA, R170. -/
  | logAndNA (imm : Bool) (bf af : RegNo) (acf : Acf)
  /-- LOG.XOR, R171. -/
  | logXor (imm : Bool) (bf af : RegNo) (acf : Acf)
  /-- LOG.TRANSFER, R172. -/
  | logTransfer (imm : Bool) (bf af : RegNo) (acf : Acf)
  /-- LOG.OR, R173. -/
  | logOr (imm : Bool) (bf af : RegNo) (acf : Acf)
  /-- LOG.CLEAR, R174. -/
  | logClear (imm : Bool) (bf af : RegNo) (acf : Acf)
  /-- LOG.ANDNB, R175. -/
  | logAndNB (imm : Bool) (bf af : RegNo) (acf : Acf)
  /-- LOG.AND, R176. -/
  | logAnd (imm : Bool) (bf af : RegNo) (acf : Acf)
  /-- LOG.TEST, R177. -/
  | logTest (imm : Bool) (bf af : RegNo) (acf : Acf)
  /-- SUB, R193. -/
  | sub (imm w : Bool) (bf af : RegNo) (acf : Acf)
  /-- SUBC, R194. -/
  | subc (imm w : Bool) (bf af : RegNo) (acf : Acf)
  /-- ADD, R195. -/
  | add (imm w : Bool) (bf af : RegNo) (acf : Acf)
  /-- ADDC, R196. -/
  | addc (imm w : Bool) (bf af : RegNo) (acf : Acf)
  /-- CMP, R197. -/
  | cmp (imm w : Bool) (bf af : RegNo) (acf : Acf)
  /-- CMPC, R198. -/
  | cmpc (imm w : Bool) (bf af : RegNo) (acf : Acf)
  /-- TADD, R199. -/
  | tadd (imm w : Bool) (bf af : RegNo) (acf : Acf)
  /-- TADDC, R200. -/
  | taddc (imm w : Bool) (bf af : RegNo) (acf : Acf)
  /-- ROL, R214. -/
  | rol (imm w : Bool) (bf af : RegNo) (acf : Acf)
  /-- SLL, R215. -/
  | sll (imm w : Bool) (bf af : RegNo) (acf : Acf)
  /-- SRL, R216. -/
  | srl (imm w : Bool) (bf af : RegNo) (acf : Acf)
  /-- SRA, R217. -/
  | sra (imm w : Bool) (bf af : RegNo) (acf : Acf)
  /-- DROL, R218. -/
  | drol (imm w : Bool) (bf af : RegNo) (acf : Acf)
  /-- DSLL, R219. -/
  | dsll (imm w : Bool) (bf af : RegNo) (acf : Acf)
  /-- DSRL, R220. -/
  | dsrl (imm w : Bool) (bf af : RegNo) (acf : Acf)
  /-- DSRA, R221. -/
  | dsra (imm w : Bool) (bf af : RegNo) (acf : Acf)
  /-- EXT.UNASSIGNED, R231. -/
  | extUnassigned (skip : Bool) (op : BitVec 4) (bf af : RegNo) (acf : Acf)
  /-- DIVSTEP, R233. -/
  | divStep (skip : Bool) (bf af : RegNo) (acf : Acf)
  /-- TRANSFER, R234. -/
  | transfer (skip : Bool) (bf af : RegNo) (acf : Acf)
  /-- EXCESS6, R235. -/
  | excess6 (skip : Bool) (bf af : RegNo) (acf : Acf)
  /-- MULSTEP, R236. -/
  | mulStep (skip : Bool) (bf af : RegNo) (acf : Acf)
  /-- EXTRACT, R251. -/
  | extract (pos : BitVec 5) (bf af : RegNo) (acf : Acf)
  /-- INSERT, R252. -/
  | insert (pos : BitVec 5) (bf af : RegNo) (acf : Acf)
  /-- CONDITIONAL, R261. -/
  | conditional (cmask : BitVec 8) (v c sel : Bool) (acf : Acf)
  /-- T-SPARE, R140. -/
  | tSpare (rest : BitVec 29)
  /-- BRANCH, R321. -/
  | branch (bmask : BitVec 8) (v c sel : Bool) (val : BitVec 4)
  /-- STORE, R271. -/
  | store (cf : RegNo) (adr : Addr)
  /-- LOAD, R272. -/
  | load (cf : RegNo) (adr : Addr)
  /-- LOADI, R273. -/
  | loadi (cf : RegNo) (adr : Addr)
  /-- A-SPARE1, R140. -/
  | aSpare1 (rest : BitVec 15)
  /-- A-SPARE2, R140. -/
  | aSpare2 (rest : BitVec 15)
  /-- PM.INC, R312. -/
  | pmInc (cf df : RegNo) (xop : BitVec 3) (val : BitVec 4)
  /-- PM.DEC, R313. -/
  | pmDec (cf df : RegNo) (xop : BitVec 3) (val : BitVec 4)
  /-- PM.ADD, R314. -/
  | pmAdd (cf df : RegNo) (xop : BitVec 3) (val : BitVec 4)
  /-- PM.SUB1, R315. -/
  | pmSub1 (cf df : RegNo) (xop : BitVec 3) (val : BitVec 4)
  /-- IA.MX, R284. -/
  | iaMX (cf df : RegNo) (ef : BitVec 2) (val : BitVec 4)
  /-- IA.RX, R285. -/
  | iaRX (cf df : RegNo) (ef : BitVec 2) (val : BitVec 4)
  /-- IA.XR, R286. -/
  | iaXR (cf df : RegNo) (ef : BitVec 2) (val : BitVec 4)
  /-- IA.XM, R287. -/
  | iaXM (cf df : RegNo) (ef : BitVec 2) (val : BitVec 4)
  /-- IA.RM, R288. -/
  | iaRM (cf df : RegNo) (ef : BitVec 2) (val : BitVec 4)
  /-- IA.MR, R289. -/
  | iaMR (cf df : RegNo) (ef : BitVec 2) (val : BitVec 4)
  /-- IA.RR, R290. -/
  | iaRR (cf df : RegNo) (ef : BitVec 2) (val : BitVec 4)
  /-- IA.UNASSIGNED, R291. -/
  | iaUnassigned (cf df : RegNo) (ef : BitVec 2) (val : BitVec 4)
deriving DecidableEq, Repr

/-- Whether a row is a left-half (T) row of the opcode table (`format`, R138). -/
def Instr.isT : Instr → Bool
  | .logNotA _ _ _ _ => true
  | .logNand _ _ _ _ => true
  | .logOrNA _ _ _ _ => true
  | .logOnes _ _ _ _ => true
  | .logNor _ _ _ _ => true
  | .logNotB _ _ _ _ => true
  | .logXnor _ _ _ _ => true
  | .logOrNB _ _ _ _ => true
  | .logAndNA _ _ _ _ => true
  | .logXor _ _ _ _ => true
  | .logTransfer _ _ _ _ => true
  | .logOr _ _ _ _ => true
  | .logClear _ _ _ _ => true
  | .logAndNB _ _ _ _ => true
  | .logAnd _ _ _ _ => true
  | .logTest _ _ _ _ => true
  | .sub _ _ _ _ _ => true
  | .subc _ _ _ _ _ => true
  | .add _ _ _ _ _ => true
  | .addc _ _ _ _ _ => true
  | .cmp _ _ _ _ _ => true
  | .cmpc _ _ _ _ _ => true
  | .tadd _ _ _ _ _ => true
  | .taddc _ _ _ _ _ => true
  | .rol _ _ _ _ _ => true
  | .sll _ _ _ _ _ => true
  | .srl _ _ _ _ _ => true
  | .sra _ _ _ _ _ => true
  | .drol _ _ _ _ _ => true
  | .dsll _ _ _ _ _ => true
  | .dsrl _ _ _ _ _ => true
  | .dsra _ _ _ _ _ => true
  | .extUnassigned _ _ _ _ _ => true
  | .divStep _ _ _ _ => true
  | .transfer _ _ _ _ => true
  | .excess6 _ _ _ _ => true
  | .mulStep _ _ _ _ => true
  | .extract _ _ _ _ => true
  | .insert _ _ _ _ => true
  | .conditional _ _ _ _ _ => true
  | .tSpare _ => true
  | .branch _ _ _ _ _ => false
  | .store _ _ => false
  | .load _ _ => false
  | .loadi _ _ => false
  | .aSpare1 _ => false
  | .aSpare2 _ => false
  | .pmInc _ _ _ _ => false
  | .pmDec _ _ _ _ => false
  | .pmAdd _ _ _ _ => false
  | .pmSub1 _ _ _ _ => false
  | .iaMX _ _ _ _ => false
  | .iaRX _ _ _ _ => false
  | .iaXR _ _ _ _ => false
  | .iaXM _ _ _ _ => false
  | .iaRM _ _ _ _ => false
  | .iaMR _ _ _ _ => false
  | .iaRR _ _ _ _ => false
  | .iaUnassigned _ _ _ _ => false

/-- The row's mnemonic in the opcode table (R134, R137). -/
def Instr.mnemonic : Instr → String
  | .logNotA _ _ _ _ => "LOG.NOTA"
  | .logNand _ _ _ _ => "LOG.NAND"
  | .logOrNA _ _ _ _ => "LOG.ORNA"
  | .logOnes _ _ _ _ => "LOG.ONES"
  | .logNor _ _ _ _ => "LOG.NOR"
  | .logNotB _ _ _ _ => "LOG.NOTB"
  | .logXnor _ _ _ _ => "LOG.XNOR"
  | .logOrNB _ _ _ _ => "LOG.ORNB"
  | .logAndNA _ _ _ _ => "LOG.ANDNA"
  | .logXor _ _ _ _ => "LOG.XOR"
  | .logTransfer _ _ _ _ => "LOG.TRANSFER"
  | .logOr _ _ _ _ => "LOG.OR"
  | .logClear _ _ _ _ => "LOG.CLEAR"
  | .logAndNB _ _ _ _ => "LOG.ANDNB"
  | .logAnd _ _ _ _ => "LOG.AND"
  | .logTest _ _ _ _ => "LOG.TEST"
  | .sub _ _ _ _ _ => "SUB"
  | .subc _ _ _ _ _ => "SUBC"
  | .add _ _ _ _ _ => "ADD"
  | .addc _ _ _ _ _ => "ADDC"
  | .cmp _ _ _ _ _ => "CMP"
  | .cmpc _ _ _ _ _ => "CMPC"
  | .tadd _ _ _ _ _ => "TADD"
  | .taddc _ _ _ _ _ => "TADDC"
  | .rol _ _ _ _ _ => "ROL"
  | .sll _ _ _ _ _ => "SLL"
  | .srl _ _ _ _ _ => "SRL"
  | .sra _ _ _ _ _ => "SRA"
  | .drol _ _ _ _ _ => "DROL"
  | .dsll _ _ _ _ _ => "DSLL"
  | .dsrl _ _ _ _ _ => "DSRL"
  | .dsra _ _ _ _ _ => "DSRA"
  | .extUnassigned _ _ _ _ _ => "EXT.UNASSIGNED"
  | .divStep _ _ _ _ => "DIVSTEP"
  | .transfer _ _ _ _ => "TRANSFER"
  | .excess6 _ _ _ _ => "EXCESS6"
  | .mulStep _ _ _ _ => "MULSTEP"
  | .extract _ _ _ _ => "EXTRACT"
  | .insert _ _ _ _ => "INSERT"
  | .conditional _ _ _ _ _ => "CONDITIONAL"
  | .tSpare _ => "T-SPARE"
  | .branch _ _ _ _ _ => "BRANCH"
  | .store _ _ => "STORE"
  | .load _ _ => "LOAD"
  | .loadi _ _ => "LOADI"
  | .aSpare1 _ => "A-SPARE1"
  | .aSpare2 _ => "A-SPARE2"
  | .pmInc _ _ _ _ => "PM.INC"
  | .pmDec _ _ _ _ => "PM.DEC"
  | .pmAdd _ _ _ _ => "PM.ADD"
  | .pmSub1 _ _ _ _ => "PM.SUB1"
  | .iaMX _ _ _ _ => "IA.MX"
  | .iaRX _ _ _ _ => "IA.RX"
  | .iaXR _ _ _ _ => "IA.XR"
  | .iaXM _ _ _ _ => "IA.XM"
  | .iaRM _ _ _ _ => "IA.RM"
  | .iaMR _ _ _ _ => "IA.MR"
  | .iaRR _ _ _ _ => "IA.RR"
  | .iaUnassigned _ _ _ _ => "IA.UNASSIGNED"

end Sys2Proof
end

