-- ==== Sys2Proof/WellFormed.lean ====
section
/-! DEFINITION. Which terms of `Instr` stand for an encoding. Every field has its encoding's width in its type, so the one
check left is that EXT.UNASSIGNED carries one of its twelve OP codes (R231). -/

namespace Sys2Proof

/-- A well-formed instruction: one that some word encodes. EXT.UNASSIGNED has OP = 0000 to 1011 (R231); OP = 1100 to
1111 are DIVSTEP, TRANSFER, EXCESS6 and MULSTEP (R232). -/
def Instr.wellFormed : Instr → Bool
  | .logNotA _ _ _ _ => true
  | .logNand _ _ _ _ => true
  | .logOrNA _ _ _ _ => true
  | .logOnes _ _ _ _ => true
  | .logNor _ _ _ _ => true
  | .logNotB _ _ _ _ => true
  | .logXnor _ _ _ _ => true
  | .logOrNB _ _ _ _ => true
  | .logAndNA _ _ _ _ => true
  | .logXor _ _ _ _ => true
  | .logTransfer _ _ _ _ => true
  | .logOr _ _ _ _ => true
  | .logClear _ _ _ _ => true
  | .logAndNB _ _ _ _ => true
  | .logAnd _ _ _ _ => true
  | .logTest _ _ _ _ => true
  | .sub _ _ _ _ _ => true
  | .subc _ _ _ _ _ => true
  | .add _ _ _ _ _ => true
  | .addc _ _ _ _ _ => true
  | .cmp _ _ _ _ _ => true
  | .cmpc _ _ _ _ _ => true
  | .tadd _ _ _ _ _ => true
  | .taddc _ _ _ _ _ => true
  | .rol _ _ _ _ _ => true
  | .sll _ _ _ _ _ => true
  | .srl _ _ _ _ _ => true
  | .sra _ _ _ _ _ => true
  | .drol _ _ _ _ _ => true
  | .dsll _ _ _ _ _ => true
  | .dsrl _ _ _ _ _ => true
  | .dsra _ _ _ _ _ => true
  | .extUnassigned _ op _ _ _ => decide (op.toNat < 12)
  | .divStep _ _ _ _ => true
  | .transfer _ _ _ _ => true
  | .excess6 _ _ _ _ => true
  | .mulStep _ _ _ _ => true
  | .extract _ _ _ _ => true
  | .insert _ _ _ _ => true
  | .conditional _ _ _ _ _ => true
  | .tSpare _ => true
  | .branch _ _ _ _ _ => true
  | .store _ _ => true
  | .load _ _ => true
  | .loadi _ _ => true
  | .aSpare1 _ => true
  | .aSpare2 _ => true
  | .pmInc _ _ _ _ => true
  | .pmDec _ _ _ _ => true
  | .pmAdd _ _ _ _ => true
  | .pmSub1 _ _ _ _ => true
  | .iaMX _ _ _ _ => true
  | .iaRX _ _ _ _ => true
  | .iaXR _ _ _ _ => true
  | .iaXM _ _ _ _ => true
  | .iaRM _ _ _ _ => true
  | .iaMR _ _ _ _ => true
  | .iaRR _ _ _ _ => true
  | .iaUnassigned _ _ _ _ => true

end Sys2Proof
end

