-- ==== Sys2Proof/Decode.lean ====
section
/-! DEFINITION. Decoding and encoding of microinstruction halves, both written from the encoding tables of
spec/30_encoding.md (R120 to R127, R134) and the format rules of files 40 to 49. Decoding is total: every word has exactly
one T row and every right half exactly one A row (R135). -/

namespace Sys2Proof

/-! ### Left half (R122 to R125) -/

/-- LOGICAL: the operation by OP, bits 27-24 (R160, R162 to R177). -/
def decodeLogical (op : Nat) (imm : Bool) (bf af : RegNo) (acf : Acf) : Instr :=
  match op with
  | 0 => .logNotA imm bf af acf
  | 1 => .logNand imm bf af acf
  | 2 => .logOrNA imm bf af acf
  | 3 => .logOnes imm bf af acf
  | 4 => .logNor imm bf af acf
  | 5 => .logNotB imm bf af acf
  | 6 => .logXnor imm bf af acf
  | 7 => .logOrNB imm bf af acf
  | 8 => .logAndNA imm bf af acf
  | 9 => .logXor imm bf af acf
  | 10 => .logTransfer imm bf af acf
  | 11 => .logOr imm bf af acf
  | 12 => .logClear imm bf af acf
  | 13 => .logAndNB imm bf af acf
  | 14 => .logAnd imm bf af acf
  | _ => .logTest imm bf af acf

/-- ARITHMETIC: the operation by T (bit 27) and FN (bits 25-24), here the number T * 4 + FN (R190, R193 to R200). -/
def decodeArithmetic (op : Nat) (imm w : Bool) (bf af : RegNo) (acf : Acf) : Instr :=
  match op with
  | 0 => .sub imm w bf af acf
  | 1 => .subc imm w bf af acf
  | 2 => .add imm w bf af acf
  | 3 => .addc imm w bf af acf
  | 4 => .cmp imm w bf af acf
  | 5 => .cmpc imm w bf af acf
  | 6 => .tadd imm w bf af acf
  | _ => .taddc imm w bf af acf

/-- SHIFT/ROTATE: the operation by D (bit 27) and TY (bits 25-24), here the number D * 4 + TY (R210, R214 to R221). -/
def decodeShift (op : Nat) (imm w : Bool) (bf af : RegNo) (acf : Acf) : Instr :=
  match op with
  | 0 => .rol imm w bf af acf
  | 1 => .sll imm w bf af acf
  | 2 => .srl imm w bf af acf
  | 3 => .sra imm w bf af acf
  | 4 => .drol imm w bf af acf
  | 5 => .dsll imm w bf af acf
  | 6 => .dsrl imm w bf af acf
  | _ => .dsra imm w bf af acf

/-- EXTENDED: OP = 1100 to 1111 are assigned, the other twelve are EXT.UNASSIGNED (R231, R232). -/
def decodeExtended (op : BitVec 4) (skip : Bool) (bf af : RegNo) (acf : Acf) : Instr :=
  match op.toNat with
  | 12 => .divStep skip bf af acf
  | 13 => .transfer skip bf af acf
  | 14 => .excess6 skip bf af acf
  | 15 => .mulStep skip bf af acf
  | _ => .extUnassigned skip op bf af acf

/-- The left half of a word, with the right half it carries: the T row of the word (R122, R134, R135). -/
def decodeT (w : Word) : Instr :=
  let acf : Acf := w.extractLsb' 0 18
  let af : RegNo := w.extractLsb' 18 3
  let bf : RegNo := w.extractLsb' 21 3
  let op : BitVec 4 := w.extractLsb' 24 4
  let fn : Nat := (w.getLsbD 27).toNat * 4 + (w.extractLsb' 24 2).toNat
  match (w.extractLsb' 29 3).toNat with
  | 0 => decodeLogical op.toNat (w.getLsbD 28) bf af acf
  | 1 => decodeArithmetic fn (w.getLsbD 28) (w.getLsbD 26) bf af acf
  | 2 => decodeShift fn (w.getLsbD 28) (w.getLsbD 26) bf af acf
  | 3 => decodeExtended op (w.getLsbD 28) bf af acf
  | 4 => .extract (w.extractLsb' 24 5) bf af acf
  | 5 => .insert (w.extractLsb' 24 5) bf af acf
  | 6 => .conditional (w.extractLsb' 21 8) (w.getLsbD 20) (w.getLsbD 19) (w.getLsbD 18) acf
  | _ => .tSpare (w.extractLsb' 0 29)

/-! ### Right half (R126, R127) -/

/-- POINTER MODIFICATION: the operation by EF, bits 8-7 (R310). -/
def decodePointer (ef : Nat) (cf df : RegNo) (xop : BitVec 3) (val : BitVec 4) : Instr :=
  match ef with
  | 0 => .pmInc cf df xop val
  | 1 => .pmDec cf df xop val
  | 2 => .pmAdd cf df xop val
  | _ => .pmSub1 cf df xop val

/-- INDIRECT ACCESS: the transfer by XOP, bits 6-4 (R282). -/
def decodeIndirect (xop : Nat) (cf df : RegNo) (ef : BitVec 2) (val : BitVec 4) : Instr :=
  match xop with
  | 0 => .iaMX cf df ef val
  | 1 => .iaRX cf df ef val
  | 2 => .iaXR cf df ef val
  | 3 => .iaXM cf df ef val
  | 4 => .iaRM cf df ef val
  | 5 => .iaMR cf df ef val
  | 6 => .iaRR cf df ef val
  | _ => .iaUnassigned cf df ef val

/-- A right half as an A-machine instruction: its A row (R126, R134, R135). -/
def decodeA (h : Acf) : Instr :=
  let cf : RegNo := h.extractLsb' 12 3
  let df : RegNo := h.extractLsb' 9 3
  let ef : BitVec 2 := h.extractLsb' 7 2
  let xop : BitVec 3 := h.extractLsb' 4 3
  let val : BitVec 4 := h.extractLsb' 0 4
  let adr : Addr := h.extractLsb' 0 12
  match (h.extractLsb' 15 3).toNat with
  | 0 => .branch (h.extractLsb' 7 8) (h.getLsbD 6) (h.getLsbD 5) (h.getLsbD 4) val
  | 1 => .store cf adr
  | 2 => .aSpare1 (h.extractLsb' 0 15)
  | 3 => .load cf adr
  | 4 => decodePointer ef.toNat cf df xop val
  | 5 => decodeIndirect xop.toNat cf df ef val
  | 6 => .aSpare2 (h.extractLsb' 0 15)
  | _ => .loadi cf adr

/-- The row a word holds in its left half (`true`) or in its right half (`false`). -/
def decodeRow (left : Bool) (w : Word) : Instr :=
  if left then decodeT w else decodeA (w.extractLsb' 0 18)

/-! ### Bytes -/

/-- Why bytes are not decoded. No word is refused (R135): only too few bytes can be. -/
inductive DecodeError where
  /-- Fewer than the four bytes of a microinstruction word stand there. -/
  | truncated
deriving DecidableEq, Repr

/-- Read one microinstruction from bytes, most significant byte first (the model's own layout of a word, log entry 3:
the spec has no byte order, R64), and give the rest. -/
def decodeBytes : List Byte → Except DecodeError (Instr × List Byte)
  | b3 :: b2 :: b1 :: b0 :: rest => .ok (decodeT (b3 ++ b2 ++ b1 ++ b0), rest)
  | _ => .error .truncated

/-! ### Encoder -/

/-- A left half of the first four classes with its right half (R123). -/
def tWord (cls : BitVec 3) (b28 : Bool) (op : BitVec 4) (bf af : RegNo) (acf : Acf) : Word :=
  cls ++ BitVec.ofBool b28 ++ op ++ bf ++ af ++ acf

/-- The OP field of ARITHMETIC and SHIFT/ROTATE: T or D, W, FN or TY (R190, R210). -/
def opField (td w : Bool) (fn : BitVec 2) : BitVec 4 :=
  BitVec.ofBool td ++ BitVec.ofBool w ++ fn

/-- EXTRACT and INSERT (R124, R250). -/
def xWord (cls : BitVec 3) (pos : BitVec 5) (bf af : RegNo) (acf : Acf) : Word :=
  cls ++ pos ++ bf ++ af ++ acf

/-- CONDITIONAL (R125, R261). -/
def conditionalWord (cmask : BitVec 8) (v c sel : Bool) (acf : Acf) : Word :=
  6#3 ++ cmask ++ BitVec.ofBool v ++ BitVec.ofBool c ++ BitVec.ofBool sel ++ acf

/-- STORE, LOAD, LOADI (R270). -/
def regAddrHalf (cls : BitVec 3) (cf : RegNo) (adr : Addr) : Acf :=
  cls ++ cf ++ adr

/-- POINTER MODIFICATION and INDIRECT ACCESS (R280, R310). -/
def pointerHalf (cls : BitVec 3) (cf df : RegNo) (ef : BitVec 2) (xop : BitVec 3) (val : BitVec 4) : Acf :=
  cls ++ cf ++ df ++ ef ++ xop ++ val

/-- BRANCH (R320). -/
def branchHalf (bmask : BitVec 8) (v c sel : Bool) (val : BitVec 4) : Acf :=
  0#3 ++ bmask ++ BitVec.ofBool v ++ BitVec.ofBool c ++ BitVec.ofBool sel ++ val

/-- A spare class of the right half (R126, R140). -/
def spareHalf (cls : BitVec 3) (rest : BitVec 15) : Acf :=
  cls ++ rest

/-- The word whose left half does nothing, CONDITIONAL with an empty mask (R136), and whose right half is `acf`. -/
def rightOnlyWord (acf : Acf) : Word :=
  0x3000#14 ++ acf

/-- The word of an instruction. A T row fills the word. An A row stands under the left half that does nothing
(R136: "0xC0000000 | acf" is "right half only"). -/
def encode : Instr → Word
  | .logNotA imm bf af acf => tWord 0#3 imm 0#4 bf af acf
  | .logNand imm bf af acf => tWord 0#3 imm 1#4 bf af acf
  | .logOrNA imm bf af acf => tWord 0#3 imm 2#4 bf af acf
  | .logOnes imm bf af acf => tWord 0#3 imm 3#4 bf af acf
  | .logNor imm bf af acf => tWord 0#3 imm 4#4 bf af acf
  | .logNotB imm bf af acf => tWord 0#3 imm 5#4 bf af acf
  | .logXnor imm bf af acf => tWord 0#3 imm 6#4 bf af acf
  | .logOrNB imm bf af acf => tWord 0#3 imm 7#4 bf af acf
  | .logAndNA imm bf af acf => tWord 0#3 imm 8#4 bf af acf
  | .logXor imm bf af acf => tWord 0#3 imm 9#4 bf af acf
  | .logTransfer imm bf af acf => tWord 0#3 imm 10#4 bf af acf
  | .logOr imm bf af acf => tWord 0#3 imm 11#4 bf af acf
  | .logClear imm bf af acf => tWord 0#3 imm 12#4 bf af acf
  | .logAndNB imm bf af acf => tWord 0#3 imm 13#4 bf af acf
  | .logAnd imm bf af acf => tWord 0#3 imm 14#4 bf af acf
  | .logTest imm bf af acf => tWord 0#3 imm 15#4 bf af acf
  | .sub imm w bf af acf => tWord 1#3 imm (opField false w 0#2) bf af acf
  | .subc imm w bf af acf => tWord 1#3 imm (opField false w 1#2) bf af acf
  | .add imm w bf af acf => tWord 1#3 imm (opField false w 2#2) bf af acf
  | .addc imm w bf af acf => tWord 1#3 imm (opField false w 3#2) bf af acf
  | .cmp imm w bf af acf => tWord 1#3 imm (opField true w 0#2) bf af acf
  | .cmpc imm w bf af acf => tWord 1#3 imm (opField true w 1#2) bf af acf
  | .tadd imm w bf af acf => tWord 1#3 imm (opField true w 2#2) bf af acf
  | .taddc imm w bf af acf => tWord 1#3 imm (opField true w 3#2) bf af acf
  | .rol imm w bf af acf => tWord 2#3 imm (opField false w 0#2) bf af acf
  | .sll imm w bf af acf => tWord 2#3 imm (opField false w 1#2) bf af acf
  | .srl imm w bf af acf => tWord 2#3 imm (opField false w 2#2) bf af acf
  | .sra imm w bf af acf => tWord 2#3 imm (opField false w 3#2) bf af acf
  | .drol imm w bf af acf => tWord 2#3 imm (opField true w 0#2) bf af acf
  | .dsll imm w bf af acf => tWord 2#3 imm (opField true w 1#2) bf af acf
  | .dsrl imm w bf af acf => tWord 2#3 imm (opField true w 2#2) bf af acf
  | .dsra imm w bf af acf => tWord 2#3 imm (opField true w 3#2) bf af acf
  | .extUnassigned skip op bf af acf => tWord 3#3 skip op bf af acf
  | .divStep skip bf af acf => tWord 3#3 skip 12#4 bf af acf
  | .transfer skip bf af acf => tWord 3#3 skip 13#4 bf af acf
  | .excess6 skip bf af acf => tWord 3#3 skip 14#4 bf af acf
  | .mulStep skip bf af acf => tWord 3#3 skip 15#4 bf af acf
  | .extract pos bf af acf => xWord 4#3 pos bf af acf
  | .insert pos bf af acf => xWord 5#3 pos bf af acf
  | .conditional cmask v c sel acf => conditionalWord cmask v c sel acf
  | .tSpare rest => 7#3 ++ rest
  | .branch bmask v c sel val => rightOnlyWord (branchHalf bmask v c sel val)
  | .store cf adr => rightOnlyWord (regAddrHalf 1#3 cf adr)
  | .load cf adr => rightOnlyWord (regAddrHalf 3#3 cf adr)
  | .loadi cf adr => rightOnlyWord (regAddrHalf 7#3 cf adr)
  | .aSpare1 rest => rightOnlyWord (spareHalf 2#3 rest)
  | .aSpare2 rest => rightOnlyWord (spareHalf 6#3 rest)
  | .pmInc cf df xop val => rightOnlyWord (pointerHalf 4#3 cf df 0#2 xop val)
  | .pmDec cf df xop val => rightOnlyWord (pointerHalf 4#3 cf df 1#2 xop val)
  | .pmAdd cf df xop val => rightOnlyWord (pointerHalf 4#3 cf df 2#2 xop val)
  | .pmSub1 cf df xop val => rightOnlyWord (pointerHalf 4#3 cf df 3#2 xop val)
  | .iaMX cf df ef val => rightOnlyWord (pointerHalf 5#3 cf df ef 0#3 val)
  | .iaRX cf df ef val => rightOnlyWord (pointerHalf 5#3 cf df ef 1#3 val)
  | .iaXR cf df ef val => rightOnlyWord (pointerHalf 5#3 cf df ef 2#3 val)
  | .iaXM cf df ef val => rightOnlyWord (pointerHalf 5#3 cf df ef 3#3 val)
  | .iaRM cf df ef val => rightOnlyWord (pointerHalf 5#3 cf df ef 4#3 val)
  | .iaMR cf df ef val => rightOnlyWord (pointerHalf 5#3 cf df ef 5#3 val)
  | .iaRR cf df ef val => rightOnlyWord (pointerHalf 5#3 cf df ef 6#3 val)
  | .iaUnassigned cf df ef val => rightOnlyWord (pointerHalf 5#3 cf df ef 7#3 val)

/-- The bytes of an instruction's word, most significant first (log entry 3). -/
def encodeBytes (i : Instr) : List Byte :=
  [(encode i).extractLsb' 24 8, (encode i).extractLsb' 16 8, (encode i).extractLsb' 8 8, (encode i).extractLsb' 0 8]

/-! ### The opcode table (R138) -/

/-- One row of the opcode table: `w` is of the row when `w &&& mask = pattern`. -/
structure OpcodeRow where
  /-- The row's mnemonic. -/
  mnemonic : String
  /-- A left-half (`T`) row, or else a right-half (`A`) row. -/
  left : Bool
  /-- The bits the row fixes. -/
  mask : Word
  /-- Their values. -/
  pattern : Word
deriving DecidableEq, Repr

/-- The rows of LOGICAL (R162 to R177). -/
def logicalRows : List OpcodeRow :=
  [⟨"LOG.NOTA", true, 0xEF000000#32, 0x00000000#32⟩,
   ⟨"LOG.NAND", true, 0xEF000000#32, 0x01000000#32⟩,
   ⟨"LOG.ORNA", true, 0xEF000000#32, 0x02000000#32⟩,
   ⟨"LOG.ONES", true, 0xEF000000#32, 0x03000000#32⟩,
   ⟨"LOG.NOR", true, 0xEF000000#32, 0x04000000#32⟩,
   ⟨"LOG.NOTB", true, 0xEF000000#32, 0x05000000#32⟩,
   ⟨"LOG.XNOR", true, 0xEF000000#32, 0x06000000#32⟩,
   ⟨"LOG.ORNB", true, 0xEF000000#32, 0x07000000#32⟩,
   ⟨"LOG.ANDNA", true, 0xEF000000#32, 0x08000000#32⟩,
   ⟨"LOG.XOR", true, 0xEF000000#32, 0x09000000#32⟩,
   ⟨"LOG.TRANSFER", true, 0xEF000000#32, 0x0A000000#32⟩,
   ⟨"LOG.OR", true, 0xEF000000#32, 0x0B000000#32⟩,
   ⟨"LOG.CLEAR", true, 0xEF000000#32, 0x0C000000#32⟩,
   ⟨"LOG.ANDNB", true, 0xEF000000#32, 0x0D000000#32⟩,
   ⟨"LOG.AND", true, 0xEF000000#32, 0x0E000000#32⟩,
   ⟨"LOG.TEST", true, 0xEF000000#32, 0x0F000000#32⟩]

/-- The rows of ARITHMETIC (R193 to R200). -/
def arithmeticRows : List OpcodeRow :=
  [⟨"SUB", true, 0xEB000000#32, 0x20000000#32⟩,
   ⟨"SUBC", true, 0xEB000000#32, 0x21000000#32⟩,
   ⟨"ADD", true, 0xEB000000#32, 0x22000000#32⟩,
   ⟨"ADDC", true, 0xEB000000#32, 0x23000000#32⟩,
   ⟨"CMP", true, 0xEB000000#32, 0x28000000#32⟩,
   ⟨"CMPC", true, 0xEB000000#32, 0x29000000#32⟩,
   ⟨"TADD", true, 0xEB000000#32, 0x2A000000#32⟩,
   ⟨"TADDC", true, 0xEB000000#32, 0x2B000000#32⟩]

/-- The rows of SHIFT/ROTATE (R214 to R221). -/
def shiftRows : List OpcodeRow :=
  [⟨"ROL", true, 0xEB000000#32, 0x40000000#32⟩,
   ⟨"SLL", true, 0xEB000000#32, 0x41000000#32⟩,
   ⟨"SRL", true, 0xEB000000#32, 0x42000000#32⟩,
   ⟨"SRA", true, 0xEB000000#32, 0x43000000#32⟩,
   ⟨"DROL", true, 0xEB000000#32, 0x48000000#32⟩,
   ⟨"DSLL", true, 0xEB000000#32, 0x49000000#32⟩,
   ⟨"DSRL", true, 0xEB000000#32, 0x4A000000#32⟩,
   ⟨"DSRA", true, 0xEB000000#32, 0x4B000000#32⟩]

/-- The rows of EXTENDED, EXTRACT, INSERT, CONDITIONAL, T-SPARE (R231 to R261, R140). -/
def otherLeftRows : List OpcodeRow :=
  [⟨"EXT.UNASSIGNED", true, 0xE8000000#32, 0x60000000#32⟩,
   ⟨"EXT.UNASSIGNED", true, 0xEC000000#32, 0x68000000#32⟩,
   ⟨"DIVSTEP", true, 0xEF000000#32, 0x6C000000#32⟩,
   ⟨"TRANSFER", true, 0xEF000000#32, 0x6D000000#32⟩,
   ⟨"EXCESS6", true, 0xEF000000#32, 0x6E000000#32⟩,
   ⟨"MULSTEP", true, 0xEF000000#32, 0x6F000000#32⟩,
   ⟨"EXTRACT", true, 0xE0000000#32, 0x80000000#32⟩,
   ⟨"INSERT", true, 0xE0000000#32, 0xA0000000#32⟩,
   ⟨"CONDITIONAL", true, 0xE0000000#32, 0xC0000000#32⟩,
   ⟨"T-SPARE", true, 0xE0000000#32, 0xE0000000#32⟩]

/-- The rows of the right half (R271 to R321, R140). -/
def rightRows : List OpcodeRow :=
  [⟨"BRANCH", false, 0x00038000#32, 0x00000000#32⟩,
   ⟨"STORE", false, 0x00038000#32, 0x00008000#32⟩,
   ⟨"A-SPARE1", false, 0x00038000#32, 0x00010000#32⟩,
   ⟨"LOAD", false, 0x00038000#32, 0x00018000#32⟩,
   ⟨"PM.INC", false, 0x00038180#32, 0x00020000#32⟩,
   ⟨"PM.DEC", false, 0x00038180#32, 0x00020080#32⟩,
   ⟨"PM.ADD", false, 0x00038180#32, 0x00020100#32⟩,
   ⟨"PM.SUB1", false, 0x00038180#32, 0x00020180#32⟩,
   ⟨"IA.MX", false, 0x00038070#32, 0x00028000#32⟩,
   ⟨"IA.RX", false, 0x00038070#32, 0x00028010#32⟩,
   ⟨"IA.XR", false, 0x00038070#32, 0x00028020#32⟩,
   ⟨"IA.XM", false, 0x00038070#32, 0x00028030#32⟩,
   ⟨"IA.RM", false, 0x00038070#32, 0x00028040#32⟩,
   ⟨"IA.MR", false, 0x00038070#32, 0x00028050#32⟩,
   ⟨"IA.RR", false, 0x00038070#32, 0x00028060#32⟩,
   ⟨"IA.UNASSIGNED", false, 0x00038070#32, 0x00028070#32⟩,
   ⟨"A-SPARE2", false, 0x00038000#32, 0x00030000#32⟩,
   ⟨"LOADI", false, 0x00038000#32, 0x00038000#32⟩]

/-- The 42 left-half rows. -/
def leftRows : List OpcodeRow := logicalRows ++ arithmeticRows ++ shiftRows ++ otherLeftRows

/-! ### The table's words -/

/-- Whether `nbits` bits `w` of the opcode table stand for a right half alone: the table gives an A row bits 17 to 4 only
(R138), so a word of 24 bits or fewer, or one with no left half (bits 31-18 all zero) and some bit of the right half, is
read as its A row. The word 0 of 32 bits is LOG.NOTA (R136, R162). DESIGN CHOICE, log entry 26. -/
def tableRightOnly (nbits w : Nat) : Bool :=
  decide (nbits ≤ 24) || (decide (w < 2 ^ 18) && decide (w ≠ 0))

/-- The word that a table row's bits stand for in the control store: the right half alone goes under the left half that
does nothing (R136). -/
def tableWord (nbits w : Nat) : Word :=
  if tableRightOnly nbits w then rightOnlyWord (BitVec.ofNat 18 w) else BitVec.ofNat 32 w

/-- The instruction the decoder reads from an opcode-table row's bits, bit 0 the least significant (R7, R138). -/
def decodeTableWord (nbits w : Nat) : Option Instr :=
  if nbits ≤ 32 then some (decodeRow (!tableRightOnly nbits w) (tableWord nbits w)) else none

end Sys2Proof
end

