-- ==== Sys2Proof/Machine/Operands.lean ====
section
/-! DEFINITION. Operand forms (R123, R128, R132, R191, R211) and the transformations of the shifter and the adder (R192,
R212, R213). -/

namespace Sys2Proof.Machine

/-- `Expand(acf)`: bit 17 justifies the 16-bit IF left or right, bit 16 fills the rest with ones or zeros (R128). -/
def expand (acf : Acf) : Word :=
  let imm : BitVec 16 := acf.extractLsb' 0 16
  let fill : BitVec 16 := if acf.getLsbD 16 then 0xFFFF#16 else 0#16
  if acf.getLsbD 17 then imm ++ fill else fill ++ imm

/-- The second operand of LOGICAL and the IOP of ARITHMETIC: the expanded right half when I = 1, else x[BF] (R160,
R190). -/
def State.operand2 (s : State) (imm : Bool) (bf : RegNo) (acf : Acf) : Word :=
  if imm then expand acf else s.readReg bf

/-- OP2 of ARITHMETIC: the three bits BF/VAL as a value 0 to 7 when W = 1, else IOP (R191). -/
def State.arithOperand (s : State) (imm w : Bool) (bf : RegNo) (acf : Acf) : Word :=
  if w then bf.setWidth 32 else s.operand2 imm bf acf

/-! ### The adder (R192) -/

/-- The four functions FN of ARITHMETIC (R190). -/
inductive AluFn where
  /-- FN = 00, subtract. -/
  | sub
  /-- FN = 01, subtract with carry. -/
  | subc
  /-- FN = 10, add. -/
  | add
  /-- FN = 11, add with carry. -/
  | addc
deriving DecidableEq, Repr

/-- What the adder adds to the first operand: the second operand or its complement (R192). -/
def AluFn.addend (fn : AluFn) (op2 : Word) : Word :=
  match fn with
  | .sub | .subc => ~~~op2
  | .add | .addc => op2

/-- The adder's carry in (R192). -/
def AluFn.carryIn (fn : AluFn) (c : Bool) : Bool :=
  match fn with
  | .sub => true
  | .add => false
  | .subc | .addc => c

/-- The 33-bit sum of two words and a carry in (R192). -/
def sum33 (a b : Word) (cin : Bool) : BitVec 33 :=
  a.setWidth 33 + b.setWidth 33 + (BitVec.ofBool cin).setWidth 33

/-- The carry out of bit 31 (R192). -/
def carryOut (a b : Word) (cin : Bool) : Bool := (sum33 a b cin).getLsbD 32

/-- The carry into bit 31 (R192). -/
def carryIntoSign (a b : Word) (cin : Bool) : Bool :=
  ((a.extractLsb' 0 31).setWidth 32 + (b.extractLsb' 0 31).setWidth 32 + (BitVec.ofBool cin).setWidth 32).getLsbD 31

/-- Overflow: "carry into sign bit is not the same as the carry out of the sign bit" (R190, R192). -/
def addOverflow (a b : Word) (cin : Bool) : Bool := carryIntoSign a b cin != carryOut a b cin

/-- The 32-bit result (R192). -/
def addResult (a b : Word) (cin : Bool) : Word := (sum33 a b cin).setWidth 32

/-! ### The shifter (R211 to R213) -/

/-- The four types TY of SHIFT/ROTATE (R210). -/
inductive ShiftTy where
  /-- TY = 00, left rotate. -/
  | rol
  /-- TY = 01, left shift logical. -/
  | sll
  /-- TY = 10, right shift logical. -/
  | srl
  /-- TY = 11, right shift arithmetic. -/
  | sra
deriving DecidableEq, Repr

/-- One one-bit step on a value of any length (R212, R213). -/
def ShiftTy.oneStep {n : Nat} (ty : ShiftTy) (v : BitVec n) : BitVec n :=
  match ty with
  | .rol => v.rotateLeft 1
  | .sll => v <<< 1
  | .srl => v >>> 1
  | .sra => v.sshiftRight 1

/-- The operation by `k` bits, in closed form: `k` repetitions of `oneStep` (R211 to R213). -/
def ShiftTy.shift {n : Nat} (ty : ShiftTy) (v : BitVec n) (k : Nat) : BitVec n :=
  match ty with
  | .rol => v.rotateLeft (k % n)
  | .sll => v <<< k
  | .srl => v >>> k
  | .sra => v.sshiftRight k

/-- ShiftAmount (R211): VAL, 0 to 7, when W = 1; else the low SHIFT_COUNT_BITS bits of P. -/
def State.shiftAmount (s : State) (imm w : Bool) (bf : RegNo) (acf : Acf) : Nat :=
  if w then bf.toNat else (s.operand2 imm bf acf).toNat % 2 ^ Config.shiftCountBits

/-- The pair x[r] || x[r ^ 1] (R23, R213). -/
def State.readPair (s : State) (r : RegNo) : BitVec 64 := s.readReg r ++ s.readReg (pairOf r)

/-- Write the pair, the high word first (R213, R233, R236). -/
def State.writePair (s : State) (r : RegNo) (q : BitVec 64) : State :=
  (s.writeReg r (q.extractLsb' 32 32)).writeReg (pairOf r) (q.extractLsb' 0 32)

end Sys2Proof.Machine
end

