-- ==== Sys2Proof/Machine/Arithmetic.lean ====
section
/-! DEFINITION. ARITHMETIC microinstructions, class 001 (41_arithmetic.md). -/

namespace Sys2Proof.Machine

open Host

/-- The sequence common to all eight (R192): the sum, its storing when T = 0, then the condition codes (R36, R38). The
carry in is bit 29 as it stands before the T-sequence (R191, R202). -/
def State.arithmetic (s : State) (fn : AluFn) (keep imm w : Bool) (bf af : RegNo) (acf : Acf) : State :=
  let a := s.readReg af
  let b := fn.addend (s.arithOperand imm w bf acf)
  let cin := fn.carryIn s.carry
  let res := addResult a b cin
  let t := if keep then s.writeReg af res else s
  (t.setCC res (carryOut a b cin) (addOverflow a b cin)).afterT imm acf

/-- SUB: the result is stored (R193). -/
def execSub (imm w : Bool) (bf af : RegNo) (acf : Acf) (s : State) : Outcome State Fault Refusal :=
  .next (s.arithmetic .sub true imm w bf af acf)

/-- SUBC: the result is stored (R194). -/
def execSubc (imm w : Bool) (bf af : RegNo) (acf : Acf) (s : State) : Outcome State Fault Refusal :=
  .next (s.arithmetic .subc true imm w bf af acf)

/-- ADD: the result is stored (R195). -/
def execAdd (imm w : Bool) (bf af : RegNo) (acf : Acf) (s : State) : Outcome State Fault Refusal :=
  .next (s.arithmetic .add true imm w bf af acf)

/-- ADDC: the result is stored (R196). -/
def execAddc (imm w : Bool) (bf af : RegNo) (acf : Acf) (s : State) : Outcome State Fault Refusal :=
  .next (s.arithmetic .addc true imm w bf af acf)

/-- CMP: condition codes only (R197). -/
def execCmp (imm w : Bool) (bf af : RegNo) (acf : Acf) (s : State) : Outcome State Fault Refusal :=
  .next (s.arithmetic .sub false imm w bf af acf)

/-- CMPC: condition codes only (R198). -/
def execCmpc (imm w : Bool) (bf af : RegNo) (acf : Acf) (s : State) : Outcome State Fault Refusal :=
  .next (s.arithmetic .subc false imm w bf af acf)

/-- TADD: condition codes only (R199). -/
def execTadd (imm w : Bool) (bf af : RegNo) (acf : Acf) (s : State) : Outcome State Fault Refusal :=
  .next (s.arithmetic .add false imm w bf af acf)

/-- TADDC: condition codes only (R200). -/
def execTaddc (imm w : Bool) (bf af : RegNo) (acf : Acf) (s : State) : Outcome State Fault Refusal :=
  .next (s.arithmetic .addc false imm w bf af acf)

end Sys2Proof.Machine
end

