-- ==== Sys2Proof/Machine/Control.lean ====
section
/-! DEFINITION. CONDITIONAL (45_conditional.md), BRANCH (49_branch.md) and the spare classes (R140). -/

namespace Sys2Proof.Machine

open Host

/-- CONDITIONAL: skip the A-machine instruction if the code test is true; nothing is written (R261, C2). -/
def execConditional (cmask : BitVec 8) (v c sel : Bool) (acf : Acf) (s : State) : Outcome State Fault Refusal :=
  .next (s.afterT (s.codeTest cmask v c sel) acf)

/-- T-SPARE: no behaviour is stated and no trap exists (R140, D17; log entry 18). -/
def execTSpare (_rest : BitVec 29) (_s : State) : Outcome State Fault Refusal :=
  .refused .spareLeft

/-- BRANCH: MAR plus VAL if the code test is true (R321). -/
def execBranch (bmask : BitVec 8) (v c sel : Bool) (val : BitVec 4) (s : State) : Outcome State Fault Refusal :=
  .next ((if s.codeTest bmask v c sel then s.branchBy val else s).endA)

/-- A-SPARE1 (R140, D17; log entry 18). -/
def execASpare1 (_rest : BitVec 15) (_s : State) : Outcome State Fault Refusal :=
  .refused .spareRight1

/-- A-SPARE2 (R140, D17; log entry 18). -/
def execASpare2 (_rest : BitVec 15) (_s : State) : Outcome State Fault Refusal :=
  .refused .spareRight2

end Sys2Proof.Machine
end

