-- ==== Sys2Proof/Machine/Extended.lean ====
section
/-! DEFINITION. EXTENDED ARITHMETIC microinstructions, class 011 (43_extended.md). Bit 28 skips the A-machine instruction
(R230); both operands are registers. -/

namespace Sys2Proof.Machine

open Host

/-- EXT.UNASSIGNED: the source defines no behaviour and no trap exists (R140, R231, D17; log entry 18). -/
def execExtUnassigned (_skip : Bool) (_op : BitVec 4) (_bf _af : RegNo) (_acf : Acf) (_s : State)
    : Outcome State Fault Refusal :=
  .refused .unassignedExtended

/-- DIVSTEP_SIGN_TEST, "REG[AF] minus REG[BF] >= 0": `a >= b` when bit 31 of both is 0, else open (R233, D11; log
entry 9). -/
def divStepTest (a b : Word) : Bool :=
  if a.getLsbD 31 || b.getLsbD 31 then Config.divStepSignTest a b else decide (b.toNat ≤ a.toNat)

/-- The pair after one restoring division step: subtract if it fits, shift left, the quotient bit enters at bit 0
(R233). -/
def divStepPair (a q b : Word) : BitVec 64 :=
  let t := divStepTest a b
  let p := ((if t then a - b else a) ++ q) <<< 1
  p.extractLsb' 1 63 ++ BitVec.ofBool t

/-- DIVSTEP: one step of a restoring division of x[AF] || x[AF ^ 1] by x[BF] (R233). -/
def execDivStep (skip : Bool) (bf af : RegNo) (acf : Acf) (s : State) : Outcome State Fault Refusal :=
  .next ((s.writePair af (divStepPair (s.readReg af) (s.readReg (pairOf af)) (s.readReg bf))).afterT skip acf)

/-- TRANSFER: a register copy that sets no condition code (R234). -/
def execTransfer (skip : Bool) (bf af : RegNo) (acf : Acf) (s : State) : Outcome State Fault Refusal :=
  .next ((s.writeReg af (s.readReg bf)).afterT skip acf)

/-- One digit of EXCESS SIX: 6 where the source digit exceeds 9, else EXCESS6_OTHER_DIGITS (R235, D12; log entry 10). -/
def excess6Digit (src old : BitVec 4) : BitVec 4 :=
  if 9 < src.toNat then 6#4 else if Config.excess6Keeps then old else 0#4

/-- Digit `d` of a word, bits 4d+3 to 4d (R235). -/
def digit (w : Word) (d : Nat) : BitVec 4 := w.extractLsb' (4 * d) 4

/-- EXCESS SIX on all eight digits (R235). -/
def excess6 (src old : Word) : Word :=
  let e := fun d => excess6Digit (digit src d) (digit old d)
  e 7 ++ e 6 ++ e 5 ++ e 4 ++ e 3 ++ e 2 ++ e 1 ++ e 0

/-- EXCESS6 (R235). -/
def execExcess6 (skip : Bool) (bf af : RegNo) (acf : Acf) (s : State) : Outcome State Fault Refusal :=
  .next ((s.writeReg af (excess6 (s.readReg bf) (s.readReg af))).afterT skip acf)

/-- The high word after the shift of MULTIPLY STEP, its sign complemented when the previous step overflowed (R236). -/
def mulStepHigh (a q : Word) (prev : Bool) : Word :=
  let h := ((a ++ q).sshiftRight 1).extractLsb' 32 32
  if prev then h ^^^ 0x80000000#32 else h

/-- The CC field after MULTIPLY STEP: Overflow is set, or left for one of the other three values, or CC stays (R236, D13;
log entry 7). -/
def State.mulStepClass (s : State) (prev ovf : Bool) : State :=
  if ovf then s.setClass 3#2
  else if prev then (s.setClass (BitVec.ofFin ((Config.freeClass s.draws).castLE (by decide)))).drawn
  else s

/-- MULSTEP: shift the pair right, correct the sign after an overflow, add x[BF] if the multiplier bit was 1, keep the
overflow in CC (R236). -/
def execMulStep (skip : Bool) (bf af : RegNo) (acf : Acf) (s : State) : Outcome State Fault Refusal :=
  let a := s.readReg af
  let q := s.readReg (pairOf af)
  let b := s.readReg bf
  let prev := decide (s.resultClass = 3#2)
  let m := q.getLsbD 0
  let h := mulStepHigh a q prev
  let low := ((a ++ q).sshiftRight 1).extractLsb' 0 32
  let high := if m then addResult h b false else h
  .next (((s.writePair af (high ++ low)).mulStepClass prev (m && addOverflow h b false)).afterT skip acf)

end Sys2Proof.Machine
end

