-- ==== Sys2Proof/Machine/ExtractInsert.lean ====
section
/-! DEFINITION. EXTRACT and INSERT, classes 100 and 101 (44_extract_insert.md). The right half is always mask data, so the
A-machine sequence is always omitted (R129, R250). -/

namespace Sys2Proof.Machine

open Host

/-- EXTRACT: x[AF] gets x[BF] rotated left by POS, under the mask (R251). -/
def execExtract (pos : BitVec 5) (bf af : RegNo) (acf : Acf) (s : State) : Outcome State Fault Refusal :=
  .next ((s.writeReg af ((s.readReg bf).rotateLeft pos.toNat &&& expand acf)).afterT true acf)

/-- INSERT: the rotated x[BF] where the mask is 1, x[AF] where it is 0 (R252, R253). -/
def execInsert (pos : BitVec 5) (bf af : RegNo) (acf : Acf) (s : State) : Outcome State Fault Refusal :=
  .next ((s.writeReg af
    (((s.readReg bf).rotateLeft pos.toNat &&& expand acf) ||| (s.readReg af &&& ~~~expand acf))).afterT true acf)

end Sys2Proof.Machine
end

