-- ==== Sys2Proof/Machine/Indirect.lean ====
section
/-! DEFINITION. INDIRECT ACCESS, class 101 (47_indirect_access.md): the transfer, then the pointer modification. -/

namespace Sys2Proof.Machine

open Host

/-- One pointer modification: the register as it then stands plus VAL, over all 32 bits (R281, R283). -/
def State.bump (s : State) (r : RegNo) (val : BitVec 4) : State :=
  s.writeReg r (s.readReg r + val.signExtend 32)

/-- The modification step: DF first when EF bit 0 is 1, then CF when EF bit 1 is 1 (R281, R283, D26). The
microinstruction then ends. -/
def State.modify (s : State) (cf df : RegNo) (ef : BitVec 2) (val : BitVec 4) : State :=
  let t := if ef.getLsbD 0 then s.bump df val else s
  (if ef.getLsbD 1 then t.bump cf val else t).endA

/-- A control-store address taken from a register: bits 11-0 (R62, R292, D8). -/
def storeAddress (w : Word) : Addr := w.extractLsb' 0 12

/-- The address is accepted: the operation is outstanding, and the pointers are modified as the registers then stand
(R74 to R76, R283). -/
def State.accepted (s : State) (x : Sending) : State := (s.issue x.op).modify x.cf x.df x.ef x.val

/-- The CPU's turn with an address to send: it is accepted, or the CPU waits with the operands it has read (R76, R78,
D29; log entry 15). -/
def State.sendAddress (s : State) (x : Sending) : State := if s.busReady then s.accepted x else s.keepSending x

/-- A bus form whose operands have just been read (R283): an address word naming the CPU's own unit is refused (R81, D27;
log entry 17); else the address is sent. -/
def State.busForm (s : State) (aw : Word) (p : Pending) (cf df : RegNo) (ef : BitVec 2) (val : BitVec 4)
    : Outcome State Fault Refusal :=
  if namesCpu aw then .refused .selfAddress else .next (s.sendAddress ⟨p, cf, df, ef, val⟩)

/-- IA.MX: deferred bus read into the control store. While an operation is outstanding it waits, and nothing is read
(R77, R295); then address word and destination are taken (R284, R296). -/
def execIaMX (cf df : RegNo) (ef : BitVec 2) (val : BitVec 4) (s : State) : Outcome State Fault Refusal :=
  if s.busy then .next s
  else
    let aw := readAddressWord (s.readReg df)
    s.busForm aw (.read aw (.mem (storeAddress (s.readReg cf)))) cf df ef val

/-- IA.RX: deferred bus read into a register (R285, R295, R296). -/
def execIaRX (cf df : RegNo) (ef : BitVec 2) (val : BitVec 4) (s : State) : Outcome State Fault Refusal :=
  if s.busy then .next s
  else
    let aw := readAddressWord (s.readReg df)
    s.busForm aw (.read aw (.reg cf)) cf df ef val

/-- IA.XR: bus write of a register (R286, R295, R296). -/
def execIaXR (cf df : RegNo) (ef : BitVec 2) (val : BitVec 4) (s : State) : Outcome State Fault Refusal :=
  if s.busy then .next s
  else
    let aw := writeAddressWord (s.readReg cf)
    s.busForm aw (.write aw (s.readReg df)) cf df ef val

/-- IA.XM: bus write of a control-store word, which is read, and checked, before the address is sent (R287, R295). -/
def execIaXM (cf df : RegNo) (ef : BitVec 2) (val : BitVec 4) (s : State) : Outcome State Fault Refusal :=
  if s.busy then .next s
  else
    let aw := writeAddressWord (s.readReg cf)
    match s.memRead (storeAddress (s.readReg df)) with
    | some w => s.busForm aw (.write aw w) cf df ef val
    | none => .next (s.parityFault none)

/-- IA.RM: load through a pointer (R288). -/
def execIaRM (cf df : RegNo) (ef : BitVec 2) (val : BitVec 4) (s : State) : Outcome State Fault Refusal :=
  .next (s.withWord (storeAddress (s.readReg df)) fun w => (s.writeReg cf w).modify cf df ef val)

/-- IA.MR: store through a pointer (R289). -/
def execIaMR (cf df : RegNo) (ef : BitVec 2) (val : BitVec 4) (s : State) : Outcome State Fault Refusal :=
  .next ((s.memWrite (storeAddress (s.readReg cf)) (s.readReg df)).modify cf df ef val)

/-- IA.RR: register copy with optional increments (R290). -/
def execIaRR (cf df : RegNo) (ef : BitVec 2) (val : BitVec 4) (s : State) : Outcome State Fault Refusal :=
  .next ((s.writeReg cf (s.readReg df)).modify cf df ef val)

/-- IA.UNASSIGNED: no behaviour is defined and no trap exists (R291, D17; log entry 18). -/
def execIaUnassigned (_cf _df : RegNo) (_ef : BitVec 2) (_val : BitVec 4) (_s : State) : Outcome State Fault Refusal :=
  .refused .unassignedIndirect

end Sys2Proof.Machine
end

