-- ==== Sys2Proof/Machine/LoadStore.lean ====
section
/-! DEFINITION. STORE REGISTER, LOAD REGISTER, LOAD IMMEDIATE, classes 001, 011, 111 (46_store_load.md). -/

namespace Sys2Proof.Machine

open Host

/-- STORE: MEM[ADR] gets x[CF] (R271). -/
def execStore (cf : RegNo) (adr : Addr) (s : State) : Outcome State Fault Refusal :=
  .next ((s.memWrite adr (s.readReg cf)).endA)

/-- LOAD: x[CF] gets MEM[ADR], or the read fails parity (R272). -/
def execLoad (cf : RegNo) (adr : Addr) (s : State) : Outcome State Fault Refusal :=
  .next ((s.loadReg cf adr).endA)

/-- LOADI: x[CF] gets the sign-extended ADR (R273). -/
def execLoadi (cf : RegNo) (adr : Addr) (s : State) : Outcome State Fault Refusal :=
  .next ((s.writeReg cf (adr.signExtend 32)).endA)

end Sys2Proof.Machine
end

