-- ==== Sys2Proof/Machine/Logical.lean ====
section
/-! DEFINITION. LOGICAL microinstructions, class 000 (40_logical.md). -/

namespace Sys2Proof.Machine

open Host

/-- The sequence common to all sixteen (R161): both operands are read, the result goes to x[AF], then the condition codes
are laid over register 0 (R38), bit C with a value the source does not define (R36, D25; log entry 6). -/
def State.logical (s : State) (f : Word → Word → Word) (imm : Bool) (bf af : RegNo) (acf : Acf) : State :=
  let res := f (s.readReg af) (s.operand2 imm bf acf)
  (((s.writeReg af res).setCC res (Config.freeBit s.draws) false).drawn).afterT imm acf

/-- LOG.NOTA (R162). -/
def execLogNotA (imm : Bool) (bf af : RegNo) (acf : Acf) (s : State) : Outcome State Fault Refusal :=
  .next (s.logical (fun a _ => ~~~a) imm bf af acf)

/-- LOG.NAND (R163). -/
def execLogNand (imm : Bool) (bf af : RegNo) (acf : Acf) (s : State) : Outcome State Fault Refusal :=
  .next (s.logical (fun a b => ~~~(a &&& b)) imm bf af acf)

/-- LOG.ORNA (R164). -/
def execLogOrNA (imm : Bool) (bf af : RegNo) (acf : Acf) (s : State) : Outcome State Fault Refusal :=
  .next (s.logical (fun a b => ~~~a ||| b) imm bf af acf)

/-- LOG.ONES (R165). -/
def execLogOnes (imm : Bool) (bf af : RegNo) (acf : Acf) (s : State) : Outcome State Fault Refusal :=
  .next (s.logical (fun _ _ => 0xFFFFFFFF#32) imm bf af acf)

/-- LOG.NOR (R166). -/
def execLogNor (imm : Bool) (bf af : RegNo) (acf : Acf) (s : State) : Outcome State Fault Refusal :=
  .next (s.logical (fun a b => ~~~(a ||| b)) imm bf af acf)

/-- LOG.NOTB (R167). -/
def execLogNotB (imm : Bool) (bf af : RegNo) (acf : Acf) (s : State) : Outcome State Fault Refusal :=
  .next (s.logical (fun _ b => ~~~b) imm bf af acf)

/-- LOG.XNOR (R168). -/
def execLogXnor (imm : Bool) (bf af : RegNo) (acf : Acf) (s : State) : Outcome State Fault Refusal :=
  .next (s.logical (fun a b => ~~~(a ^^^ b)) imm bf af acf)

/-- LOG.ORNB (R169). -/
def execLogOrNB (imm : Bool) (bf af : RegNo) (acf : Acf) (s : State) : Outcome State Fault Refusal :=
  .next (s.logical (fun a b => a ||| ~~~b) imm bf af acf)

/-- LOG.ANDNA (R170). -/
def execLogAndNA (imm : Bool) (bf af : RegNo) (acf : Acf) (s : State) : Outcome State Fault Refusal :=
  .next (s.logical (fun a b => ~~~a &&& b) imm bf af acf)

/-- LOG.XOR (R171). -/
def execLogXor (imm : Bool) (bf af : RegNo) (acf : Acf) (s : State) : Outcome State Fault Refusal :=
  .next (s.logical (fun a b => a ^^^ b) imm bf af acf)

/-- LOG.TRANSFER (R172). -/
def execLogTransfer (imm : Bool) (bf af : RegNo) (acf : Acf) (s : State) : Outcome State Fault Refusal :=
  .next (s.logical (fun _ b => b) imm bf af acf)

/-- LOG.OR (R173). -/
def execLogOr (imm : Bool) (bf af : RegNo) (acf : Acf) (s : State) : Outcome State Fault Refusal :=
  .next (s.logical (fun a b => a ||| b) imm bf af acf)

/-- LOG.CLEAR (R174). -/
def execLogClear (imm : Bool) (bf af : RegNo) (acf : Acf) (s : State) : Outcome State Fault Refusal :=
  .next (s.logical (fun _ _ => 0#32) imm bf af acf)

/-- LOG.ANDNB (R175). -/
def execLogAndNB (imm : Bool) (bf af : RegNo) (acf : Acf) (s : State) : Outcome State Fault Refusal :=
  .next (s.logical (fun a b => a &&& ~~~b) imm bf af acf)

/-- LOG.AND (R176). -/
def execLogAnd (imm : Bool) (bf af : RegNo) (acf : Acf) (s : State) : Outcome State Fault Refusal :=
  .next (s.logical (fun a b => a &&& b) imm bf af acf)

/-- LOG.TEST (R177). -/
def execLogTest (imm : Bool) (bf af : RegNo) (acf : Acf) (s : State) : Outcome State Fault Refusal :=
  .next (s.logical (fun a _ => a) imm bf af acf)

end Sys2Proof.Machine
end

