-- ==== Sys2Proof/Machine/Pointer.lean ====
section
/-! DEFINITION. POINTER MODIFICATION and LOOP, class 100 (48_pointer_mod.md). -/

namespace Sys2Proof.Machine

open Host

/-- The loop test on the stored result as a signed number: XOP bit 2 for negative, bit 1 for zero, bit 0 for positive
(R310, R311). -/
def loopTest (xop : BitVec 3) (r : Word) : Bool :=
  (xop.getLsbD 2 && decide (r.toInt < 0)) || (xop.getLsbD 1 && decide (r.toInt = 0)) ||
    (xop.getLsbD 0 && decide (0 < r.toInt))

/-- The common sequence (R311): the result goes to x[CF], and a true loop test adds VAL to MAR. -/
def State.pointerMod (s : State) (cf : RegNo) (r : Word) (xop : BitVec 3) (val : BitVec 4) : State :=
  let t := s.writeReg cf r
  (if loopTest xop r then t.branchBy val else t).endA

/-- PM.INC: x[CF] plus 1; DF is ignored (R312, R141). -/
def execPmInc (cf _df : RegNo) (xop : BitVec 3) (val : BitVec 4) (s : State) : Outcome State Fault Refusal :=
  .next (s.pointerMod cf (s.readReg cf + 1#32) xop val)

/-- PM.DEC: x[CF] minus 1; DF is ignored (R313, R141). -/
def execPmDec (cf _df : RegNo) (xop : BitVec 3) (val : BitVec 4) (s : State) : Outcome State Fault Refusal :=
  .next (s.pointerMod cf (s.readReg cf - 1#32) xop val)

/-- PM.ADD: x[CF] plus x[DF] (R314). -/
def execPmAdd (cf df : RegNo) (xop : BitVec 3) (val : BitVec 4) (s : State) : Outcome State Fault Refusal :=
  .next (s.pointerMod cf (s.readReg cf + s.readReg df) xop val)

/-- The formula of EF = 11, by PTRMOD_EF3 (R315, D14; log entry 11). -/
def ptrmodResult (k : PtrmodEf3) (c d : Word) : Word :=
  match k with
  | .minusOne => c - d - 1#32
  | .exact => c - d
  | .minusTwo => c - d - 2#32

/-- PM.SUB1: x[CF] minus x[DF] minus 1, as PTRMOD_EF3 is decided (R315, D14; log entry 11). -/
def execPmSub1 (cf df : RegNo) (xop : BitVec 3) (val : BitVec 4) (s : State) : Outcome State Fault Refusal :=
  .next (s.pointerMod cf (ptrmodResult Config.ptrmodEf3 (s.readReg cf) (s.readReg df)) xop val)

end Sys2Proof.Machine
end

