-- ==== Sys2Proof/Machine/Shift.lean ====
section
/-! DEFINITION. SHIFT/ROTATE microinstructions, class 010 (42_shift_rotate.md). No condition code is set. -/

namespace Sys2Proof.Machine

open Host

/-- Single length (R212): the amount is read before x[AF] is written. -/
def State.shiftSingle (s : State) (ty : ShiftTy) (imm w : Bool) (bf af : RegNo) (acf : Acf) : State :=
  (s.writeReg af (ty.shift (s.readReg af) (s.shiftAmount imm w bf acf))).afterT imm acf

/-- Double length (R213): the pair is x[AF] || x[AF ^ 1]. -/
def State.shiftDouble (s : State) (ty : ShiftTy) (imm w : Bool) (bf af : RegNo) (acf : Acf) : State :=
  (s.writePair af (ty.shift (s.readPair af) (s.shiftAmount imm w bf acf))).afterT imm acf

/-- ROL (R214). -/
def execRol (imm w : Bool) (bf af : RegNo) (acf : Acf) (s : State) : Outcome State Fault Refusal :=
  .next (s.shiftSingle .rol imm w bf af acf)

/-- SLL (R215). -/
def execSll (imm w : Bool) (bf af : RegNo) (acf : Acf) (s : State) : Outcome State Fault Refusal :=
  .next (s.shiftSingle .sll imm w bf af acf)

/-- SRL (R216). -/
def execSrl (imm w : Bool) (bf af : RegNo) (acf : Acf) (s : State) : Outcome State Fault Refusal :=
  .next (s.shiftSingle .srl imm w bf af acf)

/-- SRA (R217). -/
def execSra (imm w : Bool) (bf af : RegNo) (acf : Acf) (s : State) : Outcome State Fault Refusal :=
  .next (s.shiftSingle .sra imm w bf af acf)

/-- DROL (R218). -/
def execDrol (imm w : Bool) (bf af : RegNo) (acf : Acf) (s : State) : Outcome State Fault Refusal :=
  .next (s.shiftDouble .rol imm w bf af acf)

/-- DSLL (R219). -/
def execDsll (imm w : Bool) (bf af : RegNo) (acf : Acf) (s : State) : Outcome State Fault Refusal :=
  .next (s.shiftDouble .sll imm w bf af acf)

/-- DSRL (R220). -/
def execDsrl (imm w : Bool) (bf af : RegNo) (acf : Acf) (s : State) : Outcome State Fault Refusal :=
  .next (s.shiftDouble .srl imm w bf af acf)

/-- DSRA (R221). -/
def execDsra (imm w : Bool) (bf af : RegNo) (acf : Acf) (s : State) : Outcome State Fault Refusal :=
  .next (s.shiftDouble .sra imm w bf af acf)

end Sys2Proof.Machine
end

