-- ==== Sys2Proof/Machine/Dispatch.lean ====
section
/-! DEFINITION. The dispatch: one arm per constructor of `Instr`, each a direct call of that row's meaning. -/

namespace Sys2Proof.Machine

open Host

/-- What one half-microinstruction does. A T row ends with the phase the right half calls for (R129); an A row ends the
microinstruction. -/
def exec (i : Instr) (s : State) : Host.Outcome State Fault Refusal :=
  match i with
  | .logNotA imm bf af acf => Sys2Proof.Machine.execLogNotA imm bf af acf s
  | .logNand imm bf af acf => Sys2Proof.Machine.execLogNand imm bf af acf s
  | .logOrNA imm bf af acf => Sys2Proof.Machine.execLogOrNA imm bf af acf s
  | .logOnes imm bf af acf => Sys2Proof.Machine.execLogOnes imm bf af acf s
  | .logNor imm bf af acf => Sys2Proof.Machine.execLogNor imm bf af acf s
  | .logNotB imm bf af acf => Sys2Proof.Machine.execLogNotB imm bf af acf s
  | .logXnor imm bf af acf => Sys2Proof.Machine.execLogXnor imm bf af acf s
  | .logOrNB imm bf af acf => Sys2Proof.Machine.execLogOrNB imm bf af acf s
  | .logAndNA imm bf af acf => Sys2Proof.Machine.execLogAndNA imm bf af acf s
  | .logXor imm bf af acf => Sys2Proof.Machine.execLogXor imm bf af acf s
  | .logTransfer imm bf af acf => Sys2Proof.Machine.execLogTransfer imm bf af acf s
  | .logOr imm bf af acf => Sys2Proof.Machine.execLogOr imm bf af acf s
  | .logClear imm bf af acf => Sys2Proof.Machine.execLogClear imm bf af acf s
  | .logAndNB imm bf af acf => Sys2Proof.Machine.execLogAndNB imm bf af acf s
  | .logAnd imm bf af acf => Sys2Proof.Machine.execLogAnd imm bf af acf s
  | .logTest imm bf af acf => Sys2Proof.Machine.execLogTest imm bf af acf s
  | .sub imm w bf af acf => Sys2Proof.Machine.execSub imm w bf af acf s
  | .subc imm w bf af acf => Sys2Proof.Machine.execSubc imm w bf af acf s
  | .add imm w bf af acf => Sys2Proof.Machine.execAdd imm w bf af acf s
  | .addc imm w bf af acf => Sys2Proof.Machine.execAddc imm w bf af acf s
  | .cmp imm w bf af acf => Sys2Proof.Machine.execCmp imm w bf af acf s
  | .cmpc imm w bf af acf => Sys2Proof.Machine.execCmpc imm w bf af acf s
  | .tadd imm w bf af acf => Sys2Proof.Machine.execTadd imm w bf af acf s
  | .taddc imm w bf af acf => Sys2Proof.Machine.execTaddc imm w bf af acf s
  | .rol imm w bf af acf => Sys2Proof.Machine.execRol imm w bf af acf s
  | .sll imm w bf af acf => Sys2Proof.Machine.execSll imm w bf af acf s
  | .srl imm w bf af acf => Sys2Proof.Machine.execSrl imm w bf af acf s
  | .sra imm w bf af acf => Sys2Proof.Machine.execSra imm w bf af acf s
  | .drol imm w bf af acf => Sys2Proof.Machine.execDrol imm w bf af acf s
  | .dsll imm w bf af acf => Sys2Proof.Machine.execDsll imm w bf af acf s
  | .dsrl imm w bf af acf => Sys2Proof.Machine.execDsrl imm w bf af acf s
  | .dsra imm w bf af acf => Sys2Proof.Machine.execDsra imm w bf af acf s
  | .extUnassigned skip op bf af acf => Sys2Proof.Machine.execExtUnassigned skip op bf af acf s
  | .divStep skip bf af acf => Sys2Proof.Machine.execDivStep skip bf af acf s
  | .transfer skip bf af acf => Sys2Proof.Machine.execTransfer skip bf af acf s
  | .excess6 skip bf af acf => Sys2Proof.Machine.execExcess6 skip bf af acf s
  | .mulStep skip bf af acf => Sys2Proof.Machine.execMulStep skip bf af acf s
  | .extract pos bf af acf => Sys2Proof.Machine.execExtract pos bf af acf s
  | .insert pos bf af acf => Sys2Proof.Machine.execInsert pos bf af acf s
  | .conditional cmask v c sel acf => Sys2Proof.Machine.execConditional cmask v c sel acf s
  | .tSpare rest => Sys2Proof.Machine.execTSpare rest s
  | .branch bmask v c sel val => Sys2Proof.Machine.execBranch bmask v c sel val s
  | .store cf adr => Sys2Proof.Machine.execStore cf adr s
  | .load cf adr => Sys2Proof.Machine.execLoad cf adr s
  | .loadi cf adr => Sys2Proof.Machine.execLoadi cf adr s
  | .aSpare1 rest => Sys2Proof.Machine.execASpare1 rest s
  | .aSpare2 rest => Sys2Proof.Machine.execASpare2 rest s
  | .pmInc cf df xop val => Sys2Proof.Machine.execPmInc cf df xop val s
  | .pmDec cf df xop val => Sys2Proof.Machine.execPmDec cf df xop val s
  | .pmAdd cf df xop val => Sys2Proof.Machine.execPmAdd cf df xop val s
  | .pmSub1 cf df xop val => Sys2Proof.Machine.execPmSub1 cf df xop val s
  | .iaMX cf df ef val => Sys2Proof.Machine.execIaMX cf df ef val s
  | .iaRX cf df ef val => Sys2Proof.Machine.execIaRX cf df ef val s
  | .iaXR cf df ef val => Sys2Proof.Machine.execIaXR cf df ef val s
  | .iaXM cf df ef val => Sys2Proof.Machine.execIaXM cf df ef val s
  | .iaRM cf df ef val => Sys2Proof.Machine.execIaRM cf df ef val s
  | .iaMR cf df ef val => Sys2Proof.Machine.execIaMR cf df ef val s
  | .iaRR cf df ef val => Sys2Proof.Machine.execIaRR cf df ef val s
  | .iaUnassigned cf df ef val => Sys2Proof.Machine.execIaUnassigned cf df ef val s

end Sys2Proof.Machine
end

