-- ==== Sys2Proof/Machine/Cycle.lean ====
section
/-! DEFINITION. The microinstruction cycle (R130) and the acts of the other agents at its interleave points (R86). -/

namespace Sys2Proof.Machine

open Host

/-- The I-machine sequence, one indivisible fetch and increment of MAR (R86, R131), then the T-machine sequence. A fetch
that fails parity ends the step (R130, R331). -/
def State.fetchAndT (s : State) : Outcome State Fault Refusal :=
  match s.memRead s.mar with
  | none => .next s.fetchFault
  | some w => exec (decodeT w) s.incMar

/-- The CPU's next sequence. Before an IFETCH an owed time-out interrupt is taken first, running or halted (R351, R358);
a halted CPU fetches nothing (R340, R346); otherwise the I- and T-sequences run. After them the A-sequence runs, even if
the left half set H (R341), and a bus form that has read its operands sends its address until it is accepted (R76). A
stuck CPU executes nothing (R80). -/
def State.sequence (s : State) : Outcome State Fault Refusal :=
  match s.phase with
  | .stuck => .next s
  | .aSeq acf => exec (decodeA acf) s
  | .sending x => .next (s.sendAddress x)
  | .ifetch =>
    if s.timeoutIrq then .next s.timeoutInterrupt
    else if s.halted then .next s
    else s.fetchAndT

/-- After the I- and T-sequences, the A-sequence of the same microinstruction where it is not omitted (R129, R130). -/
def thenRightHalf (o : Outcome State Fault Refusal) : Outcome State Fault Refusal :=
  match o with
  | .next t =>
    match t.phase with
    | .aSeq acf => exec (decodeA acf) t
    | .ifetch | .sending _ | .stuck => .next t
  | .fault r => .fault r
  | .refused r => .refused r

/-- The CPU runs alone: one microinstruction, `Step` of R130, or the rest of one. -/
def State.runAlone (s : State) : Outcome State Fault Refusal :=
  match s.phase with
  | .ifetch => thenRightHalf s.sequence
  | .aSeq _ | .sending _ | .stuck => s.sequence

/-- HALT/STEP (R343, R344): a CPU that is halted before an IFETCH executes one more microinstruction, whose I- and
T-sequences run now and whose right half runs at the CPU's next turn; otherwise H is set (D5; log entry 23). -/
def State.haltOrStep (s : State) : Outcome State Fault Refusal :=
  if s.phase = .ifetch && s.halted then s.fetchAndT else .next (s.setHalted true)

/-- An interrupting master offers its vector: before an IFETCH, running or halted, it is taken (R346, R351); inside a
microinstruction the CPU goes on as `meanwhile` says; a stuck CPU takes none (R80). -/
def State.interruptOffered (s : State) (v : Word) (meanwhile : Outcome State Fault Refusal)
    : Outcome State Fault Refusal :=
  match s.phase with
  | .ifetch => s.interrupted v
  | .aSeq _ | .sending _ => meanwhile
  | .stuck => .next s

/-- One act (R86). `s` is the state with the act taken from the schedule, `waiting` the state with the act still in it:
an interrupting master waits for its acknowledge until the CPU is before an IFETCH, and meanwhile the CPU goes on
(R351; log entry 21); a stuck CPU takes none (R80). Slave accesses and interrupts are performed also between the issue and
the completion of the CPU's own operation, and so is another unit's time-out: R108 says that no other master can come in
there, and that a model may ignore it. DESIGN CHOICE, log entry 38. -/
def State.perform (waiting s : State) (a : Act) : Outcome State Fault Refusal :=
  match a with
  | .cpu => s.sequence
  | .slaveAccess aw v => s.slaveAccessed aw v
  | .interrupt v => s.interruptOffered v waiting.sequence
  | .complete d => .next (s.completes d)
  | .noAnswer => s.getsNoAnswer
  | .busTimeout => s.busTimesOut
  | .run => .next (s.setHalted false)
  | .haltStep => s.haltOrStep
  | .parityReset => .next s.parityReset
  | .masterClear => .next s.masterCleared
  | .access sig => .next (s.accessLine sig)

/-- One move of the whole machine: the next act of the schedule, or, when the schedule is empty, the CPU alone. -/
def State.move (s : State) : Outcome State Fault Refusal :=
  match s.schedule with
  | [] => s.runAlone
  | a :: rest => s.perform (s.withSchedule rest) a

end Sys2Proof.Machine
end

