-- ==== Sys2Proof/Machine/Step.lean ====
section
/-! DEFINITION. The step of the machine, and the state in which the next step fetches a given word. -/

namespace Sys2Proof.Machine

/-- One step: one act of the schedule, or with an empty schedule one whole microinstruction (R130). -/
def step : State → Host.Outcome State Fault Refusal := fun s => s.move

/-- `s` with the opcode-table bits `w` stored in the control-store word at MAR, and all else that its fetch by the very
next step takes: no act scheduled before it, no owed time-out interrupt, the CPU running and before an IFETCH. An A row
stands under the left half that does nothing (R136). Log entry 26. -/
def State.withFetchWord (s : State) (nbits w : Nat) : State :=
  let t : State := { s with phase := .ifetch, schedule := [], timeoutIrq := false }
  (t.setHalted false).memWrite s.mar (tableWord nbits w)

end Sys2Proof.Machine
end

