-- ==== Sys2Proof/Machine/Timing.lean ====
section
/-! DEFINITION. The timing estimation of Figure 2-11 (70_reset_and_hazards.md, R400 to R406), in minor cycles. The step
counts no cycles: this file is what the spec says of time, and nothing of the machine depends on it (log entry 34). -/

namespace Sys2Proof.Machine

/-- IFETCH, repaired to 6 (R401, R403). -/
def ifetchCycles : Nat := 6

/-- The lost entries: ARITHMETIC and CONDITIONAL are 3 or more, LOAD REGISTER and `R <- M` with both modifications are
not known (R403). -/
inductive LostEntry where
  /-- ARITHMETIC. -/
  | arithmetic
  /-- CONDITIONAL. -/
  | conditional
  /-- LOAD REGISTER. -/
  | load
  /-- `R <- M` with both modifications. -/
  | rmBoth
deriving DecidableEq, Repr

/-- The number under which `Config.lostCycles` holds a lost entry. -/
def LostEntry.number : LostEntry → Nat
  | .arithmetic => 0
  | .conditional => 1
  | .load => 2
  | .rmBoth => 3

/-- The value of a lost entry; the two left halves are 3 or more (R403). -/
def LostEntry.cycles (e : LostEntry) : Nat :=
  match e with
  | .arithmetic | .conditional => 3 + Config.lostCycles e.number
  | .load | .rmBoth => Config.lostCycles e.number

/-- The T-machine sequence of a left half in the state in which it starts; nothing for a half that is not run there
(R401). -/
def leftCycles (i : Instr) (s : State) : Option Nat :=
  match i with
  | .logNotA .. | .logNand .. | .logOrNA .. | .logOnes .. | .logNor .. | .logNotB .. | .logXnor .. | .logOrNB ..
  | .logAndNA .. | .logXor .. | .logTransfer .. | .logOr .. | .logClear .. | .logAndNB .. | .logAnd .. | .logTest .. =>
    some 3
  | .sub .. | .subc .. | .add .. | .addc .. | .cmp .. | .cmpc .. | .tadd .. | .taddc .. => some LostEntry.arithmetic.cycles
  | .rol imm w bf _ acf | .sll imm w bf _ acf | .srl imm w bf _ acf | .sra imm w bf _ acf =>
    some (s.shiftAmount imm w bf acf + 3)
  | .drol imm w bf _ acf | .dsll imm w bf _ acf | .dsrl imm w bf _ acf | .dsra imm w bf _ acf =>
    some (s.shiftAmount imm w bf acf + 4)
  | .mulStep _ _ af _ => some (if (s.readReg (pairOf af)).getLsbD 0 then 7 else 6)
  | .divStep .. => some 7
  | .excess6 .. => some 4
  | .transfer .. => some 2
  | .insert pos .. => some (pos.toNat + 6)
  | .extract pos .. => some (pos.toNat + 3)
  | .conditional .. => some LostEntry.conditional.cycles
  | .extUnassigned .. | .tSpare .. | .branch .. | .store .. | .load .. | .loadi .. | .aSpare1 .. | .aSpare2 ..
  | .pmInc .. | .pmDec .. | .pmAdd .. | .pmSub1 .. | .iaMX .. | .iaRX .. | .iaXR .. | .iaXM .. | .iaRM .. | .iaMR ..
  | .iaRR .. | .iaUnassigned .. => none

/-- How many pointer registers EF modifies (R300, R401). -/
def modifications (ef : BitVec 2) : Nat := (ef.getLsbD 0).toNat + (ef.getLsbD 1).toNat

/-- One of three figures, by the number of pointer modifications (R300). -/
def byModifications (m0 m1 m2 : Nat) (ef : BitVec 2) : Nat :=
  match modifications ef with
  | 0 => m0
  | 1 => m1
  | _ => m2

/-- POINTER MODIFICATION: 6 when it loops, else 4 (R319). -/
def pointerCycles (xop : BitVec 3) (r : Word) : Nat := if loopTest xop r then 6 else 4

/-- The A-machine sequence of a right half in the state in which it starts, without the wait for the bus (R300, R319,
R401). -/
def rightCycles (i : Instr) (s : State) : Option Nat :=
  match i with
  | .branch .. => some 3
  | .store .. => some 9
  | .load .. => some LostEntry.load.cycles
  | .loadi .. => some 2
  | .pmInc cf _ xop _ => some (pointerCycles xop (s.readReg cf + 1#32))
  | .pmDec cf _ xop _ => some (pointerCycles xop (s.readReg cf - 1#32))
  | .pmAdd cf df xop _ => some (pointerCycles xop (s.readReg cf + s.readReg df))
  | .pmSub1 cf df xop _ => some (pointerCycles xop (ptrmodResult Config.ptrmodEf3 (s.readReg cf) (s.readReg df)))
  | .iaRX _ _ ef _ | .iaXR _ _ ef _ | .iaMX _ _ ef _ | .iaRR _ _ ef _ => some (byModifications 3 5 8 ef)
  | .iaXM _ _ ef _ => some (byModifications 9 9 12 ef)
  | .iaRM _ _ ef _ => some (byModifications 9 9 LostEntry.rmBoth.cycles ef)
  | .iaMR _ _ ef _ => some (byModifications 9 9 10 ef)
  | .logNotA .. | .logNand .. | .logOrNA .. | .logOnes .. | .logNor .. | .logNotB .. | .logXnor .. | .logOrNB ..
  | .logAndNA .. | .logXor .. | .logTransfer .. | .logOr .. | .logClear .. | .logAndNB .. | .logAnd .. | .logTest ..
  | .sub .. | .subc .. | .add .. | .addc .. | .cmp .. | .cmpc .. | .tadd .. | .taddc ..
  | .rol .. | .sll .. | .srl .. | .sra .. | .drol .. | .dsll .. | .dsrl .. | .dsra ..
  | .extUnassigned .. | .divStep .. | .transfer .. | .excess6 .. | .mulStep .. | .extract .. | .insert ..
  | .conditional .. | .tSpare .. | .aSpare1 .. | .aSpare2 .. | .iaUnassigned .. => none

/-- Note 4: the right halves that need the control store at once (R395, R402). -/
def needsStoreAtOnce : Instr → Bool
  | .store .. | .load .. | .iaXM .. | .iaRM .. | .iaMR .. => true
  | .logNotA .. | .logNand .. | .logOrNA .. | .logOnes .. | .logNor .. | .logNotB .. | .logXnor .. | .logOrNB ..
  | .logAndNA .. | .logXor .. | .logTransfer .. | .logOr .. | .logClear .. | .logAndNB .. | .logAnd .. | .logTest ..
  | .sub .. | .subc .. | .add .. | .addc .. | .cmp .. | .cmpc .. | .tadd .. | .taddc ..
  | .rol .. | .sll .. | .srl .. | .sra .. | .drol .. | .dsll .. | .dsrl .. | .dsra ..
  | .extUnassigned .. | .divStep .. | .transfer .. | .excess6 .. | .mulStep .. | .extract .. | .insert ..
  | .conditional .. | .tSpare .. | .branch .. | .loadi .. | .aSpare1 .. | .aSpare2 .. | .pmInc .. | .pmDec ..
  | .pmAdd .. | .pmSub1 .. | .iaMX .. | .iaRX .. | .iaXR .. | .iaRR .. | .iaUnassigned .. => false

/-- Note 3: the delay between the halves, 2 after a bus operation between them, else 1 after a left half of fewer than 3
cycles, where the right half needs the control store at once (R395, R402). Whether the two delays add where both causes
occur is not said: DESIGN CHOICE, the 2 alone, log entry 37. -/
def contentionDelay (left : Nat) (busBetween : Bool) (right : Instr) : Nat :=
  if needsStoreAtOnce right then
    if busBetween then 2 else if left < 3 then 1 else 0
  else 0

/-- Minor cycles of a whole microinstruction with no event before it or between its halves: IFETCH, the left half, the
contention delay and the right half where it runs (R400, R405). `s` is the state after the fetch, `t` the state after
the left half. -/
def microinstructionCycles (left right : Instr) (s t : State) : Option Nat :=
  match leftCycles left s with
  | none => none
  | some l =>
    match t.phase with
    | .aSeq _ => (rightCycles right t).map fun r => ifetchCycles + l + contentionDelay l false right + r
    | .ifetch | .sending _ | .stuck => some (ifetchCycles + l)

/-- Minor cycles that an event takes from the CPU, before an IFETCH or between the halves (R401, R404). -/
def eventCycles (beforeFetch : Bool) : Act → Option Nat
  | .interrupt _ => if beforeFetch then some 16 else none
  | .slaveAccess aw _ =>
    some (if aw.getLsbD 24 then (if beforeFetch then 16 else 14) else (if beforeFetch then 8 else 6))
  | .complete _ => some (if beforeFetch then 8 else 6)
  | .cpu | .noAnswer | .busTimeout | .run | .haltStep | .parityReset | .masterClear | .access _ => none

end Sys2Proof.Machine
end

