-- ==== Sys2Proof/Safety.lean ====
section
/-! DEFINITION. The terms the statements use: the machine's invariant, what a run without a stop is, and the frames of an
instruction (what it leaves unchanged). -/

namespace Sys2Proof.Machine

open Host

/-- The outcome is a next state. -/
def completes (o : Outcome State Fault Refusal) : Prop := ∃ t, o = .next t

/-- `k` steps from `s` meet no fault and no refusal. -/
def runsSafely (k : Nat) (s : State) : Prop := completes (Sys2Proof.core.run k s)

/-- What every step keeps. The control store has its canonical form; bit 24 of register 0 is no storage bit (R31); an
outstanding operation holds the bus (R108); an owed time-out interrupt comes with its latch (R333); a stuck CPU has the
latch set and holds the bus (R80); an address is sent with no operation outstanding (R77). -/
structure State.Inv (s : State) : Prop where
  /-- The canonical form of the control store. -/
  storeWf : s.store.wf = true
  /-- Bit 24 of register 0 is not stored (R31). -/
  busyNotStored : (s.raw 0#3).getLsbD 24 = false
  /-- While an operation is outstanding the CPU's access controller is in state 2 (R102, R108). -/
  pendingHoldsBus : s.busy = true → s.access = .using
  /-- `timeout_irq` is set only together with `timeout` (R333). -/
  owedHasLatch : s.timeoutIrq = true → s.timeout = true
  /-- The CPU gets stuck only by a time-out that it causes itself (R80). -/
  stuckHasLatch : s.phase = .stuck → s.timeout = true ∧ s.access = .using
  /-- The CPU sends the address of an operation only when none is outstanding (R77). -/
  sendingAlone : ∀ x, s.phase = .sending x → s.busy = false ∧ x.op ≠ .none

/-- A control-store word that something has written passes its parity check; of any other word no cell is listed (R66,
R331). -/
def Memory.parityGood (m : Memory) : Prop :=
  ∀ a : Addr, (m.wordAt a).isSome = true ∨
    ((∀ k, k < 4 → m.byteAt (dataCell a k) = none) ∧ m.byteAt (parityCell a) = none)

/-- The cells of a control-store word: its four bytes and its parity bit. -/
def wordCells (a : Addr) : List Nat := [dataCell a 0, dataCell a 1, dataCell a 2, dataCell a 3, parityCell a]

/-- Every cell of the control store reads as before. -/
def SameStore (s t : State) : Prop := ∀ c, t.byteAt c = s.byteAt c

/-- Every cell of the control store outside word `a` reads as before. -/
def SameStoreExcept (a : Addr) (s t : State) : Prop := ∀ c, c ∉ wordCells a → t.byteAt c = s.byteAt c

/-- Every register outside `rs` holds what it held, register 0 among them. -/
def SameRegsExcept (rs : List RegNo) (s t : State) : Prop := ∀ r, r ∉ rs → t.raw r = s.raw r

/-- The bus controller's operation and the access controller are as before. -/
def SameBus (s t : State) : Prop := t.pending = s.pending ∧ t.access = s.access

/-- The latches, the acts to come and the transfers done are as before. -/
def SameOutside (s t : State) : Prop :=
  t.parityError = s.parityError ∧ t.timeout = s.timeout ∧ t.timeoutIrq = s.timeoutIrq ∧
    t.schedule = s.schedule ∧ t.busLog = s.busLog

/-- The frame of a T-machine sequence: the control store, the bus and the latches are as before, the registers outside
`rs` too, and the right half follows unless it is skipped (R129). -/
structure LeftFrame (rs : List RegNo) (skip : Bool) (acf : Acf) (s t : State) : Prop where
  /-- No cell of the control store changes. -/
  store : SameStore s t
  /-- No other register changes. -/
  regs : SameRegsExcept rs s t
  /-- The bus controller is as before. -/
  bus : SameBus s t
  /-- The latches and the other agents are as before. -/
  outside : SameOutside s t
  /-- The right half is run next, or is omitted. -/
  phase : t.phase = if skip then .ifetch else .aSeq acf

/-- The frame of an A-machine sequence that touches neither the control store nor the bus. -/
structure RightFrame (rs : List RegNo) (s t : State) : Prop where
  /-- No cell of the control store changes. -/
  store : SameStore s t
  /-- No other register changes. -/
  regs : SameRegsExcept rs s t
  /-- The bus controller is as before. -/
  bus : SameBus s t
  /-- The latches and the other agents are as before. -/
  outside : SameOutside s t
  /-- The microinstruction is complete. -/
  phase : t.phase = .ifetch

/-- How many bits of a word are 1. -/
def onesOf (w : Word) : Nat := (List.range 32).countP fun k => w.getLsbD k

/-- Register 0 shows the class and the single-bit codes of a result (R33, R34), bit C apart. -/
structure ShowsCodes (t : State) (res : Word) (ovf : Prop) : Prop where
  /-- Overflow is 11 and only overflow is. -/
  overflow : t.resultClass = 3#2 ↔ ovf
  /-- Without overflow: Zero 00, Less than 01, Greater than 10. -/
  sign : ¬ ovf → t.resultClass = if res.toInt = 0 then 0#2 else if res.toInt < 0 then 1#2 else 2#2
  /-- H is the high bit of the result. -/
  high : (t.raw 0#3).getLsbD 28 = res.getLsbD 31
  /-- L is the low bit of the result. -/
  low : (t.raw 0#3).getLsbD 27 = res.getLsbD 0
  /-- S is 1 when all bits are the same. -/
  same : (t.raw 0#3).getLsbD 26 = true ↔ (res.toNat = 0 ∨ res.toNat = 2 ^ 32 - 1)
  /-- P is 1 for an odd number of ones. -/
  parity : (t.raw 0#3).getLsbD 25 = true ↔ onesOf res % 2 = 1

/-- Bits 31-25 of register 0, the condition codes, are as before. -/
def SameCodes (s t : State) : Prop := (t.raw 0#3).extractLsb' 25 7 = (s.raw 0#3).extractLsb' 25 7

/-- Bits 24-0 of register 0 are as before. -/
def SameBelowCodes (s t : State) : Prop := (t.raw 0#3).extractLsb' 0 25 = (s.raw 0#3).extractLsb' 0 25

/-- Bits 31-12 of register 0, all but MAR, are as before. -/
def SameAboveMar (s t : State) : Prop := (t.raw 0#3).extractLsb' 12 20 = (s.raw 0#3).extractLsb' 12 20

/-- It is the CPU's turn: it runs alone, or its turn is the next act; `rest` are the acts after it. -/
def CpuTurn (s : State) (rest : List Act) : Prop := (s.schedule = [] ∧ rest = []) ∨ s.schedule = .cpu :: rest

/-! ### What the statements compute with -/

/-- The bits of `v` that register `r` keeps: all of them, but for bit 24 of register 0 (R31). -/
def stored (r : RegNo) (v : Word) : Word := if r = 0#3 then v &&& 0xFEFFFFFF#32 else v

/-- Register `r` got the value `v`. Of bit 24 of register 0, which is no storage bit (R31), it says nothing. -/
def Gets (r : RegNo) (v : Word) (t : State) : Prop :=
  ∀ k, k < 32 → (k = 24 → r ≠ 0#3) → (t.raw r).getLsbD k = v.getLsbD k

/-- What a read gives of a register whose stored bits are `v`: in register 0 bit 24 is BUSY (R30). -/
def seen (busy : Bool) (r : RegNo) (v : Word) : Word :=
  if r = 0#3 then (v &&& 0xFEFFFFFF#32) ||| (if busy then 0x01000000#32 else 0#32) else v

/-- One pointer modification on the register contents `x`, if it is asked for (R281, R283). -/
def bumpIn (busy on : Bool) (r : RegNo) (val : BitVec 4) (x : RegNo → Word) : RegNo → Word :=
  if on then Function.update x r (stored r (seen busy r (x r) + val.signExtend 32)) else x

/-- The modification step on the register contents `x`: DF first, then CF (R283, D26). -/
def modifiedRegs (busy : Bool) (cf df : RegNo) (ef : BitVec 2) (val : BitVec 4) (x : RegNo → Word) : RegNo → Word :=
  bumpIn busy (ef.getLsbD 1) cf val (bumpIn busy (ef.getLsbD 0) df val x)

/-- A result in x[`af`], under condition codes that are laid over it when `af` is 0 (R38). -/
structure HoldsResult (af : RegNo) (res : Word) (s t : State) : Prop where
  /-- Another register holds the result, and register 0 changes in its condition codes only. -/
  general : af ≠ 0#3 → t.raw af = res ∧ SameBelowCodes s t
  /-- Register 0 has bits 24-0 from the result, bit 24 dropped. -/
  zero : af = 0#3 → (t.raw 0#3).extractLsb' 0 25 = (stored 0#3 res).extractLsb' 0 25

/-- The exact signed value that a function of ARITHMETIC computes (R190). -/
def exactValue (fn : AluFn) (a b : Word) (c : Bool) : Int :=
  match fn with
  | .sub => a.toInt - b.toInt
  | .subc => a.toInt - b.toInt - 1 + c.toNat
  | .add => a.toInt + b.toInt
  | .addc => a.toInt + b.toInt + c.toNat

/-- When a function of ARITHMETIC carries out of bit 31: an unsigned sum that does not fit, or no borrow (R193). -/
def carries (fn : AluFn) (a b : Word) (c : Bool) : Prop :=
  match fn with
  | .sub => b.toNat ≤ a.toNat
  | .subc => b.toNat + 1 ≤ a.toNat + c.toNat
  | .add => 2 ^ 32 ≤ a.toNat + b.toNat
  | .addc => 2 ^ 32 ≤ a.toNat + b.toNat + c.toNat

/-- A signed value that 32 bits cannot hold. -/
def outOfRange (v : Int) : Prop := v < -2 ^ 31 ∨ 2 ^ 31 ≤ v

/-- The result and the condition codes of an ARITHMETIC microinstruction (R192). -/
structure ArithmeticEffect (fn : AluFn) (a b : Word) (c : Bool) (res : Word) (t : State) : Prop where
  /-- The exact value modulo 2 to the 32. -/
  result : res = BitVec.ofInt 32 (exactValue fn a b c)
  /-- The carry out of bit 31. -/
  carry : t.carry = true ↔ carries fn a b c
  /-- The other codes; overflow when the exact value does not fit. -/
  codes : ShowsCodes t res (outOfRange (exactValue fn a b c))

/-- One one-bit step on 32 bits (R212). -/
def step32 (ty : ShiftTy) (v : BitVec 32) : BitVec 32 :=
  match ty with
  | .rol => v.extractLsb' 0 31 ++ v.extractLsb' 31 1
  | .sll => v.extractLsb' 0 31 ++ 0#1
  | .srl => 0#1 ++ v.extractLsb' 1 31
  | .sra => v.extractLsb' 31 1 ++ v.extractLsb' 1 31

/-- One one-bit step on the 64 bits of a pair (R213). -/
def step64 (ty : ShiftTy) (q : BitVec 64) : BitVec 64 :=
  match ty with
  | .rol => q.extractLsb' 0 63 ++ q.extractLsb' 63 1
  | .sll => q.extractLsb' 0 63 ++ 0#1
  | .srl => 0#1 ++ q.extractLsb' 1 63
  | .sra => q.extractLsb' 63 1 ++ q.extractLsb' 1 63

/-- The high word and the low word of a pair stand in x[`r`] and x[`r` with its lowest bit inverted] (R23). -/
def HoldsPair (r : RegNo) (q : BitVec 64) (t : State) : Prop :=
  Gets r (q.extractLsb' 32 32) t ∧ Gets (r ^^^ 1#3) (q.extractLsb' 0 32) t

/-- A parity fault was taken (R331): the latch is set, the CPU is halted, the sequence is abandoned. What the registers
hold is open; the control store, the bus and the time-out latches are as they were. -/
structure ParityHalt (s t : State) : Prop where
  /-- The PARITY ERROR latch is set. -/
  latch : t.parityError = true
  /-- H is set. -/
  halted : t.halted = true
  /-- No microinstruction is in progress; a CPU that was stuck stays so. -/
  phase : t.phase = if s.phase = .stuck then .stuck else .ifetch
  /-- No cell of the control store changes. -/
  store : SameStore s t
  /-- The bus controller is as before. -/
  bus : SameBus s t
  /-- The other latches, the acts and the transfers are as before. -/
  outside : t.timeout = s.timeout ∧ t.timeoutIrq = s.timeoutIrq ∧ t.schedule = s.schedule ∧ t.busLog = s.busLog

/-- The frame of a step of another agent that writes no register and no control-store word. -/
structure Untouched (s t : State) : Prop where
  /-- No register changes. -/
  regs : SameRegsExcept [] s t
  /-- No cell of the control store changes. -/
  store : SameStore s t
  /-- The sequencer stands where it stood. -/
  phase : t.phase = s.phase

/-- Bit `k` of the code byte that a test selects: the indicator codes, bits 23-16 of register 0, or the condition codes,
bits 31-24, with live BUSY (R260). -/
def codeBit (s : State) (sel : Bool) (k : Nat) : Bool :=
  (s.readReg 0#3).getLsbD (if sel then 16 + k else 24 + k)

/-- The bits that the loop specification XOP asks for hold of a signed number (R310, R311). -/
def Loops (xop : BitVec 3) (r : Word) : Prop :=
  (xop.getLsbD 2 = true ∧ r.toInt < 0) ∨ (xop.getLsbD 1 = true ∧ r.toInt = 0) ∨ (xop.getLsbD 0 = true ∧ 0 < r.toInt)

end Sys2Proof.Machine
end

