-- ==== Sys2Proof/Certificates/Slice0/Obligations.lean ====
section
/-! DEFINITION. The statements for the provers. -/

open Sys2Proof Sys2Proof.Machine Host

/-! ### Encoding -/

/-- Words written out from the encoding tables decode to the microinstructions they stand for (R123 to R127, R134). -/
def Obligations.SpecWordsDecode : Prop :=
  decodeT 0x22440000#32 = .add false false 2#3 1#3 0#18 ∧
  decodeT 0x1E0500FF#32 = .logAnd true 0#3 1#3 0x100FF#18 ∧
  decodeT 0x4D8C0000#32 = .dsll false true 4#3 3#3 0#18 ∧
  decodeT 0x6F2A409F#32 = .mulStep false 1#3 2#3 0x2409F#18 ∧
  decodeT 0xA4500FF0#32 = .insert 4#5 2#3 4#3 0x00FF0#18 ∧
  decodeT 0xD813B001#32 = .conditional 0xC0#8 true false false 0x3B001#18 ∧
  decodeA 0x0604E#18 = .branch 0xC0#8 true false false 14#4 ∧
  decodeA 0x0A200#18 = .store 2#3 0x200#12 ∧
  decodeA 0x2409F#18 = .pmDec 4#3 0#3 1#3 15#4 ∧
  decodeA 0x2A381#18 = .iaMX 2#3 1#3 3#2 1#4 ∧
  decodeA 0x3A800#18 = .loadi 2#3 0x800#12

/-- Decoding the encoding of any well-formed instruction gives it back, with every operand. -/
def Obligations.DecodeOfEncode : Prop :=
  ∀ i : Instr, i.wellFormed = true → decodeRow i.isT (encode i) = i

/-- Every word is the encoding of the left half it is decoded to, and every right half likewise; what is decoded is well
formed and of the right half of the table. -/
def Obligations.EncodeOfDecode : Prop :=
  (∀ w : Word, encode (decodeT w) = w ∧ (decodeT w).wellFormed = true ∧ (decodeT w).isT = true) ∧
  (∀ h : Acf, encode (decodeA h) = rightOnlyWord h ∧ (decodeA h).wellFormed = true ∧ (decodeA h).isT = false)

/-- A word that a row of the opcode table applies to is decoded to that row's mnemonic, and exactly one left-half row and
one right-half row apply to every word (R135, R138). -/
def Obligations.TableRowIsDecoded : Prop :=
  (∀ r ∈ leftRows, ∀ w : Word, w &&& r.mask = r.pattern → (decodeT w).mnemonic = r.mnemonic) ∧
  (∀ r ∈ rightRows, ∀ w : Word, w &&& r.mask = r.pattern → (decodeA (w.extractLsb' 0 18)).mnemonic = r.mnemonic) ∧
  (∀ w : Word, ∃! r, r ∈ leftRows ∧ w &&& r.mask = r.pattern) ∧
  (∀ w : Word, ∃! r, r ∈ rightRows ∧ w &&& r.mask = r.pattern)

/-! ### The microinstruction cycle -/

/-- With no act of another agent to come, a running CPU before an IFETCH runs the left half that the word at MAR decodes
to, on the state in which MAR is incremented, and then the right half where it is not omitted (R130). -/
def Obligations.StepRunsDecoded : Prop :=
  ∀ (s : State) (w : Word),
    s.schedule = [] → s.phase = .ifetch → s.timeoutIrq = false → s.halted = false → s.memRead s.mar = some w →
    step s = match exec (decodeT w) s.incMar with
      | .next t =>
        match t.phase with
        | .aSeq acf => exec (decodeA acf) t
        | .ifetch => .next t
        | .sending _ => .next t
        | .stuck => .next t
      | .fault f => .fault f
      | .refused f => .refused f

/-- The CPU's turn among other agents: before an IFETCH the left half alone, on the state with MAR incremented; after it
the right half, whether the CPU then is halted or not (R86, R130, R341). -/
def Obligations.SequencesRunDecoded : Prop :=
  (∀ (s : State) (w : Word) (rest : List Act),
    s.schedule = .cpu :: rest → s.phase = .ifetch → s.timeoutIrq = false → s.halted = false →
    s.memRead s.mar = some w →
    step s = exec (decodeT w) (s.withSchedule rest).incMar) ∧
  (∀ (s : State) (acf : Acf) (rest : List Act),
    s.schedule = .cpu :: rest → s.phase = .aSeq acf → step s = exec (decodeA acf) (s.withSchedule rest)) ∧
  (∀ (s : State) (acf : Acf), s.schedule = [] → s.phase = .aSeq acf → step s = exec (decodeA acf) s)

/-- The increment of MAR: MAR plus 1 modulo 4096, and nothing else of any register (R27, R131). -/
def Obligations.FetchIncrementsMar : Prop :=
  ∀ s : State, s.incMar.mar.toNat = (s.mar.toNat + 1) % 4096 ∧ SameAboveMar s s.incMar ∧
    SameRegsExcept [0#3] s s.incMar ∧ SameStore s s.incMar ∧ SameBus s s.incMar ∧ SameOutside s s.incMar ∧
    s.incMar.phase = s.phase

/-- A microinstruction fetch that fails its parity check, by a CPU that runs alone, at its turn among other agents, or at a
single step, halts the CPU and sets the PARITY ERROR latch; MAR is the fetch address or one more (R130, R331, R344; what
else stays is log entry 4, which of the two addresses log entry 5). -/
def Obligations.FetchOfBadWordHalts : Prop :=
  ∀ (s : State) (rest : List Act), s.phase = .ifetch → s.memRead s.mar = none →
    (CpuTurn s rest ∧ s.timeoutIrq = false ∧ s.halted = false) ∨ (s.schedule = .haltStep :: rest ∧ s.halted = true) →
    ∃ t, step s = .next t ∧ ParityHalt (s.withSchedule rest) t ∧ (t.mar = s.mar ∨ t.mar = s.mar + 1#12)

/-- A halted CPU fetches nothing and executes nothing, alone or at its turn among other agents (R340, R346). -/
def Obligations.HaltedCpuIdles : Prop :=
  ∀ s : State, s.phase = .ifetch → s.timeoutIrq = false → s.halted = true →
    (s.schedule = [] → step s = .next s) ∧
    (∀ rest, s.schedule = .cpu :: rest → step s = .next (s.withSchedule rest))

/-! ### Invariants -/

/-- Every step keeps the invariant of the machine, whatever the other agents do. -/
def Obligations.StepKeepsInvariant : Prop :=
  ∀ s t : State, s.Inv → step s = .next t → t.Inv

/-- The invariant holds right after reset (the reset state is the model's choice, log entry 1). -/
def Obligations.InvariantAtReset : Prop := State.reset.Inv

/-- Every step keeps each written control-store word readable, its parity bit right, and lists no cell of any other word:
a word once written never fails its parity check (R66, R331). -/
def Obligations.StepKeepsParityGood : Prop :=
  ∀ s t : State, s.store.parityGood → step s = .next t →
    t.store.parityGood ∧ ∀ a : Addr, (s.memRead a).isSome = true → (t.memRead a).isSome = true

/-- Right after reset everything is zero and nothing is pending: the spec gives no value, these are the model's (DESIGN
CHOICE, log entries 1 and 2). No control-store word can be read. -/
def Obligations.ResetLeaves : Prop :=
  (∀ r, State.reset.readReg r = 0#32) ∧ (∀ a, State.reset.memRead a = none) ∧ State.reset.busy = false ∧
  State.reset.parityError = false ∧ State.reset.timeout = false ∧ State.reset.timeoutIrq = false ∧
  State.reset.access = .idle ∧ State.reset.phase = .ifetch

/-! ### Register 0 and the operands -/

/-- Reading register 0 gives its stored bits but for bit 24, which is BUSY: 1 exactly while an operation of the CPU is
outstanding. Other registers read as stored (R21, R30, R35). -/
def Obligations.RegisterZeroReadsBusy : Prop :=
  ∀ s : State,
    (∀ k, k < 32 → k ≠ 24 → (s.readReg 0#3).getLsbD k = (s.raw 0#3).getLsbD k) ∧
    ((s.readReg 0#3).getLsbD 24 = true ↔ s.pending ≠ .none) ∧
    (∀ r, r ≠ 0#3 → s.readReg r = s.raw r)

/-- The immediate of a right half, in its four forms (R128). -/
def Obligations.ExpandJustifiesAndFills : Prop :=
  ∀ imm : BitVec 16,
    expand (0#2 ++ imm) = 0#16 ++ imm ∧
    expand (1#2 ++ imm) = 0xFFFF#16 ++ imm ∧
    expand (2#2 ++ imm) = imm ++ 0#16 ∧
    expand (3#2 ++ imm) = imm ++ 0xFFFF#16

/-- The second operand: the expanded right half or a register, and in ARITHMETIC, when W is 1, the three bits BF/VAL as a
number from 0 to 7 (R160, R191). -/
def Obligations.SecondOperand : Prop :=
  ∀ (s : State) (bf : RegNo) (acf : Acf),
    s.operand2 true bf acf = expand acf ∧
    s.operand2 false bf acf = s.readReg bf ∧
    (∀ imm, (s.arithOperand imm true bf acf).toNat = bf.toNat) ∧
    (∀ imm, s.arithOperand imm false bf acf = s.operand2 imm bf acf)

/-! ### LOGICAL -/

/-- The sixteen LOGICAL microinstructions, on every operand form and register: bit by bit the function of the truth
table, the condition codes of the result without overflow (bit C is open), the right half run or omitted, nothing else
changed (R161 to R179, R36, R38). -/
def Obligations.LogicalComputes : Prop :=
  ∀ p ∈ ([(.logNotA, fun a _ => !a), (.logNand, fun a b => !(a && b)), (.logOrNA, fun a b => !a || b),
      (.logOnes, fun _ _ => true), (.logNor, fun a b => !(a || b)), (.logNotB, fun _ b => !b),
      (.logXnor, fun a b => a == b), (.logOrNB, fun a b => a || !b), (.logAndNA, fun a b => !a && b),
      (.logXor, fun a b => a != b), (.logTransfer, fun _ b => b), (.logOr, fun a b => a || b),
      (.logClear, fun _ _ => false), (.logAndNB, fun a b => a && !b), (.logAnd, fun a b => a && b),
      (.logTest, fun a _ => a)] : List ((Bool → RegNo → RegNo → Acf → Instr) × (Bool → Bool → Bool))),
    ∀ (imm : Bool) (bf af : RegNo) (acf : Acf) (s : State),
      ∃ (t : State) (res : Word), exec (p.1 imm bf af acf) s = .next t ∧
        (∀ k, k < 32 → res.getLsbD k = p.2 ((s.readReg af).getLsbD k) ((s.operand2 imm bf acf).getLsbD k)) ∧
        HoldsResult af res s t ∧ ShowsCodes t res False ∧ LeftFrame [0#3, af] imm acf s t

/-! ### ARITHMETIC -/

/-- SUB, SUBC, ADD and ADDC: the exact value modulo 2 to the 32 goes to x[AF], the condition codes tell carry and
overflow, nothing else changes (R192 to R196, R201, R202). -/
def Obligations.ArithmeticStores : Prop :=
  ∀ p ∈ ([(.sub, .sub), (.subc, .subc), (.add, .add), (.addc, .addc)] :
      List ((Bool → Bool → RegNo → RegNo → Acf → Instr) × AluFn)),
    ∀ (imm w : Bool) (bf af : RegNo) (acf : Acf) (s : State),
      ∃ (t : State) (res : Word), exec (p.1 imm w bf af acf) s = .next t ∧
        ArithmeticEffect p.2 (s.readReg af) (s.arithOperand imm w bf acf) s.carry res t ∧
        HoldsResult af res s t ∧ LeftFrame [0#3, af] imm acf s t

/-- CMP, CMPC, TADD and TADDC: the condition codes of the same four functions; no register but the condition codes of
register 0 changes (R197 to R200). -/
def Obligations.ArithmeticTests : Prop :=
  ∀ p ∈ ([(.cmp, .sub), (.cmpc, .subc), (.tadd, .add), (.taddc, .addc)] :
      List ((Bool → Bool → RegNo → RegNo → Acf → Instr) × AluFn)),
    ∀ (imm w : Bool) (bf af : RegNo) (acf : Acf) (s : State),
      ∃ (t : State) (res : Word), exec (p.1 imm w bf af acf) s = .next t ∧
        ArithmeticEffect p.2 (s.readReg af) (s.arithOperand imm w bf acf) s.carry res t ∧
        SameBelowCodes s t ∧ LeftFrame [0#3] imm acf s t

/-- After CMP without overflow CC compares the operands as signed numbers, and C compares them unsigned (R197). -/
def Obligations.CompareOrders : Prop :=
  ∀ (imm w : Bool) (bf af : RegNo) (acf : Acf) (s : State),
    ∃ t, exec (.cmp imm w bf af acf) s = .next t ∧
      (t.carry = true ↔ (s.arithOperand imm w bf acf).toNat ≤ (s.readReg af).toNat) ∧
      (t.resultClass ≠ 3#2 →
        (t.resultClass = 0#2 ↔ s.readReg af = s.arithOperand imm w bf acf) ∧
        (t.resultClass = 1#2 ↔ (s.readReg af).toInt < (s.arithOperand imm w bf acf).toInt) ∧
        (t.resultClass = 2#2 ↔ (s.arithOperand imm w bf acf).toInt < (s.readReg af).toInt)) ∧
      ∀ r, r ≠ 0#3 → t.raw r = s.raw r

/-! ### SHIFT/ROTATE -/

/-- ROL, SLL, SRL and SRA repeat their one-bit step as often as the amount says; no condition code is set, nothing else
changes (R212, R214 to R217). -/
def Obligations.SingleShiftRepeats : Prop :=
  ∀ p ∈ ([(.rol, .rol), (.sll, .sll), (.srl, .srl), (.sra, .sra)] :
      List ((Bool → Bool → RegNo → RegNo → Acf → Instr) × ShiftTy)),
    ∀ (imm w : Bool) (bf af : RegNo) (acf : Acf) (s : State),
      ∃ t, exec (p.1 imm w bf af acf) s = .next t ∧
        Gets af ((step32 p.2)^[s.shiftAmount imm w bf acf] (s.readReg af)) t ∧
        LeftFrame [af] imm acf s t

/-- DROL, DSLL, DSRL and DSRA do the same on the pair x[AF], x[AF with its lowest bit inverted], x[AF] high, whichever of
the two AF names (R213, R218 to R221). -/
def Obligations.DoubleShiftRepeats : Prop :=
  ∀ p ∈ ([(.drol, .rol), (.dsll, .sll), (.dsrl, .srl), (.dsra, .sra)] :
      List ((Bool → Bool → RegNo → RegNo → Acf → Instr) × ShiftTy)),
    ∀ (imm w : Bool) (bf af : RegNo) (acf : Acf) (s : State),
      ∃ t, exec (p.1 imm w bf af acf) s = .next t ∧
        HoldsPair af ((step64 p.2)^[s.shiftAmount imm w bf acf] (s.readReg af ++ s.readReg (af ^^^ 1#3))) t ∧
        LeftFrame [af, af ^^^ 1#3] imm acf s t

/-- The amount: VAL, 0 to 7, when W is 1, else the low bits of P, as many as SHIFT_COUNT_BITS says, 5 to 32; an amount
below 32 is P itself (R211; log entry 8). -/
def Obligations.ShiftAmountOf : Prop :=
  ∃ bits, 5 ≤ bits ∧ bits ≤ 32 ∧
    ∀ (s : State) (imm : Bool) (bf : RegNo) (acf : Acf),
      s.shiftAmount imm true bf acf = bf.toNat ∧
      s.shiftAmount imm false bf acf = (s.operand2 imm bf acf).toNat % 2 ^ bits ∧
      ((s.operand2 imm bf acf).toNat < 32 → s.shiftAmount imm false bf acf = (s.operand2 imm bf acf).toNat)

/-! ### EXTENDED -/

/-- TRANSFER copies a register and sets no condition code (R234). -/
def Obligations.TransferCopies : Prop :=
  ∀ (skip : Bool) (bf af : RegNo) (acf : Acf) (s : State),
    ∃ t, exec (.transfer skip bf af acf) s = .next t ∧
      Gets af (s.readReg bf) t ∧ LeftFrame [af] skip acf s t

/-- DIVSTEP subtracts the divisor if it fits, shifts the pair left and shifts the quotient bit in. The test is unsigned
`>=` where bit 31 of both operands is 0; elsewhere it is open and the step runs with either answer (R233; log entry 9). -/
def Obligations.DivStepDivides : Prop :=
  ∀ (skip : Bool) (bf af : RegNo) (acf : Acf) (s : State),
    ∃ (t : State) (fits : Bool) (pair : BitVec 64), exec (.divStep skip bf af acf) s = .next t ∧
      (((s.readReg af).toNat < 2 ^ 31 ∧ (s.readReg bf).toNat < 2 ^ 31) →
        (fits = true ↔ (s.readReg bf).toNat ≤ (s.readReg af).toNat)) ∧
      (pair.toNat : Int) = (((s.readReg af).toNat - (if fits then (s.readReg bf).toNat else 0) : Int) * 2 ^ 32 +
        (s.readReg (af ^^^ 1#3)).toNat) * 2 % 2 ^ 64 + fits.toNat ∧
      HoldsPair af pair t ∧ LeftFrame [af, af ^^^ 1#3] skip acf s t

/-- EXCESS6 puts 6 at every digit whose source digit exceeds 9; the other digits are all kept or all 0, the same way on
every use (R235; log entry 10). -/
def Obligations.Excess6Corrects : Prop :=
  ∃ keeps : Bool, ∀ (skip : Bool) (bf af : RegNo) (acf : Acf) (s : State),
    ∃ (t : State) (res : Word), exec (.excess6 skip bf af acf) s = .next t ∧
      (∀ d, d < 8 → res.extractLsb' (4 * d) 4 =
        if 9 < ((s.readReg bf).extractLsb' (4 * d) 4).toNat then 6#4
        else if keeps then (s.readReg af).extractLsb' (4 * d) 4 else 0#4) ∧
      Gets af res t ∧ LeftFrame [af] skip acf s t

/-- MULSTEP: with the overflow of the step before undone, the pair is halved, the multiplicand is added if the multiplier
bit was 1, and CC becomes Overflow exactly when that sum does not fit; otherwise CC leaves Overflow, or stays, or is that
of the word written where the pair takes in register 0, and no other code changes (R236, R237; log entry 7). -/
def Obligations.MulStepMultiplies : Prop :=
  ∀ (skip : Bool) (bf af : RegNo) (acf : Acf) (s : State),
    ∃ (t : State) (hi lo : Word) (exact whole : Int), exec (.mulStep skip bf af acf) s = .next t ∧
      whole = (if s.resultClass = 3#2 then
        (if (s.readReg af).toInt < 0 then (s.readReg af).toInt + 2 ^ 32 else (s.readReg af).toInt - 2 ^ 32)
        else (s.readReg af).toInt) ∧
      exact = whole / 2 + (if (s.readReg (af ^^^ 1#3)).getLsbD 0 then (s.readReg bf).toInt else 0) ∧
      hi = BitVec.ofInt 32 exact ∧
      lo.toNat = (s.readReg (af ^^^ 1#3)).toNat / 2 + (s.readReg af).toNat % 2 * 2 ^ 31 ∧
      (∀ r, r ≠ 0#3 → t.raw r = if r = af then hi else if r = af ^^^ 1#3 then lo else s.raw r) ∧
      (t.raw 0#3).extractLsb' 0 30 =
        (if af = 0#3 then stored 0#3 hi else if af ^^^ 1#3 = 0#3 then stored 0#3 lo else s.raw 0#3).extractLsb' 0 30 ∧
      (outOfRange exact → t.resultClass = 3#2) ∧
      (¬ outOfRange exact → s.resultClass = 3#2 → t.resultClass ≠ 3#2) ∧
      (¬ outOfRange exact → s.resultClass ≠ 3#2 → t.resultClass =
        (if af = 0#3 then hi else if af ^^^ 1#3 = 0#3 then lo else s.raw 0#3).extractLsb' 30 2) ∧
      LeftFrame [0#3, af, af ^^^ 1#3] skip acf s t

/-! ### EXTRACT and INSERT -/

/-- EXTRACT: the source rotated left by POS, under the mask; the right half is omitted, no code is set (R251). -/
def Obligations.ExtractMasks : Prop :=
  ∀ (pos : BitVec 5) (bf af : RegNo) (acf : Acf) (s : State),
    ∃ (t : State) (res : Word), exec (.extract pos bf af acf) s = .next t ∧
      (∀ k, k < 32 → res.getLsbD k =
        ((s.readReg bf).getLsbD ((k + 32 - pos.toNat) % 32) && (expand acf).getLsbD k)) ∧
      Gets af res t ∧ LeftFrame [af] true acf s t

/-- INSERT: the rotated source where the mask is 1, the old bit where it is 0; the right half is omitted, no code is set
(R252). -/
def Obligations.InsertMerges : Prop :=
  ∀ (pos : BitVec 5) (bf af : RegNo) (acf : Acf) (s : State),
    ∃ (t : State) (res : Word), exec (.insert pos bf af acf) s = .next t ∧
      (∀ k, k < 32 → res.getLsbD k =
        if (expand acf).getLsbD k then (s.readReg bf).getLsbD ((k + 32 - pos.toNat) % 32)
        else (s.readReg af).getLsbD k) ∧
      Gets af res t ∧ LeftFrame [af] true acf s t

/-! ### CONDITIONAL and BRANCH -/

/-- The code test, in the four senses of its table: any selected code set, any not set, all not set, all set; the leftmost
mask bit selects the leftmost code (R260, R262; log entry 29). -/
def Obligations.CodeTestSenses : Prop :=
  ∀ (s : State) (mask : BitVec 8) (sel : Bool),
    (s.codeTest mask false false sel = true ↔ ∃ k, k < 8 ∧ mask.getLsbD k = true ∧ codeBit s sel k = true) ∧
    (s.codeTest mask false true sel = true ↔ ∃ k, k < 8 ∧ mask.getLsbD k = true ∧ codeBit s sel k = false) ∧
    (s.codeTest mask true false sel = true ↔ ∀ k, k < 8 → mask.getLsbD k = true → codeBit s sel k = false) ∧
    (s.codeTest mask true true sel = true ↔ ∀ k, k < 8 → mask.getLsbD k = true → codeBit s sel k = true)

/-- CONDITIONAL omits the right half if the code test is true, runs it if it is false, and writes nothing (R261). -/
def Obligations.ConditionalSkips : Prop :=
  ∀ (cmask : BitVec 8) (v c sel : Bool) (acf : Acf) (s : State),
    ∃ t, exec (.conditional cmask v c sel acf) s = .next t ∧ LeftFrame [] (s.codeTest cmask v c sel) acf s t

/-- BRANCH adds the sign-extended VAL to MAR if the code test is true, and changes nothing else (R321). That the sum is
taken modulo 4096 and leaves bits 31-12 is decision D2 (log entry 27), the pairing of mask and code bits in the test is D7
(log entry 29). -/
def Obligations.BranchMovesMar : Prop :=
  ∀ (bmask : BitVec 8) (v c sel : Bool) (val : BitVec 4) (s : State),
    ∃ t, exec (.branch bmask v c sel val) s = .next t ∧
      (t.mar.toNat : Int) = ((s.mar.toNat : Int) + if s.codeTest bmask v c sel then val.toInt else 0) % 4096 ∧
      SameAboveMar s t ∧ RightFrame [0#3] s t

/-! ### STORE, LOAD, LOADI -/

/-- STORE writes the whole word, register 0 with live BUSY, into word ADR, and nothing else (R271). -/
def Obligations.StoreWritesWord : Prop :=
  ∀ (cf : RegNo) (adr : Addr) (s : State),
    ∃ t, exec (.store cf adr) s = .next t ∧
      t.memRead adr = some (s.readReg cf) ∧ SameStoreExcept adr s t ∧
      SameRegsExcept [] s t ∧ SameBus s t ∧ SameOutside s t ∧ t.phase = .ifetch

/-- LOAD puts word ADR into x[CF], all fields of register 0 if CF is 0, when the word passes its parity check (R272). -/
def Obligations.LoadReadsWord : Prop :=
  ∀ (cf : RegNo) (adr : Addr) (w : Word) (s : State), s.memRead adr = some w →
    ∃ t, exec (.load cf adr) s = .next t ∧ t.raw cf = stored cf w ∧ RightFrame [cf] s t

/-- LOADI puts the sign-extended ADR into x[CF] (R273). -/
def Obligations.LoadImmediateExtends : Prop :=
  ∀ (cf : RegNo) (adr : Addr) (s : State),
    ∃ (t : State) (w : Word), exec (.loadi cf adr) s = .next t ∧
      w.toInt = adr.toInt ∧ Gets cf w t ∧ RightFrame [cf] s t

/-- A data read that fails its parity check takes the parity fault: LOAD, IA.RM, and IA.XM when no operation is
outstanding, before it sends its address (R283, R331; log entry 4). -/
def Obligations.DataReadOfBadWordHalts : Prop :=
  ∀ s : State, s.phase ≠ .stuck →
    (∀ (cf : RegNo) (adr : Addr), s.memRead adr = none → ∃ t, exec (.load cf adr) s = .next t ∧ ParityHalt s t) ∧
    (∀ (cf df : RegNo) (ef : BitVec 2) (val : BitVec 4), s.memRead ((s.readReg df).extractLsb' 0 12) = none →
      (∃ t, exec (.iaRM cf df ef val) s = .next t ∧ ParityHalt s t) ∧
      (s.busy = false →
        ∃ t, exec (.iaXM cf df ef val) s = .next t ∧ ParityHalt s t))

/-! ### POINTER MODIFICATION -/

/-- PM.INC, PM.DEC and PM.ADD: the result goes to x[CF]; if its sign is one the loop specification asks for, VAL is added
to MAR, which is a part of the result where CF is 0; no condition code is set (R311 to R314, R318). -/
def Obligations.PointerModificationLoops : Prop :=
  ∀ p ∈ ([(.pmInc, fun c _ => c + 1#32), (.pmDec, fun c _ => c - 1#32), (.pmAdd, fun c d => c + d)] :
      List ((RegNo → RegNo → BitVec 3 → BitVec 4 → Instr) × (Word → Word → Word))),
    ∀ (cf df : RegNo) (xop : BitVec 3) (val : BitVec 4) (s : State),
      let r := p.2 (s.readReg cf) (s.readReg df)
      let zero := if cf = 0#3 then stored 0#3 r else s.raw 0#3
      ∃ t, exec (p.1 cf df xop val) s = .next t ∧ (cf ≠ 0#3 → t.raw cf = r) ∧
        (Loops xop r → t.mar = zero.extractLsb' 0 12 + val.signExtend 12) ∧
        (¬ Loops xop r → t.mar = zero.extractLsb' 0 12) ∧
        (t.raw 0#3).extractLsb' 12 20 = zero.extractLsb' 12 20 ∧ RightFrame [0#3, cf] s t

/-- PM.SUB1 in the same way, with x[CF] minus x[DF] minus 1; so, without overflow, it loops on "not negative" exactly when
x[CF] exceeds x[DF] (R315, R317; log entry 11). -/
def Obligations.PointerSubtractionLoops : Prop :=
  ∀ (cf df : RegNo) (xop : BitVec 3) (val : BitVec 4) (s : State),
    let r := BitVec.ofInt 32 ((s.readReg cf).toInt - (s.readReg df).toInt - 1)
    let zero := if cf = 0#3 then stored 0#3 r else s.raw 0#3
    ∃ t, exec (.pmSub1 cf df xop val) s = .next t ∧ (cf ≠ 0#3 → t.raw cf = r) ∧
      (Loops xop r → t.mar = zero.extractLsb' 0 12 + val.signExtend 12) ∧
      (¬ Loops xop r → t.mar = zero.extractLsb' 0 12) ∧
      (t.raw 0#3).extractLsb' 12 20 = zero.extractLsb' 12 20 ∧ RightFrame [0#3, cf] s t ∧
      (¬ outOfRange ((s.readReg cf).toInt - (s.readReg df).toInt - 1) →
        (Loops 3#3 r ↔ (s.readReg df).toInt < (s.readReg cf).toInt))

/-! ### INDIRECT ACCESS inside the CPU -/

/-- IA.RR copies a register, IA.RM loads through a pointer; then the pointers are modified, DF first, each as it then
stands (R281, R283, R288, R290; log entry 31). -/
def Obligations.IndirectLoads : Prop :=
  ∀ (cf df : RegNo) (ef : BitVec 2) (val : BitVec 4) (s : State),
    (∃ t, exec (.iaRR cf df ef val) s = .next t ∧
      (∀ r, t.raw r = modifiedRegs s.busy cf df ef val
        (Function.update s.raw cf (stored cf (s.readReg df))) r) ∧
      RightFrame [cf, df] s t) ∧
    (∀ w, s.memRead ((s.readReg df).extractLsb' 0 12) = some w →
      ∃ t, exec (.iaRM cf df ef val) s = .next t ∧
        (∀ r, t.raw r = modifiedRegs s.busy cf df ef val (Function.update s.raw cf (stored cf w)) r) ∧
        RightFrame [cf, df] s t)

/-- IA.MR stores x[DF] into the word that bits 11-0 of x[CF] address, and nothing else of the store; then the pointers are
modified (R281, R283, R289, R292). -/
def Obligations.IndirectStores : Prop :=
  ∀ (cf df : RegNo) (ef : BitVec 2) (val : BitVec 4) (s : State),
    ∃ t, exec (.iaMR cf df ef val) s = .next t ∧
      (∀ a : Addr, a = (s.readReg cf).extractLsb' 0 12 →
        t.memRead a = some (s.readReg df) ∧ SameStoreExcept a s t) ∧
      (∀ r, t.raw r = modifiedRegs s.busy cf df ef val s.raw r) ∧
      SameBus s t ∧ SameOutside s t ∧ t.phase = .ifetch

/-! ### INDIRECT ACCESS over the bus -/

/-- IA.RX and IA.MX, when no operation is outstanding, the bus is won and the CPU does not address itself: a read is
outstanding whose address word is x[DF] with bit 24 zero and whose destination is fixed now; BUSY is 1; the pointers are
modified, no data has arrived (R73, R74, R284, R285, R296; that the bus is won in states 0 and 2 is log entry 15). -/
def Obligations.BusReadIssues : Prop :=
  ∀ (cf df : RegNo) (ef : BitVec 2) (val : BitVec 4) (s : State),
    s.busy = false → s.access = .idle ∨ s.access = .using → (s.readReg df).extractLsb' 16 8 ≠ 0xFF#8 →
    ∀ p ∈ ([(.iaRX, .reg cf), (.iaMX, .mem ((s.readReg cf).extractLsb' 0 12))] :
        List ((RegNo → RegNo → BitVec 2 → BitVec 4 → Instr) × Dest)),
      ∃ (t : State) (aw : Word), exec (p.1 cf df ef val) s = .next t ∧
        (∀ k, k < 32 → aw.getLsbD k = if k = 24 then false else (s.readReg df).getLsbD k) ∧
        t.pending = .read aw p.2 ∧ t.access = .using ∧
        (∀ r, t.raw r = modifiedRegs true cf df ef val s.raw r) ∧
        SameStore s t ∧ SameOutside s t ∧ t.phase = .ifetch

/-- IA.XR and IA.XM, when no operation is outstanding, the bus is won and the CPU does not address itself: a write is
outstanding whose address word is x[CF] with bit 24 one and whose data is x[DF], or the control-store word that x[DF]
addresses, as it is now; the pointers are then modified (R73, R75, R286, R287; that the bus is won in states 0 and 2 is log
entry 15). -/
def Obligations.BusWriteIssues : Prop :=
  ∀ (cf df : RegNo) (ef : BitVec 2) (val : BitVec 4) (s : State),
    s.busy = false → s.access = .idle ∨ s.access = .using → (s.readReg cf).extractLsb' 16 8 ≠ 0xFF#8 →
    ∀ data, ∀ p ∈ ([(.iaXR, some (s.readReg df)), (.iaXM, s.memRead ((s.readReg df).extractLsb' 0 12))] :
        List ((RegNo → RegNo → BitVec 2 → BitVec 4 → Instr) × Option Word)), p.2 = some data →
      ∃ (t : State) (aw : Word), exec (p.1 cf df ef val) s = .next t ∧
        (∀ k, k < 32 → aw.getLsbD k = if k = 24 then true else (s.readReg cf).getLsbD k) ∧
        t.pending = .write aw data ∧ t.access = .using ∧
        (∀ r, t.raw r = modifiedRegs true cf df ef val s.raw r) ∧
        SameStore s t ∧ SameOutside s t ∧ t.phase = .ifetch

/-- A bus form waits. While an operation is outstanding it changes nothing and has read nothing (R77, R295). When none is
but the bus is not won, it keeps what it has read: address word, destination or data (R76, R283). At a later turn of the
CPU, alone or among other agents, the address is accepted and the pointers are modified as they then stand, or the CPU
waits on (R74 to R76; that the turn finds the bus won in the states 0 and 2 of the access controller is log entry 15). -/
def Obligations.BusFormWaits : Prop :=
  (∀ (cf df : RegNo) (ef : BitVec 2) (val : BitVec 4) (s : State), s.busy = true →
    exec (.iaMX cf df ef val) s = .next s ∧ exec (.iaRX cf df ef val) s = .next s ∧
    exec (.iaXR cf df ef val) s = .next s ∧ exec (.iaXM cf df ef val) s = .next s) ∧
  (∀ (cf df : RegNo) (ef : BitVec 2) (val : BitVec 4) (s : State),
    s.busy = false → s.access ≠ .idle → s.access ≠ .using → ∃ ar aw : Word,
    (∀ k, k < 32 → ar.getLsbD k = if k = 24 then false else (s.readReg df).getLsbD k) ∧
    (∀ k, k < 32 → aw.getLsbD k = if k = 24 then true else (s.readReg cf).getLsbD k) ∧
    ((s.readReg df).extractLsb' 16 8 ≠ 0xFF#8 →
      exec (.iaRX cf df ef val) s = .next (s.keepSending ⟨.read ar (.reg cf), cf, df, ef, val⟩) ∧
      exec (.iaMX cf df ef val) s =
        .next (s.keepSending ⟨.read ar (.mem ((s.readReg cf).extractLsb' 0 12)), cf, df, ef, val⟩)) ∧
    ((s.readReg cf).extractLsb' 16 8 ≠ 0xFF#8 →
      exec (.iaXR cf df ef val) s = .next (s.keepSending ⟨.write aw (s.readReg df), cf, df, ef, val⟩) ∧
      ∀ data, s.memRead ((s.readReg df).extractLsb' 0 12) = some data →
        exec (.iaXM cf df ef val) s = .next (s.keepSending ⟨.write aw data, cf, df, ef, val⟩))) ∧
  (∀ (s : State) (x : Sending) (rest : List Act), s.phase = .sending x → x.op ≠ .none → CpuTurn s rest →
    (s.busy = false → s.access = .idle ∨ s.access = .using →
      ∃ t, step s = .next t ∧ t.pending = x.op ∧ t.access = .using ∧
        (∀ r, t.raw r = modifiedRegs true x.cf x.df x.ef x.val s.raw r) ∧
        SameStore s t ∧ SameOutside (s.withSchedule rest) t ∧ t.phase = .ifetch) ∧
    (s.busy = true ∨ (s.access ≠ .idle ∧ s.access ≠ .using) → step s = .next (s.withSchedule rest)))

/-- A bus form that addresses the CPU's own unit FF is refused, as the spec asks (R81; log entry 17). -/
def Obligations.SelfAddressRefused : Prop :=
  ∀ (cf df : RegNo) (ef : BitVec 2) (val : BitVec 4) (s : State), s.busy = false →
    ((s.readReg df).extractLsb' 16 8 = 0xFF#8 →
      exec (.iaMX cf df ef val) s = .refused .selfAddress ∧ exec (.iaRX cf df ef val) s = .refused .selfAddress) ∧
    ((s.readReg cf).extractLsb' 16 8 = 0xFF#8 →
      exec (.iaXR cf df ef val) s = .refused .selfAddress ∧
      ((s.memRead ((s.readReg df).extractLsb' 0 12)).isSome = true →
        exec (.iaXM cf df ef val) s = .refused .selfAddress))

/-- The completion of an outstanding operation: a read's data goes to its destination, a write's data to the slave, BUSY
becomes 0, the access controller goes to state 0, no condition code is set and no latch changes (R79, R102). The record of
the transfer is log entry 25; that a completion with nothing outstanding changes nothing is the model's choice, log
entry 21. -/
def Obligations.CompletionDelivers : Prop :=
  ∀ (s : State) (d : Word) (rest : List Act), s.schedule = .complete d :: rest → s.phase ≠ .stuck →
    ∃ t, step s = .next t ∧ t.schedule = rest ∧ t.busy = false ∧ t.phase = s.phase ∧
      t.parityError = s.parityError ∧ t.timeout = s.timeout ∧ t.timeoutIrq = s.timeoutIrq ∧
      (s.pending ≠ .none → t.access = .idle) ∧
      (∀ aw r, s.pending = .read aw (.reg r) →
        t.raw r = stored r d ∧ SameRegsExcept [r] s t ∧ SameStore s t ∧ t.busLog = .cpuRead aw d :: s.busLog) ∧
      (∀ aw a, s.pending = .read aw (.mem a) →
        t.memRead a = some d ∧ SameStoreExcept a s t ∧ SameRegsExcept [] s t ∧ t.busLog = .cpuRead aw d :: s.busLog) ∧
      (∀ aw v, s.pending = .write aw v →
        SameRegsExcept [] s t ∧ SameStore s t ∧ t.busLog = .cpuWrite aw v :: s.busLog) ∧
      (s.pending = .none → t = s.withSchedule rest)

/-- No answer to the CPU's own access: the TIMEOUT latch is set, the interrupt is owed, and the CPU is stuck: its turns,
completions and interrupts have no effect (R80, R333; log entry 16). The CPU holds the bus while its operation is
outstanding, and in state 2 of its access controller while it sends an address (R76, R102, R108); where it does not, the
act has no effect (log entry 16); a second time-out is refused (D23, log entry 20). -/
def Obligations.NoAnswerSticks : Prop :=
  ∀ s : State,
    (s.holdsBus = true ↔ s.pending ≠ .none ∨ ((∃ x, s.phase = .sending x) ∧ s.access = .using)) ∧
    (∀ rest, s.schedule = .noAnswer :: rest → s.holdsBus = true → s.phase ≠ .stuck →
      (s.timeout = false → ∃ t, step s = .next t ∧ t.phase = .stuck ∧ t.timeout = true ∧ t.timeoutIrq = true ∧
        t.schedule = rest ∧ t.pending = s.pending ∧ t.access = .using ∧ t.parityError = s.parityError ∧
        SameRegsExcept [] s t ∧ SameStore s t) ∧
      (s.timeout = true → step s = .refused .secondTimeout)) ∧
    (∀ rest, s.schedule = .noAnswer :: rest → s.holdsBus = false ∨ s.phase = .stuck →
      step s = .next (s.withSchedule rest)) ∧
    (s.phase = .stuck → s.schedule = [] → step s = .next s) ∧
    (∀ a rest, s.phase = .stuck → s.schedule = a :: rest →
      (a = .cpu ∨ (∃ d, a = .complete d) ∨ (∃ v, a = .interrupt v)) → step s = .next (s.withSchedule rest))

/-- The CPU's access controller. REQ is 1 while the A-machine is at a bus form or sends its address, class 101 with XOP
bit 2 clear (R73, R100; that it is 1 before the operands are read is log entry 39). A line that the controller sees moves
it and nothing else, and it stays master while an operation is outstanding or the CPU is stuck (R102, R108). It goes from
0 over 1 to 2 and back; rejected, it passes through its six waiting states, in none of which it is master or may become so,
and is idle after three cycles (R102, R103). -/
def Obligations.RejectWaitsThreeCycles : Prop :=
  (∀ (s : State) (sig : AccessSignal) (rest : List Act), s.schedule = .access sig :: rest →
    ∃ t, step s = .next t ∧
      (s.busy = true ∨ s.phase = .stuck → t.access = s.access) ∧
      (s.busy = false → s.phase ≠ .stuck → t.access = AccessState.next s.wantsBus s.access sig) ∧
      t.pending = s.pending ∧ SameOutside (s.withSchedule rest) t ∧ Untouched s t) ∧
  (∀ s : State, s.wantsBus = true ↔
    (∃ acf, s.phase = .aSeq acf ∧ acf.extractLsb' 15 3 = 5#3 ∧ acf.getLsbD 6 = false) ∨ ∃ x, s.phase = .sending x) ∧
  AccessState.next true .idle .busClk = .requesting ∧
  AccessState.next false .idle .busClk = .idle ∧
  (∀ sig, sig ≠ .reject → AccessState.next true .using sig = .using ∧ AccessState.next false .using sig = .idle) ∧
  ∀ req : Bool,
    AccessState.next req .requesting .available = .using ∧
    AccessState.next req .requesting .crej = .idle ∧
    AccessState.next req .using .reject = .wait3 ∧
    (∀ a : AccessState, a.rejectWait = true → ∀ sig, AccessState.next req a sig ≠ .using ∧
      AccessState.next req a sig ≠ .requesting) ∧
    [.reject, .busClk, .crej, .busClk, .crej, .busClk, .crej].foldl (AccessState.next req) .using = .idle ∧
    (∀ sigs : List AccessSignal, sigs.length < 6 → (sigs.foldl (AccessState.next req) .wait3).rejectWait = true)

/-! ### Interrupts -/

/-- An interrupt before an IFETCH, running or halted, stores register 0 in the odd word of its pair and loads register 0
from the even word; no other register, no other word and no other latch changes (R351 to R353). -/
def Obligations.InterruptExchanges : Prop :=
  ∀ (s : State) (v w : Word) (rest : List Act),
    s.schedule = .interrupt v :: rest → s.phase = .ifetch → v.getLsbD 0 = false →
    s.memRead (v.extractLsb' 0 12) = some w →
    ∃ t, step s = .next t ∧
      t.memRead (v.extractLsb' 0 12 + 1#12) = some (s.readReg 0#3) ∧
      SameStoreExcept (v.extractLsb' 0 12 + 1#12) s t ∧
      t.raw 0#3 = stored 0#3 w ∧ SameRegsExcept [0#3] s t ∧ SameBus s t ∧
      SameOutside (s.withSchedule rest) t ∧ t.phase = .ifetch

/-- An interrupt whose even word fails its parity check takes the parity fault after the odd word is written (R331,
R353). That the other words and the bus controller stay as they are is the model's choice, log entry 4. -/
def Obligations.InterruptThroughBadWordHalts : Prop :=
  ∀ (s : State) (v : Word) (rest : List Act),
    s.schedule = .interrupt v :: rest → s.phase = .ifetch → v.getLsbD 0 = false →
    s.memRead (v.extractLsb' 0 12) = none →
    ∃ t, step s = .next t ∧ t.parityError = true ∧ t.halted = true ∧ t.phase = .ifetch ∧ t.schedule = rest ∧
      t.memRead (v.extractLsb' 0 12 + 1#12) = some (s.readReg 0#3) ∧
      SameStoreExcept (v.extractLsb' 0 12 + 1#12) s t ∧ SameBus s t

/-- Inside a microinstruction an interrupt waits: the CPU goes on, the act stays first. A vector with an odd address is
refused, as the spec asks (R351, R352; log entries 20 and 21). -/
def Obligations.InterruptWaitsOrIsRefused : Prop :=
  ∀ (s : State) (v : Word) (rest : List Act), s.schedule = .interrupt v :: rest →
    (∀ acf, s.phase = .aSeq acf → step s = exec (decodeA acf) s) ∧
    (∀ x, s.phase = .sending x → step s = .next (s.sendAddress x)) ∧
    (s.phase = .ifetch → v.getLsbD 0 = true → step s = .refused .oddVector)

/-- A LOAD of register 0 from the odd word returns from the handler: every bit of register 0 but BUSY is what it was when
the interrupt was taken (R272, R353, R356). -/
def Obligations.ReturnRestoresState : Prop :=
  ∀ (s : State) (v w : Word) (rest : List Act),
    s.schedule = .interrupt v :: rest → s.phase = .ifetch → v.getLsbD 0 = false →
    s.memRead (v.extractLsb' 0 12) = some w →
    ∃ t u, step s = .next t ∧ exec (.load 0#3 (v.extractLsb' 0 12 + 1#12)) t = .next u ∧
      (∀ k, k ≠ 24 → (u.raw 0#3).getLsbD k = (s.raw 0#3).getLsbD k) ∧ SameRegsExcept [0#3] s u

/-- The bus time-out sets the TIMEOUT latch and owes one interrupt; a second one before MASTER CLEAR is not defined and is
refused (R333, D23; log entry 20); that it may fall while the CPU itself is bus master is log entry 38. The CPU takes the
owed interrupt at its turn before an IFETCH, alone or among other agents, running or halted and whatever the I bit is,
through the words 04C and 04D, and the latch stays (R333, R358; log entry 22). Where the word 04C fails its parity check the
CPU takes the parity fault; what then stays is log entry 4, and that the interrupt is still owed log entry 36. -/
def Obligations.TimeoutInterrupts : Prop :=
  (∀ (s : State) (rest : List Act), s.schedule = .busTimeout :: rest → s.timeout = false →
    ∃ t, step s = .next t ∧ t.timeout = true ∧ t.timeoutIrq = true ∧ t.parityError = s.parityError ∧
      t.schedule = rest ∧ Untouched s t ∧ SameBus s t) ∧
  (∀ (s : State) (rest : List Act), s.schedule = .busTimeout :: rest → s.timeout = true →
    step s = .refused .secondTimeout) ∧
  (∀ (s : State) (rest : List Act), CpuTurn s rest → s.phase = .ifetch → s.timeoutIrq = true →
    (∀ w, s.memRead 0x04C#12 = some w →
      ∃ t, step s = .next t ∧ t.memRead 0x04D#12 = some (s.readReg 0#3) ∧ SameStoreExcept 0x04D#12 s t ∧
        t.raw 0#3 = stored 0#3 w ∧ SameRegsExcept [0#3] s t ∧ SameBus s t ∧ t.phase = .ifetch ∧
        t.timeoutIrq = false ∧ t.timeout = s.timeout ∧ t.parityError = s.parityError ∧ t.schedule = rest ∧
        t.busLog = s.busLog) ∧
    (s.memRead 0x04C#12 = none →
      ∃ t, step s = .next t ∧ t.parityError = true ∧ t.halted = true ∧ t.phase = .ifetch ∧
        t.memRead 0x04D#12 = some (s.readReg 0#3) ∧ SameStoreExcept 0x04D#12 s t ∧ SameBus s t ∧
        t.timeoutIrq = true ∧ t.timeout = s.timeout ∧ t.schedule = rest ∧ t.busLog = s.busLog))

/-! ### Reserved encodings -/

/-- The five reserved encodings have no meaning and no trap: each is refused under its own name (R140, R231, R291; log
entry 18). -/
def Obligations.ReservedEncodingsRefused : Prop :=
  ∀ s : State,
    (∀ rest, exec (.tSpare rest) s = .refused .spareLeft) ∧
    (∀ rest, exec (.aSpare1 rest) s = .refused .spareRight1) ∧
    (∀ rest, exec (.aSpare2 rest) s = .refused .spareRight2) ∧
    (∀ skip op bf af acf, exec (.extUnassigned skip op bf af acf) s = .refused .unassignedExtended) ∧
    (∀ cf df ef val, exec (.iaUnassigned cf df ef val) s = .refused .unassignedIndirect)

/-! ### The direct lines, slave accesses -/

/-- PARITY RESET clears the latch and changes nothing else (R345). -/
def Obligations.ParityResetClears : Prop :=
  ∀ (s : State) (rest : List Act), s.schedule = .parityReset :: rest →
    step s = .next { s with schedule := rest, parityError := false }

/-- RUN clears H, and HALT/STEP sets it in a CPU that is running or inside a microinstruction; each changes nothing else
(R342, R343; log entries 23 and 28). -/
def Obligations.RunAndHaltLines : Prop :=
  ∀ (s : State) (rest : List Act),
    (s.schedule = .run :: rest → ∃ t, step s = .next t ∧ t.halted = false ∧
      (∀ k, k ≠ 15 → (t.raw 0#3).getLsbD k = (s.raw 0#3).getLsbD k) ∧ SameRegsExcept [0#3] s t ∧ SameStore s t ∧
      SameBus s t ∧ t.phase = s.phase ∧ SameOutside (s.withSchedule rest) t) ∧
    (s.schedule = .haltStep :: rest → s.halted = false ∨ s.phase ≠ .ifetch → ∃ t, step s = .next t ∧ t.halted = true ∧
      (∀ k, k ≠ 15 → (t.raw 0#3).getLsbD k = (s.raw 0#3).getLsbD k) ∧ SameRegsExcept [0#3] s t ∧ SameStore s t ∧
      SameBus s t ∧ t.phase = s.phase ∧ SameOutside (s.withSchedule rest) t)

/-- HALT/STEP makes a halted CPU execute one microinstruction: its left half now, its right half, where it is not omitted,
at the CPU's next turn, alone or among other agents (R344; log entry 23). -/
def Obligations.SingleStepRuns : Prop :=
  ∀ (s : State) (w : Word) (rest : List Act),
    s.schedule = .haltStep :: rest → s.phase = .ifetch → s.halted = true → s.memRead s.mar = some w →
    step s = exec (decodeT w) (s.withSchedule rest).incMar ∧
    ∀ t acf, step s = .next t → t.phase = .aSeq acf →
      (t.schedule = [] → step t = exec (decodeA acf) t) ∧
      (∀ rest', t.schedule = .cpu :: rest' → step t = exec (decodeA acf) (t.withSchedule rest'))

/-- MASTER CLEAR drops the outstanding operation, puts the access controller in state 0, clears the time-out latch and
the owed interrupt and releases a waiting or stuck CPU; the control store and PARITY ERROR stay (R104, R334, R381; what
the registers hold is open, log entry 24). -/
def Obligations.MasterClearInitializes : Prop :=
  ∀ (s : State) (rest : List Act), s.schedule = .masterClear :: rest →
    ∃ t, step s = .next t ∧ t.pending = .none ∧ t.busy = false ∧ t.access = .idle ∧ t.timeout = false ∧
      t.timeoutIrq = false ∧ t.phase = .ifetch ∧ SameStore s t ∧ t.parityError = s.parityError ∧ t.schedule = rest ∧
      t.busLog = s.busLog

/-- The status lines show H, the two latches and I (R96). -/
def Obligations.StatusLinesShow : Prop :=
  ∀ s : State, s.statusLines =
    { runHalt := (s.readReg 0#3).getLsbD 15, parityError := s.parityError, timeout := s.timeout,
      interrupt := (s.readReg 0#3).getLsbD 14 }

/-- A master's access with bit 24 of its address word 0 reads a control-store word at FF0000 to FF0FFF and a register at
FF1000 to FF1007, register 0 with live BUSY, and changes nothing; an address of unit FF above is refused; another unit's
address is not the CPU's (R71, R72, R82, R94; log entry 19). A bad word halts the CPU (R331); that the control store and
the bus controller then stay is the model's choice, log entry 4, and the record of the data given is log entry 25. -/
def Obligations.SlaveReadAnswers : Prop :=
  ∀ (s : State) (aw v : Word) (rest : List Act), s.schedule = .slaveAccess aw v :: rest → aw.getLsbD 24 = false →
    (aw.extractLsb' 16 8 = 0xFF#8 →
      (∀ (a : Addr) (w : Word), aw.extractLsb' 0 16 = 0#4 ++ a → s.memRead a = some w →
        step s = .next { s with schedule := rest, busLog := .slaveRead aw w :: s.busLog }) ∧
      (∀ a : Addr, aw.extractLsb' 0 16 = 0#4 ++ a → s.memRead a = none →
        ∃ t, step s = .next t ∧ t.parityError = true ∧ t.halted = true ∧ SameStore s t ∧ SameBus s t) ∧
      (∀ r : RegNo, aw.extractLsb' 0 16 = 0x0200#13 ++ r →
        step s = .next { s with schedule := rest, busLog := .slaveRead aw (s.readReg r) :: s.busLog }) ∧
      (0x1008 ≤ (aw.extractLsb' 0 16).toNat → step s = .refused (.unassignedUnitAddress aw))) ∧
    (aw.extractLsb' 16 8 ≠ 0xFF#8 → step s = .next (s.withSchedule rest))

/-- A master's access with bit 24 of its address word 1 writes a control-store word or a register in the same way, bit 24
of register 0 apart (R71, R72, R82, R94; log entry 19). -/
def Obligations.SlaveWriteStores : Prop :=
  ∀ (s : State) (aw v : Word) (rest : List Act), s.schedule = .slaveAccess aw v :: rest → aw.getLsbD 24 = true →
    (aw.extractLsb' 16 8 = 0xFF#8 →
      (∀ a : Addr, aw.extractLsb' 0 16 = 0#4 ++ a →
        ∃ t, step s = .next t ∧ t.memRead a = some v ∧ SameStoreExcept a s t ∧ SameRegsExcept [] s t ∧ SameBus s t ∧
          SameOutside (s.withSchedule rest) t ∧ t.phase = s.phase) ∧
      (∀ r : RegNo, aw.extractLsb' 0 16 = 0x0200#13 ++ r →
        ∃ t, step s = .next t ∧ t.raw r = stored r v ∧ SameRegsExcept [r] s t ∧ SameStore s t ∧ SameBus s t ∧
          SameOutside (s.withSchedule rest) t ∧ t.phase = s.phase) ∧
      (0x1008 ≤ (aw.extractLsb' 0 16).toNat → step s = .refused (.unassignedUnitAddress aw))) ∧
    (aw.extractLsb' 16 8 ≠ 0xFF#8 → step s = .next (s.withSchedule rest))
end

