-- ==== Sys2Proof/Laws/State.lean ====
section
/-! SUPPORT. One lemma per field and update of the state, so that no proof unfolds an update. -/

namespace Sys2Proof.Machine

variable (s : State)

@[simp] theorem State.setRaw_store (r : RegNo) (v : Word) : (s.setRaw r v).store = s.store := rfl
@[simp] theorem State.setRaw_pending (r : RegNo) (v : Word) : (s.setRaw r v).pending = s.pending := rfl
@[simp] theorem State.setRaw_access (r : RegNo) (v : Word) : (s.setRaw r v).access = s.access := rfl
@[simp] theorem State.setRaw_parityError (r : RegNo) (v : Word) : (s.setRaw r v).parityError = s.parityError := rfl
@[simp] theorem State.setRaw_timeout (r : RegNo) (v : Word) : (s.setRaw r v).timeout = s.timeout := rfl
@[simp] theorem State.setRaw_timeoutIrq (r : RegNo) (v : Word) : (s.setRaw r v).timeoutIrq = s.timeoutIrq := rfl
@[simp] theorem State.setRaw_phase (r : RegNo) (v : Word) : (s.setRaw r v).phase = s.phase := rfl
@[simp] theorem State.setRaw_schedule (r : RegNo) (v : Word) : (s.setRaw r v).schedule = s.schedule := rfl
@[simp] theorem State.setRaw_busLog (r : RegNo) (v : Word) : (s.setRaw r v).busLog = s.busLog := rfl
@[simp] theorem State.setRaw_draws (r : RegNo) (v : Word) : (s.setRaw r v).draws = s.draws := rfl
@[simp] theorem State.setRaw_busy (r : RegNo) (v : Word) : (s.setRaw r v).busy = s.busy := rfl
@[simp] theorem State.setRaw_busyBit (r : RegNo) (v : Word) : (s.setRaw r v).busyBit = s.busyBit := rfl
@[simp] theorem State.setRaw_byteAt (r : RegNo) (v : Word) (c : Nat) : (s.setRaw r v).byteAt c = s.byteAt c := rfl
@[simp] theorem State.setRaw_memRead (r : RegNo) (v : Word) (c : Addr) : (s.setRaw r v).memRead c = s.memRead c := rfl

@[simp] theorem State.writeReg_store (r : RegNo) (v : Word) : (s.writeReg r v).store = s.store := rfl
@[simp] theorem State.writeReg_pending (r : RegNo) (v : Word) : (s.writeReg r v).pending = s.pending := rfl
@[simp] theorem State.writeReg_access (r : RegNo) (v : Word) : (s.writeReg r v).access = s.access := rfl
@[simp] theorem State.writeReg_parityError (r : RegNo) (v : Word) : (s.writeReg r v).parityError = s.parityError := rfl
@[simp] theorem State.writeReg_timeout (r : RegNo) (v : Word) : (s.writeReg r v).timeout = s.timeout := rfl
@[simp] theorem State.writeReg_timeoutIrq (r : RegNo) (v : Word) : (s.writeReg r v).timeoutIrq = s.timeoutIrq := rfl
@[simp] theorem State.writeReg_phase (r : RegNo) (v : Word) : (s.writeReg r v).phase = s.phase := rfl
@[simp] theorem State.writeReg_schedule (r : RegNo) (v : Word) : (s.writeReg r v).schedule = s.schedule := rfl
@[simp] theorem State.writeReg_busLog (r : RegNo) (v : Word) : (s.writeReg r v).busLog = s.busLog := rfl
@[simp] theorem State.writeReg_draws (r : RegNo) (v : Word) : (s.writeReg r v).draws = s.draws := rfl
@[simp] theorem State.writeReg_busy (r : RegNo) (v : Word) : (s.writeReg r v).busy = s.busy := rfl
@[simp] theorem State.writeReg_busyBit (r : RegNo) (v : Word) : (s.writeReg r v).busyBit = s.busyBit := rfl
@[simp] theorem State.writeReg_byteAt (r : RegNo) (v : Word) (c : Nat) : (s.writeReg r v).byteAt c = s.byteAt c := rfl
@[simp] theorem State.writeReg_memRead (r : RegNo) (v : Word) (c : Addr) : (s.writeReg r v).memRead c = s.memRead c := rfl

@[simp] theorem State.setMar_store (m : Addr) : (s.setMar m).store = s.store := rfl
@[simp] theorem State.setMar_pending (m : Addr) : (s.setMar m).pending = s.pending := rfl
@[simp] theorem State.setMar_access (m : Addr) : (s.setMar m).access = s.access := rfl
@[simp] theorem State.setMar_parityError (m : Addr) : (s.setMar m).parityError = s.parityError := rfl
@[simp] theorem State.setMar_timeout (m : Addr) : (s.setMar m).timeout = s.timeout := rfl
@[simp] theorem State.setMar_timeoutIrq (m : Addr) : (s.setMar m).timeoutIrq = s.timeoutIrq := rfl
@[simp] theorem State.setMar_phase (m : Addr) : (s.setMar m).phase = s.phase := rfl
@[simp] theorem State.setMar_schedule (m : Addr) : (s.setMar m).schedule = s.schedule := rfl
@[simp] theorem State.setMar_busLog (m : Addr) : (s.setMar m).busLog = s.busLog := rfl
@[simp] theorem State.setMar_draws (m : Addr) : (s.setMar m).draws = s.draws := rfl
@[simp] theorem State.setMar_busy (m : Addr) : (s.setMar m).busy = s.busy := rfl
@[simp] theorem State.setMar_busyBit (m : Addr) : (s.setMar m).busyBit = s.busyBit := rfl
@[simp] theorem State.setMar_byteAt (m : Addr) (c : Nat) : (s.setMar m).byteAt c = s.byteAt c := rfl
@[simp] theorem State.setMar_memRead (m : Addr) (c : Addr) : (s.setMar m).memRead c = s.memRead c := rfl

@[simp] theorem State.branchBy_store (val : BitVec 4) : (s.branchBy val).store = s.store := rfl
@[simp] theorem State.branchBy_pending (val : BitVec 4) : (s.branchBy val).pending = s.pending := rfl
@[simp] theorem State.branchBy_access (val : BitVec 4) : (s.branchBy val).access = s.access := rfl
@[simp] theorem State.branchBy_parityError (val : BitVec 4) : (s.branchBy val).parityError = s.parityError := rfl
@[simp] theorem State.branchBy_timeout (val : BitVec 4) : (s.branchBy val).timeout = s.timeout := rfl
@[simp] theorem State.branchBy_timeoutIrq (val : BitVec 4) : (s.branchBy val).timeoutIrq = s.timeoutIrq := rfl
@[simp] theorem State.branchBy_phase (val : BitVec 4) : (s.branchBy val).phase = s.phase := rfl
@[simp] theorem State.branchBy_schedule (val : BitVec 4) : (s.branchBy val).schedule = s.schedule := rfl
@[simp] theorem State.branchBy_busLog (val : BitVec 4) : (s.branchBy val).busLog = s.busLog := rfl
@[simp] theorem State.branchBy_draws (val : BitVec 4) : (s.branchBy val).draws = s.draws := rfl
@[simp] theorem State.branchBy_busy (val : BitVec 4) : (s.branchBy val).busy = s.busy := rfl
@[simp] theorem State.branchBy_busyBit (val : BitVec 4) : (s.branchBy val).busyBit = s.busyBit := rfl
@[simp] theorem State.branchBy_byteAt (val : BitVec 4) (c : Nat) : (s.branchBy val).byteAt c = s.byteAt c := rfl
@[simp] theorem State.branchBy_memRead (val : BitVec 4) (c : Addr) : (s.branchBy val).memRead c = s.memRead c := rfl

@[simp] theorem State.setHalted_store (h : Bool) : (s.setHalted h).store = s.store := rfl
@[simp] theorem State.setHalted_pending (h : Bool) : (s.setHalted h).pending = s.pending := rfl
@[simp] theorem State.setHalted_access (h : Bool) : (s.setHalted h).access = s.access := rfl
@[simp] theorem State.setHalted_parityError (h : Bool) : (s.setHalted h).parityError = s.parityError := rfl
@[simp] theorem State.setHalted_timeout (h : Bool) : (s.setHalted h).timeout = s.timeout := rfl
@[simp] theorem State.setHalted_timeoutIrq (h : Bool) : (s.setHalted h).timeoutIrq = s.timeoutIrq := rfl
@[simp] theorem State.setHalted_phase (h : Bool) : (s.setHalted h).phase = s.phase := rfl
@[simp] theorem State.setHalted_schedule (h : Bool) : (s.setHalted h).schedule = s.schedule := rfl
@[simp] theorem State.setHalted_busLog (h : Bool) : (s.setHalted h).busLog = s.busLog := rfl
@[simp] theorem State.setHalted_draws (h : Bool) : (s.setHalted h).draws = s.draws := rfl
@[simp] theorem State.setHalted_busy (h : Bool) : (s.setHalted h).busy = s.busy := rfl
@[simp] theorem State.setHalted_busyBit (h : Bool) : (s.setHalted h).busyBit = s.busyBit := rfl
@[simp] theorem State.setHalted_byteAt (h : Bool) (c : Nat) : (s.setHalted h).byteAt c = s.byteAt c := rfl
@[simp] theorem State.setHalted_memRead (h : Bool) (c : Addr) : (s.setHalted h).memRead c = s.memRead c := rfl

@[simp] theorem State.incMar_store : (s.incMar).store = s.store := rfl
@[simp] theorem State.incMar_pending : (s.incMar).pending = s.pending := rfl
@[simp] theorem State.incMar_access : (s.incMar).access = s.access := rfl
@[simp] theorem State.incMar_parityError : (s.incMar).parityError = s.parityError := rfl
@[simp] theorem State.incMar_timeout : (s.incMar).timeout = s.timeout := rfl
@[simp] theorem State.incMar_timeoutIrq : (s.incMar).timeoutIrq = s.timeoutIrq := rfl
@[simp] theorem State.incMar_phase : (s.incMar).phase = s.phase := rfl
@[simp] theorem State.incMar_schedule : (s.incMar).schedule = s.schedule := rfl
@[simp] theorem State.incMar_busLog : (s.incMar).busLog = s.busLog := rfl
@[simp] theorem State.incMar_draws : (s.incMar).draws = s.draws := rfl
@[simp] theorem State.incMar_busy : (s.incMar).busy = s.busy := rfl
@[simp] theorem State.incMar_busyBit : (s.incMar).busyBit = s.busyBit := rfl
@[simp] theorem State.incMar_byteAt (c : Nat) : (s.incMar).byteAt c = s.byteAt c := rfl
@[simp] theorem State.incMar_memRead (c : Addr) : (s.incMar).memRead c = s.memRead c := rfl

@[simp] theorem State.setCC_store (res : Word) (carry ovf : Bool) : (s.setCC res carry ovf).store = s.store := rfl
@[simp] theorem State.setCC_pending (res : Word) (carry ovf : Bool) : (s.setCC res carry ovf).pending = s.pending := rfl
@[simp] theorem State.setCC_access (res : Word) (carry ovf : Bool) : (s.setCC res carry ovf).access = s.access := rfl
@[simp] theorem State.setCC_parityError (res : Word) (carry ovf : Bool) : (s.setCC res carry ovf).parityError = s.parityError := rfl
@[simp] theorem State.setCC_timeout (res : Word) (carry ovf : Bool) : (s.setCC res carry ovf).timeout = s.timeout := rfl
@[simp] theorem State.setCC_timeoutIrq (res : Word) (carry ovf : Bool) : (s.setCC res carry ovf).timeoutIrq = s.timeoutIrq := rfl
@[simp] theorem State.setCC_phase (res : Word) (carry ovf : Bool) : (s.setCC res carry ovf).phase = s.phase := rfl
@[simp] theorem State.setCC_schedule (res : Word) (carry ovf : Bool) : (s.setCC res carry ovf).schedule = s.schedule := rfl
@[simp] theorem State.setCC_busLog (res : Word) (carry ovf : Bool) : (s.setCC res carry ovf).busLog = s.busLog := rfl
@[simp] theorem State.setCC_draws (res : Word) (carry ovf : Bool) : (s.setCC res carry ovf).draws = s.draws := rfl
@[simp] theorem State.setCC_busy (res : Word) (carry ovf : Bool) : (s.setCC res carry ovf).busy = s.busy := rfl
@[simp] theorem State.setCC_busyBit (res : Word) (carry ovf : Bool) : (s.setCC res carry ovf).busyBit = s.busyBit := rfl
@[simp] theorem State.setCC_byteAt (res : Word) (carry ovf : Bool) (c : Nat) : (s.setCC res carry ovf).byteAt c = s.byteAt c := rfl
@[simp] theorem State.setCC_memRead (res : Word) (carry ovf : Bool) (c : Addr) : (s.setCC res carry ovf).memRead c = s.memRead c := rfl

@[simp] theorem State.setClass_store (cc : BitVec 2) : (s.setClass cc).store = s.store := rfl
@[simp] theorem State.setClass_pending (cc : BitVec 2) : (s.setClass cc).pending = s.pending := rfl
@[simp] theorem State.setClass_access (cc : BitVec 2) : (s.setClass cc).access = s.access := rfl
@[simp] theorem State.setClass_parityError (cc : BitVec 2) : (s.setClass cc).parityError = s.parityError := rfl
@[simp] theorem State.setClass_timeout (cc : BitVec 2) : (s.setClass cc).timeout = s.timeout := rfl
@[simp] theorem State.setClass_timeoutIrq (cc : BitVec 2) : (s.setClass cc).timeoutIrq = s.timeoutIrq := rfl
@[simp] theorem State.setClass_phase (cc : BitVec 2) : (s.setClass cc).phase = s.phase := rfl
@[simp] theorem State.setClass_schedule (cc : BitVec 2) : (s.setClass cc).schedule = s.schedule := rfl
@[simp] theorem State.setClass_busLog (cc : BitVec 2) : (s.setClass cc).busLog = s.busLog := rfl
@[simp] theorem State.setClass_draws (cc : BitVec 2) : (s.setClass cc).draws = s.draws := rfl
@[simp] theorem State.setClass_busy (cc : BitVec 2) : (s.setClass cc).busy = s.busy := rfl
@[simp] theorem State.setClass_busyBit (cc : BitVec 2) : (s.setClass cc).busyBit = s.busyBit := rfl
@[simp] theorem State.setClass_byteAt (cc : BitVec 2) (c : Nat) : (s.setClass cc).byteAt c = s.byteAt c := rfl
@[simp] theorem State.setClass_memRead (cc : BitVec 2) (c : Addr) : (s.setClass cc).memRead c = s.memRead c := rfl

@[simp] theorem State.bump_store (r : RegNo) (val : BitVec 4) : (s.bump r val).store = s.store := rfl
@[simp] theorem State.bump_pending (r : RegNo) (val : BitVec 4) : (s.bump r val).pending = s.pending := rfl
@[simp] theorem State.bump_access (r : RegNo) (val : BitVec 4) : (s.bump r val).access = s.access := rfl
@[simp] theorem State.bump_parityError (r : RegNo) (val : BitVec 4) : (s.bump r val).parityError = s.parityError := rfl
@[simp] theorem State.bump_timeout (r : RegNo) (val : BitVec 4) : (s.bump r val).timeout = s.timeout := rfl
@[simp] theorem State.bump_timeoutIrq (r : RegNo) (val : BitVec 4) : (s.bump r val).timeoutIrq = s.timeoutIrq := rfl
@[simp] theorem State.bump_phase (r : RegNo) (val : BitVec 4) : (s.bump r val).phase = s.phase := rfl
@[simp] theorem State.bump_schedule (r : RegNo) (val : BitVec 4) : (s.bump r val).schedule = s.schedule := rfl
@[simp] theorem State.bump_busLog (r : RegNo) (val : BitVec 4) : (s.bump r val).busLog = s.busLog := rfl
@[simp] theorem State.bump_draws (r : RegNo) (val : BitVec 4) : (s.bump r val).draws = s.draws := rfl
@[simp] theorem State.bump_busy (r : RegNo) (val : BitVec 4) : (s.bump r val).busy = s.busy := rfl
@[simp] theorem State.bump_busyBit (r : RegNo) (val : BitVec 4) : (s.bump r val).busyBit = s.busyBit := rfl
@[simp] theorem State.bump_byteAt (r : RegNo) (val : BitVec 4) (c : Nat) : (s.bump r val).byteAt c = s.byteAt c := rfl
@[simp] theorem State.bump_memRead (r : RegNo) (val : BitVec 4) (c : Addr) : (s.bump r val).memRead c = s.memRead c := rfl

@[simp] theorem State.writePair_store (r : RegNo) (q : BitVec 64) : (s.writePair r q).store = s.store := rfl
@[simp] theorem State.writePair_pending (r : RegNo) (q : BitVec 64) : (s.writePair r q).pending = s.pending := rfl
@[simp] theorem State.writePair_access (r : RegNo) (q : BitVec 64) : (s.writePair r q).access = s.access := rfl
@[simp] theorem State.writePair_parityError (r : RegNo) (q : BitVec 64) : (s.writePair r q).parityError = s.parityError := rfl
@[simp] theorem State.writePair_timeout (r : RegNo) (q : BitVec 64) : (s.writePair r q).timeout = s.timeout := rfl
@[simp] theorem State.writePair_timeoutIrq (r : RegNo) (q : BitVec 64) : (s.writePair r q).timeoutIrq = s.timeoutIrq := rfl
@[simp] theorem State.writePair_phase (r : RegNo) (q : BitVec 64) : (s.writePair r q).phase = s.phase := rfl
@[simp] theorem State.writePair_schedule (r : RegNo) (q : BitVec 64) : (s.writePair r q).schedule = s.schedule := rfl
@[simp] theorem State.writePair_busLog (r : RegNo) (q : BitVec 64) : (s.writePair r q).busLog = s.busLog := rfl
@[simp] theorem State.writePair_draws (r : RegNo) (q : BitVec 64) : (s.writePair r q).draws = s.draws := rfl
@[simp] theorem State.writePair_busy (r : RegNo) (q : BitVec 64) : (s.writePair r q).busy = s.busy := rfl
@[simp] theorem State.writePair_busyBit (r : RegNo) (q : BitVec 64) : (s.writePair r q).busyBit = s.busyBit := rfl
@[simp] theorem State.writePair_byteAt (r : RegNo) (q : BitVec 64) (c : Nat) : (s.writePair r q).byteAt c = s.byteAt c := rfl
@[simp] theorem State.writePair_memRead (r : RegNo) (q : BitVec 64) (c : Addr) : (s.writePair r q).memRead c = s.memRead c := rfl

@[simp] theorem State.memWrite_regs (a : Addr) (v : Word) : (s.memWrite a v).regs = s.regs := rfl
@[simp] theorem State.memWrite_pending (a : Addr) (v : Word) : (s.memWrite a v).pending = s.pending := rfl
@[simp] theorem State.memWrite_access (a : Addr) (v : Word) : (s.memWrite a v).access = s.access := rfl
@[simp] theorem State.memWrite_parityError (a : Addr) (v : Word) : (s.memWrite a v).parityError = s.parityError := rfl
@[simp] theorem State.memWrite_timeout (a : Addr) (v : Word) : (s.memWrite a v).timeout = s.timeout := rfl
@[simp] theorem State.memWrite_timeoutIrq (a : Addr) (v : Word) : (s.memWrite a v).timeoutIrq = s.timeoutIrq := rfl
@[simp] theorem State.memWrite_phase (a : Addr) (v : Word) : (s.memWrite a v).phase = s.phase := rfl
@[simp] theorem State.memWrite_schedule (a : Addr) (v : Word) : (s.memWrite a v).schedule = s.schedule := rfl
@[simp] theorem State.memWrite_busLog (a : Addr) (v : Word) : (s.memWrite a v).busLog = s.busLog := rfl
@[simp] theorem State.memWrite_draws (a : Addr) (v : Word) : (s.memWrite a v).draws = s.draws := rfl
@[simp] theorem State.memWrite_raw (a : Addr) (v : Word) (i : RegNo) : (s.memWrite a v).raw i = s.raw i := rfl
@[simp] theorem State.memWrite_readReg (a : Addr) (v : Word) (i : RegNo) : (s.memWrite a v).readReg i = s.readReg i := rfl
@[simp] theorem State.memWrite_mar (a : Addr) (v : Word) : (s.memWrite a v).mar = s.mar := rfl
@[simp] theorem State.memWrite_resultClass (a : Addr) (v : Word) : (s.memWrite a v).resultClass = s.resultClass := rfl
@[simp] theorem State.memWrite_carry (a : Addr) (v : Word) : (s.memWrite a v).carry = s.carry := rfl
@[simp] theorem State.memWrite_halted (a : Addr) (v : Word) : (s.memWrite a v).halted = s.halted := rfl
@[simp] theorem State.memWrite_busy (a : Addr) (v : Word) : (s.memWrite a v).busy = s.busy := rfl
@[simp] theorem State.memWrite_busyBit (a : Addr) (v : Word) : (s.memWrite a v).busyBit = s.busyBit := rfl

@[simp] theorem State.afterT_regs (skip : Bool) (acf : Acf) : (s.afterT skip acf).regs = s.regs := rfl
@[simp] theorem State.afterT_store (skip : Bool) (acf : Acf) : (s.afterT skip acf).store = s.store := rfl
@[simp] theorem State.afterT_pending (skip : Bool) (acf : Acf) : (s.afterT skip acf).pending = s.pending := rfl
@[simp] theorem State.afterT_access (skip : Bool) (acf : Acf) : (s.afterT skip acf).access = s.access := rfl
@[simp] theorem State.afterT_parityError (skip : Bool) (acf : Acf) : (s.afterT skip acf).parityError = s.parityError := rfl
@[simp] theorem State.afterT_timeout (skip : Bool) (acf : Acf) : (s.afterT skip acf).timeout = s.timeout := rfl
@[simp] theorem State.afterT_timeoutIrq (skip : Bool) (acf : Acf) : (s.afterT skip acf).timeoutIrq = s.timeoutIrq := rfl
@[simp] theorem State.afterT_schedule (skip : Bool) (acf : Acf) : (s.afterT skip acf).schedule = s.schedule := rfl
@[simp] theorem State.afterT_busLog (skip : Bool) (acf : Acf) : (s.afterT skip acf).busLog = s.busLog := rfl
@[simp] theorem State.afterT_draws (skip : Bool) (acf : Acf) : (s.afterT skip acf).draws = s.draws := rfl
@[simp] theorem State.afterT_raw (skip : Bool) (acf : Acf) (i : RegNo) : (s.afterT skip acf).raw i = s.raw i := rfl
@[simp] theorem State.afterT_readReg (skip : Bool) (acf : Acf) (i : RegNo) : (s.afterT skip acf).readReg i = s.readReg i := rfl
@[simp] theorem State.afterT_mar (skip : Bool) (acf : Acf) : (s.afterT skip acf).mar = s.mar := rfl
@[simp] theorem State.afterT_resultClass (skip : Bool) (acf : Acf) : (s.afterT skip acf).resultClass = s.resultClass := rfl
@[simp] theorem State.afterT_carry (skip : Bool) (acf : Acf) : (s.afterT skip acf).carry = s.carry := rfl
@[simp] theorem State.afterT_halted (skip : Bool) (acf : Acf) : (s.afterT skip acf).halted = s.halted := rfl
@[simp] theorem State.afterT_busy (skip : Bool) (acf : Acf) : (s.afterT skip acf).busy = s.busy := rfl
@[simp] theorem State.afterT_busyBit (skip : Bool) (acf : Acf) : (s.afterT skip acf).busyBit = s.busyBit := rfl
@[simp] theorem State.afterT_byteAt (skip : Bool) (acf : Acf) (c : Nat) : (s.afterT skip acf).byteAt c = s.byteAt c := rfl
@[simp] theorem State.afterT_memRead (skip : Bool) (acf : Acf) (c : Addr) : (s.afterT skip acf).memRead c = s.memRead c := rfl

@[simp] theorem State.endA_regs : (s.endA).regs = s.regs := rfl
@[simp] theorem State.endA_store : (s.endA).store = s.store := rfl
@[simp] theorem State.endA_pending : (s.endA).pending = s.pending := rfl
@[simp] theorem State.endA_access : (s.endA).access = s.access := rfl
@[simp] theorem State.endA_parityError : (s.endA).parityError = s.parityError := rfl
@[simp] theorem State.endA_timeout : (s.endA).timeout = s.timeout := rfl
@[simp] theorem State.endA_timeoutIrq : (s.endA).timeoutIrq = s.timeoutIrq := rfl
@[simp] theorem State.endA_schedule : (s.endA).schedule = s.schedule := rfl
@[simp] theorem State.endA_busLog : (s.endA).busLog = s.busLog := rfl
@[simp] theorem State.endA_draws : (s.endA).draws = s.draws := rfl
@[simp] theorem State.endA_raw (i : RegNo) : (s.endA).raw i = s.raw i := rfl
@[simp] theorem State.endA_readReg (i : RegNo) : (s.endA).readReg i = s.readReg i := rfl
@[simp] theorem State.endA_mar : (s.endA).mar = s.mar := rfl
@[simp] theorem State.endA_resultClass : (s.endA).resultClass = s.resultClass := rfl
@[simp] theorem State.endA_carry : (s.endA).carry = s.carry := rfl
@[simp] theorem State.endA_halted : (s.endA).halted = s.halted := rfl
@[simp] theorem State.endA_busy : (s.endA).busy = s.busy := rfl
@[simp] theorem State.endA_busyBit : (s.endA).busyBit = s.busyBit := rfl
@[simp] theorem State.endA_byteAt (c : Nat) : (s.endA).byteAt c = s.byteAt c := rfl
@[simp] theorem State.endA_memRead (c : Addr) : (s.endA).memRead c = s.memRead c := rfl

@[simp] theorem State.drawn_regs : (s.drawn).regs = s.regs := rfl
@[simp] theorem State.drawn_store : (s.drawn).store = s.store := rfl
@[simp] theorem State.drawn_pending : (s.drawn).pending = s.pending := rfl
@[simp] theorem State.drawn_access : (s.drawn).access = s.access := rfl
@[simp] theorem State.drawn_parityError : (s.drawn).parityError = s.parityError := rfl
@[simp] theorem State.drawn_timeout : (s.drawn).timeout = s.timeout := rfl
@[simp] theorem State.drawn_timeoutIrq : (s.drawn).timeoutIrq = s.timeoutIrq := rfl
@[simp] theorem State.drawn_phase : (s.drawn).phase = s.phase := rfl
@[simp] theorem State.drawn_schedule : (s.drawn).schedule = s.schedule := rfl
@[simp] theorem State.drawn_busLog : (s.drawn).busLog = s.busLog := rfl
@[simp] theorem State.drawn_raw (i : RegNo) : (s.drawn).raw i = s.raw i := rfl
@[simp] theorem State.drawn_readReg (i : RegNo) : (s.drawn).readReg i = s.readReg i := rfl
@[simp] theorem State.drawn_mar : (s.drawn).mar = s.mar := rfl
@[simp] theorem State.drawn_resultClass : (s.drawn).resultClass = s.resultClass := rfl
@[simp] theorem State.drawn_carry : (s.drawn).carry = s.carry := rfl
@[simp] theorem State.drawn_halted : (s.drawn).halted = s.halted := rfl
@[simp] theorem State.drawn_busy : (s.drawn).busy = s.busy := rfl
@[simp] theorem State.drawn_busyBit : (s.drawn).busyBit = s.busyBit := rfl
@[simp] theorem State.drawn_byteAt (c : Nat) : (s.drawn).byteAt c = s.byteAt c := rfl
@[simp] theorem State.drawn_memRead (c : Addr) : (s.drawn).memRead c = s.memRead c := rfl

@[simp] theorem State.issue_regs (p : Pending) : (s.issue p).regs = s.regs := rfl
@[simp] theorem State.issue_store (p : Pending) : (s.issue p).store = s.store := rfl
@[simp] theorem State.issue_parityError (p : Pending) : (s.issue p).parityError = s.parityError := rfl
@[simp] theorem State.issue_timeout (p : Pending) : (s.issue p).timeout = s.timeout := rfl
@[simp] theorem State.issue_timeoutIrq (p : Pending) : (s.issue p).timeoutIrq = s.timeoutIrq := rfl
@[simp] theorem State.issue_phase (p : Pending) : (s.issue p).phase = s.phase := rfl
@[simp] theorem State.issue_schedule (p : Pending) : (s.issue p).schedule = s.schedule := rfl
@[simp] theorem State.issue_busLog (p : Pending) : (s.issue p).busLog = s.busLog := rfl
@[simp] theorem State.issue_draws (p : Pending) : (s.issue p).draws = s.draws := rfl
@[simp] theorem State.issue_raw (p : Pending) (i : RegNo) : (s.issue p).raw i = s.raw i := rfl
@[simp] theorem State.issue_mar (p : Pending) : (s.issue p).mar = s.mar := rfl
@[simp] theorem State.issue_resultClass (p : Pending) : (s.issue p).resultClass = s.resultClass := rfl
@[simp] theorem State.issue_carry (p : Pending) : (s.issue p).carry = s.carry := rfl
@[simp] theorem State.issue_halted (p : Pending) : (s.issue p).halted = s.halted := rfl
@[simp] theorem State.issue_byteAt (p : Pending) (c : Nat) : (s.issue p).byteAt c = s.byteAt c := rfl
@[simp] theorem State.issue_memRead (p : Pending) (c : Addr) : (s.issue p).memRead c = s.memRead c := rfl

@[simp] theorem State.timedOut_regs : (s.timedOut).regs = s.regs := rfl
@[simp] theorem State.timedOut_store : (s.timedOut).store = s.store := rfl
@[simp] theorem State.timedOut_pending : (s.timedOut).pending = s.pending := rfl
@[simp] theorem State.timedOut_access : (s.timedOut).access = s.access := rfl
@[simp] theorem State.timedOut_parityError : (s.timedOut).parityError = s.parityError := rfl
@[simp] theorem State.timedOut_phase : (s.timedOut).phase = s.phase := rfl
@[simp] theorem State.timedOut_schedule : (s.timedOut).schedule = s.schedule := rfl
@[simp] theorem State.timedOut_busLog : (s.timedOut).busLog = s.busLog := rfl
@[simp] theorem State.timedOut_draws : (s.timedOut).draws = s.draws := rfl
@[simp] theorem State.timedOut_raw (i : RegNo) : (s.timedOut).raw i = s.raw i := rfl
@[simp] theorem State.timedOut_readReg (i : RegNo) : (s.timedOut).readReg i = s.readReg i := rfl
@[simp] theorem State.timedOut_mar : (s.timedOut).mar = s.mar := rfl
@[simp] theorem State.timedOut_resultClass : (s.timedOut).resultClass = s.resultClass := rfl
@[simp] theorem State.timedOut_carry : (s.timedOut).carry = s.carry := rfl
@[simp] theorem State.timedOut_halted : (s.timedOut).halted = s.halted := rfl
@[simp] theorem State.timedOut_busy : (s.timedOut).busy = s.busy := rfl
@[simp] theorem State.timedOut_busyBit : (s.timedOut).busyBit = s.busyBit := rfl
@[simp] theorem State.timedOut_byteAt (c : Nat) : (s.timedOut).byteAt c = s.byteAt c := rfl
@[simp] theorem State.timedOut_memRead (c : Addr) : (s.timedOut).memRead c = s.memRead c := rfl

@[simp] theorem State.parityReset_regs : (s.parityReset).regs = s.regs := rfl
@[simp] theorem State.parityReset_store : (s.parityReset).store = s.store := rfl
@[simp] theorem State.parityReset_pending : (s.parityReset).pending = s.pending := rfl
@[simp] theorem State.parityReset_access : (s.parityReset).access = s.access := rfl
@[simp] theorem State.parityReset_timeout : (s.parityReset).timeout = s.timeout := rfl
@[simp] theorem State.parityReset_timeoutIrq : (s.parityReset).timeoutIrq = s.timeoutIrq := rfl
@[simp] theorem State.parityReset_phase : (s.parityReset).phase = s.phase := rfl
@[simp] theorem State.parityReset_schedule : (s.parityReset).schedule = s.schedule := rfl
@[simp] theorem State.parityReset_busLog : (s.parityReset).busLog = s.busLog := rfl
@[simp] theorem State.parityReset_draws : (s.parityReset).draws = s.draws := rfl
@[simp] theorem State.parityReset_raw (i : RegNo) : (s.parityReset).raw i = s.raw i := rfl
@[simp] theorem State.parityReset_readReg (i : RegNo) : (s.parityReset).readReg i = s.readReg i := rfl
@[simp] theorem State.parityReset_mar : (s.parityReset).mar = s.mar := rfl
@[simp] theorem State.parityReset_resultClass : (s.parityReset).resultClass = s.resultClass := rfl
@[simp] theorem State.parityReset_carry : (s.parityReset).carry = s.carry := rfl
@[simp] theorem State.parityReset_halted : (s.parityReset).halted = s.halted := rfl
@[simp] theorem State.parityReset_busy : (s.parityReset).busy = s.busy := rfl
@[simp] theorem State.parityReset_busyBit : (s.parityReset).busyBit = s.busyBit := rfl
@[simp] theorem State.parityReset_byteAt (c : Nat) : (s.parityReset).byteAt c = s.byteAt c := rfl
@[simp] theorem State.parityReset_memRead (c : Addr) : (s.parityReset).memRead c = s.memRead c := rfl

@[simp] theorem State.gave_regs (aw d : Word) : (s.gave aw d).regs = s.regs := rfl
@[simp] theorem State.gave_store (aw d : Word) : (s.gave aw d).store = s.store := rfl
@[simp] theorem State.gave_pending (aw d : Word) : (s.gave aw d).pending = s.pending := rfl
@[simp] theorem State.gave_access (aw d : Word) : (s.gave aw d).access = s.access := rfl
@[simp] theorem State.gave_parityError (aw d : Word) : (s.gave aw d).parityError = s.parityError := rfl
@[simp] theorem State.gave_timeout (aw d : Word) : (s.gave aw d).timeout = s.timeout := rfl
@[simp] theorem State.gave_timeoutIrq (aw d : Word) : (s.gave aw d).timeoutIrq = s.timeoutIrq := rfl
@[simp] theorem State.gave_phase (aw d : Word) : (s.gave aw d).phase = s.phase := rfl
@[simp] theorem State.gave_schedule (aw d : Word) : (s.gave aw d).schedule = s.schedule := rfl
@[simp] theorem State.gave_draws (aw d : Word) : (s.gave aw d).draws = s.draws := rfl
@[simp] theorem State.gave_raw (aw d : Word) (i : RegNo) : (s.gave aw d).raw i = s.raw i := rfl
@[simp] theorem State.gave_readReg (aw d : Word) (i : RegNo) : (s.gave aw d).readReg i = s.readReg i := rfl
@[simp] theorem State.gave_mar (aw d : Word) : (s.gave aw d).mar = s.mar := rfl
@[simp] theorem State.gave_resultClass (aw d : Word) : (s.gave aw d).resultClass = s.resultClass := rfl
@[simp] theorem State.gave_carry (aw d : Word) : (s.gave aw d).carry = s.carry := rfl
@[simp] theorem State.gave_halted (aw d : Word) : (s.gave aw d).halted = s.halted := rfl
@[simp] theorem State.gave_busy (aw d : Word) : (s.gave aw d).busy = s.busy := rfl
@[simp] theorem State.gave_busyBit (aw d : Word) : (s.gave aw d).busyBit = s.busyBit := rfl
@[simp] theorem State.gave_byteAt (aw d : Word) (c : Nat) : (s.gave aw d).byteAt c = s.byteAt c := rfl
@[simp] theorem State.gave_memRead (aw d : Word) (c : Addr) : (s.gave aw d).memRead c = s.memRead c := rfl

@[simp] theorem State.withSchedule_regs (rest : List Act) : (s.withSchedule rest).regs = s.regs := rfl
@[simp] theorem State.withSchedule_store (rest : List Act) : (s.withSchedule rest).store = s.store := rfl
@[simp] theorem State.withSchedule_pending (rest : List Act) : (s.withSchedule rest).pending = s.pending := rfl
@[simp] theorem State.withSchedule_access (rest : List Act) : (s.withSchedule rest).access = s.access := rfl
@[simp] theorem State.withSchedule_parityError (rest : List Act) : (s.withSchedule rest).parityError = s.parityError := rfl
@[simp] theorem State.withSchedule_timeout (rest : List Act) : (s.withSchedule rest).timeout = s.timeout := rfl
@[simp] theorem State.withSchedule_timeoutIrq (rest : List Act) : (s.withSchedule rest).timeoutIrq = s.timeoutIrq := rfl
@[simp] theorem State.withSchedule_phase (rest : List Act) : (s.withSchedule rest).phase = s.phase := rfl
@[simp] theorem State.withSchedule_busLog (rest : List Act) : (s.withSchedule rest).busLog = s.busLog := rfl
@[simp] theorem State.withSchedule_raw (rest : List Act) (i : RegNo) : (s.withSchedule rest).raw i = s.raw i := rfl
@[simp] theorem State.withSchedule_readReg (rest : List Act) (i : RegNo) : (s.withSchedule rest).readReg i = s.readReg i := rfl
@[simp] theorem State.withSchedule_mar (rest : List Act) : (s.withSchedule rest).mar = s.mar := rfl
@[simp] theorem State.withSchedule_resultClass (rest : List Act) : (s.withSchedule rest).resultClass = s.resultClass := rfl
@[simp] theorem State.withSchedule_carry (rest : List Act) : (s.withSchedule rest).carry = s.carry := rfl
@[simp] theorem State.withSchedule_halted (rest : List Act) : (s.withSchedule rest).halted = s.halted := rfl
@[simp] theorem State.withSchedule_busy (rest : List Act) : (s.withSchedule rest).busy = s.busy := rfl
@[simp] theorem State.withSchedule_busyBit (rest : List Act) : (s.withSchedule rest).busyBit = s.busyBit := rfl
@[simp] theorem State.withSchedule_byteAt (rest : List Act) (c : Nat) : (s.withSchedule rest).byteAt c = s.byteAt c := rfl
@[simp] theorem State.withSchedule_memRead (rest : List Act) (c : Addr) : (s.withSchedule rest).memRead c = s.memRead c := rfl
@[simp] theorem State.withSchedule_draws (rest : List Act) : (s.withSchedule rest).draws = s.draws := rfl
@[simp] theorem State.withSchedule_schedule (rest : List Act) : (s.withSchedule rest).schedule = rest := rfl

@[simp] theorem State.keepSending_regs (x : Sending) : (s.keepSending x).regs = s.regs := rfl
@[simp] theorem State.keepSending_store (x : Sending) : (s.keepSending x).store = s.store := rfl
@[simp] theorem State.keepSending_pending (x : Sending) : (s.keepSending x).pending = s.pending := rfl
@[simp] theorem State.keepSending_access (x : Sending) : (s.keepSending x).access = s.access := rfl
@[simp] theorem State.keepSending_parityError (x : Sending) : (s.keepSending x).parityError = s.parityError := rfl
@[simp] theorem State.keepSending_timeout (x : Sending) : (s.keepSending x).timeout = s.timeout := rfl
@[simp] theorem State.keepSending_timeoutIrq (x : Sending) : (s.keepSending x).timeoutIrq = s.timeoutIrq := rfl
@[simp] theorem State.keepSending_busLog (x : Sending) : (s.keepSending x).busLog = s.busLog := rfl
@[simp] theorem State.keepSending_raw (x : Sending) (i : RegNo) : (s.keepSending x).raw i = s.raw i := rfl
@[simp] theorem State.keepSending_readReg (x : Sending) (i : RegNo) : (s.keepSending x).readReg i = s.readReg i := rfl
@[simp] theorem State.keepSending_mar (x : Sending) : (s.keepSending x).mar = s.mar := rfl
@[simp] theorem State.keepSending_resultClass (x : Sending) : (s.keepSending x).resultClass = s.resultClass := rfl
@[simp] theorem State.keepSending_carry (x : Sending) : (s.keepSending x).carry = s.carry := rfl
@[simp] theorem State.keepSending_halted (x : Sending) : (s.keepSending x).halted = s.halted := rfl
@[simp] theorem State.keepSending_busy (x : Sending) : (s.keepSending x).busy = s.busy := rfl
@[simp] theorem State.keepSending_busyBit (x : Sending) : (s.keepSending x).busyBit = s.busyBit := rfl
@[simp] theorem State.keepSending_byteAt (x : Sending) (c : Nat) : (s.keepSending x).byteAt c = s.byteAt c := rfl
@[simp] theorem State.keepSending_memRead (x : Sending) (c : Addr) : (s.keepSending x).memRead c = s.memRead c := rfl
@[simp] theorem State.keepSending_draws (x : Sending) : (s.keepSending x).draws = s.draws := rfl
@[simp] theorem State.keepSending_schedule (x : Sending) : (s.keepSending x).schedule = s.schedule := rfl

@[simp] theorem State.irqDone_regs : s.irqDone.regs = s.regs := rfl
@[simp] theorem State.irqDone_store : s.irqDone.store = s.store := rfl
@[simp] theorem State.irqDone_pending : s.irqDone.pending = s.pending := rfl
@[simp] theorem State.irqDone_access : s.irqDone.access = s.access := rfl
@[simp] theorem State.irqDone_parityError : s.irqDone.parityError = s.parityError := rfl
@[simp] theorem State.irqDone_timeout : s.irqDone.timeout = s.timeout := rfl
@[simp] theorem State.irqDone_phase : s.irqDone.phase = s.phase := rfl
@[simp] theorem State.irqDone_busLog : s.irqDone.busLog = s.busLog := rfl
@[simp] theorem State.irqDone_raw (i : RegNo) : s.irqDone.raw i = s.raw i := rfl
@[simp] theorem State.irqDone_readReg (i : RegNo) : s.irqDone.readReg i = s.readReg i := rfl
@[simp] theorem State.irqDone_mar : s.irqDone.mar = s.mar := rfl
@[simp] theorem State.irqDone_resultClass : s.irqDone.resultClass = s.resultClass := rfl
@[simp] theorem State.irqDone_carry : s.irqDone.carry = s.carry := rfl
@[simp] theorem State.irqDone_halted : s.irqDone.halted = s.halted := rfl
@[simp] theorem State.irqDone_busy : s.irqDone.busy = s.busy := rfl
@[simp] theorem State.irqDone_busyBit : s.irqDone.busyBit = s.busyBit := rfl
@[simp] theorem State.irqDone_byteAt (c : Nat) : s.irqDone.byteAt c = s.byteAt c := rfl
@[simp] theorem State.irqDone_memRead (c : Addr) : s.irqDone.memRead c = s.memRead c := rfl
@[simp] theorem State.irqDone_draws : s.irqDone.draws = s.draws := rfl
@[simp] theorem State.irqDone_schedule : s.irqDone.schedule = s.schedule := rfl

/-! ### The fields an update does write -/

@[simp] theorem State.keepSending_phase (x : Sending) : (s.keepSending x).phase = .sending x := rfl
@[simp] theorem State.irqDone_timeoutIrq : s.irqDone.timeoutIrq = false := rfl
@[simp] theorem State.afterT_phase (skip : Bool) (acf : Acf) :
    (s.afterT skip acf).phase = if skip then .ifetch else .aSeq acf := rfl
@[simp] theorem State.endA_phase : s.endA.phase = .ifetch := rfl
@[simp] theorem State.drawn_draws : s.drawn.draws = s.draws + 1 := rfl
@[simp] theorem State.issue_pending (p : Pending) : (s.issue p).pending = p := rfl
@[simp] theorem State.issue_access (p : Pending) : (s.issue p).access = .using := rfl
@[simp] theorem State.memWrite_store (a : Addr) (v : Word) :
    (s.memWrite a v).store = s.store.writeWord a v := rfl
@[simp] theorem State.timedOut_timeout : s.timedOut.timeout = true := rfl
@[simp] theorem State.timedOut_timeoutIrq : s.timedOut.timeoutIrq = true := rfl
@[simp] theorem State.parityReset_parityError : s.parityReset.parityError = false := rfl
@[simp] theorem State.gave_busLog (aw d : Word) :
    (s.gave aw d).busLog = .slaveRead aw d :: s.busLog := rfl

end Sys2Proof.Machine
end

