-- ==== Sys2Proof/Laws/Registers.lean ====
section
/-! SUPPORT. What the register operations do: reads after writes, the fields of register 0, register pairs. -/

namespace Sys2Proof.Machine

variable (s : State)

/-! ### Stored bits -/

@[simp] theorem State.raw_setRaw_self (r : RegNo) (v : Word) : (s.setRaw r v).raw r = v := by
  simp [State.raw, State.setRaw]

theorem State.raw_setRaw (r i : RegNo) (v : Word) :
    (s.setRaw r v).raw i = if i = r then v else s.raw i := by
  by_cases h : i = r
  · subst h; simp
  · have h' : r.toNat ≠ i.toNat := fun e => h (BitVec.eq_of_toNat_eq e.symm)
    simp [State.raw, State.setRaw, h, h']

@[simp] theorem State.raw_setRaw_ne {r i : RegNo} (h : i ≠ r) (v : Word) :
    (s.setRaw r v).raw i = s.raw i := by simp [State.raw_setRaw, h]

theorem State.raw_writeReg (r i : RegNo) (v : Word) :
    (s.writeReg r v).raw i = if i = r then (if r = 0#3 then v &&& 0xFEFFFFFF#32 else v) else s.raw i := by
  simp only [State.writeReg, State.raw_setRaw]

@[simp] theorem State.raw_writeReg_ne {r i : RegNo} (h : i ≠ r) (v : Word) :
    (s.writeReg r v).raw i = s.raw i := by simp [State.raw_writeReg, h]

@[simp] theorem State.raw_writeReg_self {r : RegNo} (h : r ≠ 0#3) (v : Word) :
    (s.writeReg r v).raw r = v := by simp [State.raw_writeReg, h]

@[simp] theorem State.raw_writeReg_zero (v : Word) :
    (s.writeReg 0#3 v).raw 0#3 = v &&& 0xFEFFFFFF#32 := by simp [State.raw_writeReg]

/-! ### Reads -/

/-- A register other than 0 reads as it is stored (R21). -/
@[simp] theorem State.readReg_of_ne {r : RegNo} (h : r ≠ 0#3) : s.readReg r = s.raw r := by
  simp [State.readReg, h]

/-- Register 0 reads with bit 24 live (R30). -/
theorem State.readReg_zero : s.readReg 0#3 = (s.raw 0#3 &&& 0xFEFFFFFF#32) ||| s.busyBit := by
  simp [State.readReg]

theorem State.getLsbD_busyBit (k : Nat) : s.busyBit.getLsbD k = (s.busy && decide (k = 24)) := by
  unfold State.busyBit
  split
  · rename_i h
    by_cases hk : k < 32
    · rw [h]; interval_cases k <;> rfl
    · rw [BitVec.getLsbD_of_ge _ _ (by omega)]
      have : k ≠ 24 := by omega
      simp [this]
  · rename_i h; simp [h]

theorem getLsbD_clear24 (w : Word) (k : Nat) :
    (w &&& 0xFEFFFFFF#32).getLsbD k = (w.getLsbD k && decide (k ≠ 24)) := by
  by_cases hk : k < 32
  · rw [BitVec.getLsbD_and]
    congr 1
    interval_cases k <;> rfl
  · rw [BitVec.getLsbD_of_ge _ _ (by omega), BitVec.getLsbD_of_ge w _ (by omega)]
    rfl

/-- Bit `k` of register 0 as read (R30). -/
theorem State.getLsbD_readReg_zero (k : Nat) :
    (s.readReg 0#3).getLsbD k = if k = 24 then s.busy else (s.raw 0#3).getLsbD k := by
  rw [State.readReg_zero, BitVec.getLsbD_or, getLsbD_clear24, State.getLsbD_busyBit]
  by_cases h : k = 24 <;> simp [h]

/-- A value written to a register other than 0 is read back (R21). -/
@[simp] theorem State.readReg_writeReg_self {r : RegNo} (h : r ≠ 0#3) (v : Word) :
    (s.writeReg r v).readReg r = v := by simp [h]

@[simp] theorem State.readReg_writeReg_ne {r i : RegNo} (h : i ≠ r) (v : Word) :
    (s.writeReg r v).readReg i = s.readReg i := by
  by_cases hi : i = 0#3
  · subst hi; simp [State.readReg_zero, h]
  · simp [hi, h]

/-! ### Fields of register 0 -/

@[simp] theorem State.mar_setMar (m : Addr) : (s.setMar m).mar = m := by
  simp only [State.mar, State.setMar, State.raw_setRaw_self]
  apply BitVec.eq_of_getLsbD_eq
  intro k hk
  simp only [BitVec.getLsbD_extractLsb', BitVec.getLsbD_append, Nat.zero_add, hk]
  simp

@[simp] theorem State.raw_setMar_ne {i : RegNo} (h : i ≠ 0#3) (m : Addr) : (s.setMar m).raw i = s.raw i := by
  simp [State.setMar, h]

theorem State.getLsbD_raw_setMar (m : Addr) (k : Nat) :
    ((s.setMar m).raw 0#3).getLsbD k = if k < 12 then m.getLsbD k else (s.raw 0#3).getLsbD k := by
  simp only [State.setMar, State.raw_setRaw_self, BitVec.getLsbD_append, BitVec.getLsbD_extractLsb']
  by_cases h : k < 12
  · simp [h]
  · by_cases h2 : k < 32
    · simp [h, show k - 12 < 20 by omega, show 12 + (k - 12) = k by omega]
    · simp [h, show ¬ k - 12 < 20 by omega, BitVec.getLsbD_of_ge (s.raw (0#3)) k (by omega)]

@[simp] theorem State.raw_branchBy_ne {i : RegNo} (h : i ≠ 0#3) (val : BitVec 4) :
    (s.branchBy val).raw i = s.raw i := by simp [State.branchBy, h]

@[simp] theorem State.mar_branchBy (val : BitVec 4) :
    (s.branchBy val).mar = s.mar + val.signExtend 12 := by simp [State.branchBy]

@[simp] theorem State.raw_incMar_ne {i : RegNo} (h : i ≠ 0#3) : s.incMar.raw i = s.raw i := by
  simp [State.incMar, h]

@[simp] theorem State.mar_incMar : s.incMar.mar = s.mar + 1#12 := by simp [State.incMar]

@[simp] theorem State.raw_setHalted_ne {i : RegNo} (h : i ≠ 0#3) (b : Bool) : (s.setHalted b).raw i = s.raw i := by
  simp [State.setHalted, h]

theorem State.getLsbD_raw_setHalted (b : Bool) (k : Nat) :
    ((s.setHalted b).raw 0#3).getLsbD k = if k = 15 then b else (s.raw 0#3).getLsbD k := by
  simp only [State.setHalted, State.raw_setRaw_self, BitVec.getLsbD_append, BitVec.getLsbD_extractLsb',
    BitVec.getLsbD_ofBool]
  by_cases h : k < 15
  · simp [h, show k ≠ 15 by omega]
  · by_cases h1 : k = 15
    · subst h1; simp
    · by_cases h2 : k < 32
      · have e : 16 + (k - 15 - 1) = k := by omega
        simp [h, h1, show ¬ k - 15 < 1 by omega, show k - 15 - 1 < 16 by omega, e]
      · simp [h, h1, show ¬ k - 15 < 1 by omega, show ¬ k - 15 - 1 < 16 by omega,
          BitVec.getLsbD_of_ge (s.raw (0#3)) k (by omega)]

@[simp] theorem State.halted_setHalted (b : Bool) : (s.setHalted b).halted = b := by
  rw [State.halted, State.getLsbD_raw_setHalted, if_pos rfl]

@[simp] theorem State.raw_setCC_ne {i : RegNo} (h : i ≠ 0#3) (res : Word) (c v : Bool) :
    (s.setCC res c v).raw i = s.raw i := by simp [State.setCC, h]

theorem State.getLsbD_raw_setCC (res : Word) (c v : Bool) (k : Nat) :
    ((s.setCC res c v).raw 0#3).getLsbD k =
      if k < 25 then (s.raw 0#3).getLsbD k else (codesOf res c v).getLsbD (k - 25) := by
  simp only [State.setCC, State.raw_setRaw_self, BitVec.getLsbD_append, BitVec.getLsbD_extractLsb', Nat.zero_add]
  by_cases h : k < 25 <;> simp [h]

@[simp] theorem State.raw_setClass_ne {i : RegNo} (h : i ≠ 0#3) (cc : BitVec 2) :
    (s.setClass cc).raw i = s.raw i := by simp [State.setClass, h]

theorem State.getLsbD_raw_setClass (cc : BitVec 2) (k : Nat) :
    ((s.setClass cc).raw 0#3).getLsbD k = if k < 30 then (s.raw 0#3).getLsbD k else cc.getLsbD (k - 30) := by
  simp only [State.setClass, State.raw_setRaw_self, BitVec.getLsbD_append, BitVec.getLsbD_extractLsb', Nat.zero_add]
  by_cases h : k < 30 <;> simp [h]

@[simp] theorem State.resultClass_setClass (cc : BitVec 2) : (s.setClass cc).resultClass = cc := by
  apply BitVec.eq_of_getLsbD_eq
  intro k hk
  rw [State.resultClass, BitVec.getLsbD_extractLsb', State.getLsbD_raw_setClass]
  simp [hk]

/-- The CC field after `SetCC` is the class of the result (R33, R36). -/
@[simp] theorem State.resultClass_setCC (res : Word) (c v : Bool) :
    (s.setCC res c v).resultClass = Sys2Proof.Machine.resultClass res v := by
  apply BitVec.eq_of_getLsbD_eq
  intro k hk
  simp only [State.resultClass, BitVec.getLsbD_extractLsb', hk, decide_true, Bool.true_and,
    State.getLsbD_raw_setCC, codesOf, BitVec.getLsbD_append, BitVec.getLsbD_ofBool]
  interval_cases k <;> simp

/-- The C bit after `SetCC` (R36). -/
@[simp] theorem State.carry_setCC (res : Word) (c v : Bool) : (s.setCC res c v).carry = c := by
  rw [State.carry, State.getLsbD_raw_setCC]
  simp only [codesOf, BitVec.getLsbD_append, BitVec.getLsbD_ofBool]
  simp

/-! ### Pairs -/

theorem pairOf_ne (r : RegNo) : pairOf r ≠ r := by
  revert r; decide

@[simp] theorem pairOf_pairOf (r : RegNo) : pairOf (pairOf r) = r := by
  revert r; decide

theorem State.raw_writePair_ne {r i : RegNo} (h : i ≠ r) (h' : i ≠ pairOf r) (q : BitVec 64) :
    (s.writePair r q).raw i = s.raw i := by
  simp [State.writePair, h, h']

theorem State.raw_writePair_high {r : RegNo} (h : r ≠ 0#3) (q : BitVec 64) :
    (s.writePair r q).raw r = q.extractLsb' 32 32 := by
  simp [State.writePair, (pairOf_ne r).symm, h]

theorem State.raw_writePair_low {r : RegNo} (h : pairOf r ≠ 0#3) (q : BitVec 64) :
    (s.writePair r q).raw (pairOf r) = q.extractLsb' 0 32 := by
  simp [State.writePair, h]

end Sys2Proof.Machine
end

