-- ==== Sys2Proof/Laws/Memory.lean ====
section
/-! SUPPORT. The control store: read after write, everything else unchanged, the canonical form and the parity bits are
kept. -/

namespace Sys2Proof.Machine

/-! ### Cells -/

@[simp] theorem Memory.byteAt_put_self (m : Memory) (a : Nat) (b : Byte) : (m.put a b).byteAt a = some b := by
  induction m with
  | nil => simp [Memory.put, Memory.byteAt]
  | cons kc rest ih =>
    obtain ⟨k, c⟩ := kc
    simp only [Memory.put]
    split
    · simp [Memory.byteAt]
    · split
      · simp [Memory.byteAt]
      · rename_i h
        have : k ≠ a := fun e => h e.symm
        simp [Memory.byteAt, this, ih]

theorem Memory.byteAt_put_ne (m : Memory) {a c : Nat} (h : c ≠ a) (b : Byte) :
    (m.put a b).byteAt c = m.byteAt c := by
  induction m with
  | nil => simp [Memory.put, Memory.byteAt, h.symm]
  | cons kd rest ih =>
    obtain ⟨k, d⟩ := kd
    simp only [Memory.put]
    split
    · simp [Memory.byteAt, h.symm]
    · split
      · rename_i e
        subst e
        simp [Memory.byteAt, h.symm]
      · by_cases hk : k = c <;> simp [Memory.byteAt, hk, ih]

theorem Memory.byteAt_put (m : Memory) (a c : Nat) (b : Byte) :
    (m.put a b).byteAt c = if c = a then some b else m.byteAt c := by
  by_cases h : c = a
  · subst h; simp
  · simp [h, Memory.byteAt_put_ne m h b]

/-! ### Canonical form -/

theorem Memory.wfFrom_mono {low low' : Nat} (h : low' ≤ low) (m : Memory) (hw : Memory.wfFrom low m = true) :
    Memory.wfFrom low' m = true := by
  cases m with
  | nil => rfl
  | cons kc rest =>
    obtain ⟨k, c⟩ := kc
    simp only [Memory.wfFrom, Bool.and_eq_true, decide_eq_true_eq] at hw ⊢
    exact ⟨⟨by omega, hw.1.2⟩, hw.2⟩

theorem Memory.wfFrom_put (m : Memory) (low a : Nat) (b : Byte) (hl : low ≤ a) (ha : a < 0x5000)
    (hw : Memory.wfFrom low m = true) : Memory.wfFrom low (m.put a b) = true := by
  induction m generalizing low with
  | nil => simp [Memory.put, Memory.wfFrom, hl, ha]
  | cons kc rest ih =>
    obtain ⟨k, c⟩ := kc
    simp only [Memory.wfFrom, Bool.and_eq_true, decide_eq_true_eq] at hw
    simp only [Memory.put]
    split
    · rename_i h
      simp only [Memory.wfFrom, Bool.and_eq_true, decide_eq_true_eq]
      exact ⟨⟨hl, ha⟩, ⟨by omega, hw.1.2⟩, hw.2⟩
    · split
      · rename_i h
        simp only [Memory.wfFrom, Bool.and_eq_true, decide_eq_true_eq]
        exact ⟨⟨hl, ha⟩, h ▸ hw.2⟩
      · rename_i h h'
        simp only [Memory.wfFrom, Bool.and_eq_true, decide_eq_true_eq]
        exact ⟨hw.1, ih (k + 1) (by omega) hw.2⟩

/-- Writing a cell of the control store keeps the canonical form. -/
theorem Memory.wf_put (m : Memory) {a : Nat} (b : Byte) (ha : a < 0x5000) (hw : m.wf = true) :
    (m.put a b).wf = true := Memory.wfFrom_put m 0 a b (Nat.zero_le a) ha hw

theorem dataCell_lt (a : Addr) {k : Nat} (hk : k < 4) : dataCell a k < 0x4000 := by
  have := a.isLt; unfold dataCell; omega

theorem parityCell_lt (a : Addr) : parityCell a < 0x5000 := by
  have := a.isLt; unfold parityCell; omega

/-- Writing a word keeps the canonical form. -/
theorem Memory.wf_writeWord (m : Memory) (a : Addr) (w : Word) (hw : m.wf = true) :
    (m.writeWord a w).wf = true := by
  unfold Memory.writeWord
  have h0 := dataCell_lt a (k := 0) (by omega)
  have h1 := dataCell_lt a (k := 1) (by omega)
  have h2 := dataCell_lt a (k := 2) (by omega)
  have h3 := dataCell_lt a (k := 3) (by omega)
  exact Memory.wf_put _ _ (parityCell_lt a) (Memory.wf_put _ _ (by omega) (Memory.wf_put _ _ (by omega)
    (Memory.wf_put _ _ (by omega) (Memory.wf_put _ _ (by omega) hw))))

/-! ### Words -/

/-- The four bytes of a word put together are the word. -/
theorem bytes_append (w : Word) :
    w.extractLsb' 24 8 ++ w.extractLsb' 16 8 ++ w.extractLsb' 8 8 ++ w.extractLsb' 0 8 = w := by
  apply BitVec.eq_of_getLsbD_eq
  intro k hk
  simp only [BitVec.getLsbD_append, BitVec.getLsbD_extractLsb']
  by_cases h0 : k < 8
  · simp [h0]
  · by_cases h1 : k < 16
    · simp [h0, show k - 8 < 8 by omega, show 8 + (k - 8) = k by omega]
    · by_cases h2 : k < 24
      · simp [h0, show ¬ k - 8 < 8 by omega, show k - 8 - 8 < 8 by omega, show 16 + (k - 8 - 8) = k by omega]
      · simp [h0, show ¬ k - 8 < 8 by omega, show ¬ k - 8 - 8 < 8 by omega, show k - 8 - 8 - 8 < 8 by omega,
          show 24 + (k - 8 - 8 - 8) = k by omega]

theorem mem_wordCells {a : Addr} {c : Nat} :
    c ∈ wordCells a ↔
      c = dataCell a 0 ∨ c = dataCell a 1 ∨ c = dataCell a 2 ∨ c = dataCell a 3 ∨ c = parityCell a := by
  simp [wordCells]

/-- The cells of two different words are different. -/
theorem wordCells_disjoint {a b : Addr} (h : b ≠ a) {c : Nat} (hc : c ∈ wordCells b) : c ∉ wordCells a := by
  have hab : b.toNat ≠ a.toNat := fun e => h (BitVec.eq_of_toNat_eq e)
  have := a.isLt; have := b.isLt
  rw [mem_wordCells] at hc ⊢
  unfold dataCell parityCell at *
  omega

/-- A cell outside a written word reads as before. -/
theorem Memory.byteAt_writeWord_of_not_mem (m : Memory) {a : Addr} (w : Word) {c : Nat} (hc : c ∉ wordCells a) :
    (m.writeWord a w).byteAt c = m.byteAt c := by
  rw [mem_wordCells] at hc
  push Not at hc
  obtain ⟨h0, h1, h2, h3, hp⟩ := hc
  simp only [Memory.writeWord, Memory.byteAt_put, h0, h1, h2, h3, hp, ite_false]

/-- The cells of a written word. -/
theorem Memory.byteAt_writeWord_cells (m : Memory) (a : Addr) (w : Word) :
    (m.writeWord a w).byteAt (dataCell a 0) = some (w.extractLsb' 24 8) ∧
    (m.writeWord a w).byteAt (dataCell a 1) = some (w.extractLsb' 16 8) ∧
    (m.writeWord a w).byteAt (dataCell a 2) = some (w.extractLsb' 8 8) ∧
    (m.writeWord a w).byteAt (dataCell a 3) = some (w.extractLsb' 0 8) ∧
    (m.writeWord a w).byteAt (parityCell a) = some (parityByte w) := by
  have := a.isLt
  simp only [Memory.writeWord, Memory.byteAt_put, dataCell, parityCell]
  have e0 : 4 * a.toNat + 0 ≠ 16384 + a.toNat ∧ 4 * a.toNat + 0 ≠ 4 * a.toNat + 3 ∧
      4 * a.toNat + 0 ≠ 4 * a.toNat + 2 ∧ 4 * a.toNat + 0 ≠ 4 * a.toNat + 1 := by omega
  have e1 : 4 * a.toNat + 1 ≠ 16384 + a.toNat ∧ 4 * a.toNat + 1 ≠ 4 * a.toNat + 3 ∧
      4 * a.toNat + 1 ≠ 4 * a.toNat + 2 := by omega
  have e2 : 4 * a.toNat + 2 ≠ 16384 + a.toNat ∧ 4 * a.toNat + 2 ≠ 4 * a.toNat + 3 := by omega
  have e3 : 4 * a.toNat + 3 ≠ 16384 + a.toNat := by omega
  refine ⟨?_, ?_, ?_, ?_, ?_⟩
  · rw [if_neg e0.1, if_neg e0.2.1, if_neg e0.2.2.1, if_neg e0.2.2.2, if_pos trivial]
  · rw [if_neg e1.1, if_neg e1.2.1, if_neg e1.2.2, if_pos trivial]
  · rw [if_neg e2.1, if_neg e2.2, if_pos trivial]
  · rw [if_neg e3, if_pos trivial]
  · rw [if_pos trivial]

/-- A written word is read back, and passes its parity check (R66). -/
@[simp] theorem Memory.wordAt_writeWord_self (m : Memory) (a : Addr) (w : Word) :
    (m.writeWord a w).wordAt a = some w := by
  obtain ⟨h0, h1, h2, h3, hp⟩ := Memory.byteAt_writeWord_cells m a w
  simp only [Memory.wordAt, h0, h1, h2, h3, hp]
  rw [bytes_append, if_pos rfl]

/-- Reading another word is unchanged by a write. -/
theorem Memory.wordAt_congr {m m' : Memory} {a : Addr} (h : ∀ c ∈ wordCells a, m'.byteAt c = m.byteAt c) :
    m'.wordAt a = m.wordAt a := by
  simp only [Memory.wordAt]
  rw [h _ (by simp [wordCells]), h _ (by simp [wordCells]), h _ (by simp [wordCells]), h _ (by simp [wordCells]),
    h _ (by simp [wordCells])]

@[simp] theorem Memory.wordAt_writeWord_ne (m : Memory) {a b : Addr} (h : b ≠ a) (w : Word) :
    (m.writeWord a w).wordAt b = m.wordAt b :=
  Memory.wordAt_congr fun _ hc => Memory.byteAt_writeWord_of_not_mem m w (wordCells_disjoint h hc)

/-- Writing a word keeps every written word readable and every other word unlisted. -/
theorem Memory.parityGood_writeWord (m : Memory) (a : Addr) (w : Word) (h : m.parityGood) :
    (m.writeWord a w).parityGood := by
  intro b
  by_cases hb : b = a
  · subst hb; left; simp
  · rw [Memory.wordAt_writeWord_ne m hb]
    refine (h b).imp id fun hn => ⟨fun k hk => ?_, ?_⟩
    · rw [Memory.byteAt_writeWord_of_not_mem m w (wordCells_disjoint hb ?_)]
      · exact hn.1 k hk
      · rw [mem_wordCells]; interval_cases k <;> simp
    · rw [Memory.byteAt_writeWord_of_not_mem m w (wordCells_disjoint hb ?_)]
      · exact hn.2
      · rw [mem_wordCells]; simp

theorem Memory.parityGood_nil : Memory.parityGood [] :=
  fun _ => Or.inr ⟨fun _ _ => rfl, rfl⟩

/-! ### The same for the state -/

variable (s : State)

@[simp] theorem State.memRead_memWrite_self (a : Addr) (v : Word) : (s.memWrite a v).memRead a = some v := by
  simp [State.memRead]

@[simp] theorem State.memRead_memWrite_ne {a b : Addr} (h : b ≠ a) (v : Word) :
    (s.memWrite a v).memRead b = s.memRead b := by
  simp [State.memRead, h]

/-- A store changes no cell outside the word stored to. -/
theorem State.memWrite_sameStoreExcept (a : Addr) (v : Word) : SameStoreExcept a s (s.memWrite a v) :=
  fun _ hc => Memory.byteAt_writeWord_of_not_mem s.store v hc

end Sys2Proof.Machine
end

