-- ==== Sys2Proof/Laws/Ops.lean ====
section
/-! SUPPORT. What each shared operation does, said once. -/

namespace Sys2Proof.Machine

open Host

variable (s : State)

/-! ### Registers and pointer modification -/

/-- A register write, as a change of one register's stored bits (R31). -/
theorem State.raw_writeReg_eq_update (r : RegNo) (v : Word) :
    (s.writeReg r v).raw = Function.update s.raw r (stored r v) := by
  funext i
  rw [State.raw_writeReg, Function.update_apply]
  rfl

/-- A register read, as what is seen of its stored bits (R30). -/
theorem State.readReg_eq_seen (r : RegNo) : s.readReg r = seen s.busy r (s.raw r) := by
  by_cases h : r = 0#3
  · subst h; rfl
  · simp [seen, h]

/-- A register that holds the stored bits of a value has got the value. -/
theorem gets_of_stored {r : RegNo} {v : Word} {t : State} (h : t.raw r = stored r v) : Gets r v t := by
  intro k hk h0
  rw [h, stored]
  split
  · rename_i hr
    have : k ≠ 24 := fun e => h0 e hr
    rw [getLsbD_clear24]; simp [this]
  · rfl

theorem State.gets_writeReg (r : RegNo) (v : Word) : Gets r v (s.writeReg r v) :=
  gets_of_stored (by rw [State.raw_writeReg, if_pos rfl]; rfl)

theorem State.raw_bump (r : RegNo) (val : BitVec 4) : (s.bump r val).raw = bumpIn s.busy true r val s.raw := by
  unfold State.bump
  rw [State.raw_writeReg_eq_update, State.readReg_eq_seen]
  rfl

/-- The modification step on the stored bits of the registers (R283). -/
theorem State.raw_modify (cf df : RegNo) (ef : BitVec 2) (val : BitVec 4) :
    (s.modify cf df ef val).raw = modifiedRegs s.busy cf df ef val s.raw := by
  have e : (if ef.getLsbD 0 then s.bump df val else s).busy = s.busy := by split <;> rfl
  have e0 : (if ef.getLsbD 0 then s.bump df val else s).raw = bumpIn s.busy (ef.getLsbD 0) df val s.raw := by
    cases ef.getLsbD 0
    · rfl
    · exact s.raw_bump df val
  have e1 : (s.modify cf df ef val).raw =
      bumpIn (if ef.getLsbD 0 then s.bump df val else s).busy (ef.getLsbD 1) cf val
        (if ef.getLsbD 0 then s.bump df val else s).raw := by
    show (if ef.getLsbD 1 then State.bump _ cf val else _ : State).raw = _
    cases ef.getLsbD 1
    · rfl
    · exact State.raw_bump _ cf val
  rw [e1, e, e0]
  rfl

theorem bumpIn_of_ne {r i : RegNo} (h : i ≠ r) (busy on : Bool) (val : BitVec 4) (x : RegNo → Word) :
    bumpIn busy on r val x i = x i := by
  unfold bumpIn; split
  · rw [Function.update_of_ne h]
  · rfl

theorem modifiedRegs_of_ne {cf df i : RegNo} (hc : i ≠ cf) (hd : i ≠ df) (busy : Bool) (ef : BitVec 2)
    (val : BitVec 4) (x : RegNo → Word) : modifiedRegs busy cf df ef val x i = x i := by
  unfold modifiedRegs; rw [bumpIn_of_ne hc, bumpIn_of_ne hd]

/-- The modification step changes nothing but the two registers, and ends the microinstruction (R283). -/
theorem State.modify_frame (cf df : RegNo) (ef : BitVec 2) (val : BitVec 4) :
    RightFrame [cf, df] s (s.modify cf df ef val) := by
  have key : ∀ t : State, (t = s ∨ t = s.bump df val) →
      SameStore s (if ef.getLsbD 1 then t.bump cf val else t) ∧ SameBus s (if ef.getLsbD 1 then t.bump cf val else t) ∧
      SameOutside s (if ef.getLsbD 1 then t.bump cf val else t) := by
    rintro t (rfl | rfl) <;> split <;>
      exact ⟨fun _ => rfl, ⟨rfl, rfl⟩, rfl, rfl, rfl, rfl, rfl⟩
  have h := key (if ef.getLsbD 0 then s.bump df val else s) (by split <;> simp)
  exact ⟨h.1, fun r hr => by
    simp only [List.mem_cons, List.not_mem_nil, or_false, not_or] at hr
    rw [State.raw_modify, modifiedRegs_of_ne hr.1 hr.2], h.2.1, h.2.2, rfl⟩

/-! ### Condition codes -/

/-- A number of trues, from a list's parity. -/
theorem foldl_xor_countP (w : Word) (l : List Nat) (b : Bool) :
    l.foldl (fun p i => p ^^ w.getLsbD i) b = (b ^^ decide (l.countP (fun k => w.getLsbD k) % 2 = 1)) := by
  induction l generalizing b with
  | nil => simp
  | cons x xs ih =>
    rw [List.foldl_cons, ih, List.countP_cons]
    cases h : w.getLsbD x
    · simp
    · have : (List.countP (fun k => w.getLsbD k) xs + 1) % 2 = 1 ↔ ¬ List.countP (fun k => w.getLsbD k) xs % 2 = 1 := by
        omega
      simp only [ite_true, this]
      cases b <;> by_cases h2 : List.countP (fun k => w.getLsbD k) xs % 2 = 1 <;> simp [h2]

/-- `parity` is 1 for an odd number of one bits (R34). -/
theorem parity_eq_onesOf (w : Word) : parity w = decide (onesOf w % 2 = 1) := by
  rw [parity, foldl_xor_countP, onesOf]; simp

/-- PARITY_SENSE as decided: P is 1 for odd (C1). -/
@[simp] theorem parityCode_decided (odd : Bool) : parityCode Config.paritySense odd = odd := rfl

/-- PTRMOD_EF3 as decided (D14). -/
@[simp] theorem ptrmodResult_decided (c d : Word) : ptrmodResult Config.ptrmodEf3 c d = c - d - 1#32 := rfl

/-- `SetCC` shows the codes of its result and leaves bits 24-0 (R36). -/
theorem State.setCC_shows (res : Word) (c v : Bool) : ShowsCodes (s.setCC res c v) res (v = true) := by
  have bit : ∀ k, 25 ≤ k → ((s.setCC res c v).raw 0#3).getLsbD k = (codesOf res c v).getLsbD (k - 25) := fun k hk => by
    rw [State.getLsbD_raw_setCC, if_neg (by omega)]
  refine ⟨?_, ?_, ?_, ?_, ?_, ?_⟩
  · rw [State.resultClass_setCC]
    unfold Machine.resultClass
    cases v <;> simp
    split
    · decide
    · split <;> decide
  · intro hv
    have hv : v = false := by simpa using hv
    subst hv
    rw [State.resultClass_setCC]
    unfold Machine.resultClass
    have h0 : res = 0#32 ↔ res.toInt = 0 := by
      rw [← BitVec.toInt_inj]; simp
    have hm : res.getLsbD 31 = true ↔ res.toInt < 0 := by
      have h := BitVec.msb_eq_toInt (x := res)
      rw [BitVec.msb_eq_getLsbD_last] at h
      simp only [show 32 - 1 = 31 from rfl] at h
      rw [h, decide_eq_true_iff]
    simp only [Bool.false_eq_true, ite_false, h0, hm]
  · rw [bit 28 (by omega)]; simp only [codesOf, BitVec.getLsbD_append, BitVec.getLsbD_ofBool]; simp
  · rw [bit 27 (by omega)]; simp only [codesOf, BitVec.getLsbD_append, BitVec.getLsbD_ofBool]; simp
  · rw [bit 26 (by omega)]
    have : res = 0xFFFFFFFF#32 ↔ res.toNat = 2 ^ 32 - 1 := by rw [← BitVec.toNat_inj]; simp
    have h0 : res = 0#32 ↔ res.toNat = 0 := by rw [← BitVec.toNat_inj]; simp
    simp only [codesOf, BitVec.getLsbD_append, BitVec.getLsbD_ofBool]
    simp [this, h0]
  · rw [bit 25 (by omega), ← decide_eq_true_iff (p := onesOf res % 2 = 1), ← parity_eq_onesOf]
    simp only [codesOf, BitVec.getLsbD_append, BitVec.getLsbD_ofBool]
    simp

theorem State.setCC_belowCodes (res : Word) (c v : Bool) :
    ((s.setCC res c v).raw 0#3).extractLsb' 0 25 = (s.raw 0#3).extractLsb' 0 25 := by
  apply BitVec.eq_of_getLsbD_eq
  intro k hk
  simp [State.getLsbD_raw_setCC, hk]

/-- A result and its codes written one after the other (R38). -/
theorem State.holdsResult (af : RegNo) (res res' : Word) (c v : Bool) :
    HoldsResult af res s ((s.writeReg af res).setCC res' c v) := by
  refine ⟨fun h => ⟨by simp [h], ?_⟩, fun h => ?_⟩
  · unfold SameBelowCodes; rw [State.setCC_belowCodes, State.raw_writeReg_ne _ h.symm]
  · subst h; rw [State.setCC_belowCodes]; simp [stored]

end Sys2Proof.Machine
end

