-- ==== Sys2Proof/Laws/Alu.lean ====
section
/-! SUPPORT. The adder against exact arithmetic (R192), the shifter against repeated one-bit steps (R212, R213). -/

namespace Sys2Proof.Machine

/-! ### The adder -/

theorem toNat_sum33 (a b : Word) (c : Bool) : (sum33 a b c).toNat = a.toNat + b.toNat + c.toNat := by
  have ha := a.isLt; have hb := b.isLt
  have hc : c.toNat ≤ 1 := Bool.toNat_le c
  simp only [sum33, BitVec.toNat_add, BitVec.toNat_setWidth, BitVec.toNat_ofBool]
  omega

/-- The 32-bit sum, exactly. -/
theorem toNat_addResult (a b : Word) (c : Bool) :
    (addResult a b c).toNat = (a.toNat + b.toNat + c.toNat) % 2 ^ 32 := by
  rw [addResult, BitVec.toNat_setWidth, toNat_sum33]

/-- The carry out, exactly. -/
theorem carryOut_iff (a b : Word) (c : Bool) :
    carryOut a b c = true ↔ 2 ^ 32 ≤ a.toNat + b.toNat + c.toNat := by
  have ha := a.isLt; have hb := b.isLt
  have hc : c.toNat ≤ 1 := Bool.toNat_le c
  rw [carryOut, BitVec.getLsbD, Nat.testBit_eq_decide_div_mod_eq, toNat_sum33, decide_eq_true_iff]
  omega

/-- The carry into the sign bit, exactly. -/
theorem carryIntoSign_iff (a b : Word) (c : Bool) :
    carryIntoSign a b c = true ↔ 2 ^ 31 ≤ a.toNat % 2 ^ 31 + b.toNat % 2 ^ 31 + c.toNat := by
  have hc : c.toNat ≤ 1 := Bool.toNat_le c
  rw [carryIntoSign, BitVec.getLsbD, Nat.testBit_eq_decide_div_mod_eq, decide_eq_true_iff]
  simp only [BitVec.toNat_add, BitVec.toNat_setWidth, BitVec.extractLsb'_toNat, BitVec.toNat_ofBool, Nat.shiftRight_zero]
  omega

/-- Overflow: the exact signed sum does not fit in 32 bits. -/
theorem addOverflow_iff (a b : Word) (c : Bool) :
    addOverflow a b c = true ↔ outOfRange (a.toInt + b.toInt + c.toNat) := by
  have ha := a.isLt; have hb := b.isLt
  have hc : c.toNat ≤ 1 := Bool.toNat_le c
  have h1 := carryOut_iff a b c
  have h2 := carryIntoSign_iff a b c
  rw [addOverflow, bne_iff_ne, ne_eq, Bool.eq_iff_iff, h1, h2, outOfRange, BitVec.toInt_eq_toNat_cond,
    BitVec.toInt_eq_toNat_cond]
  split <;> split <;> omega

/-- The 32-bit sum is the exact signed sum, wrapped. -/
theorem addResult_eq_ofInt (a b : Word) (c : Bool) :
    addResult a b c = BitVec.ofInt 32 (a.toInt + b.toInt + c.toNat) := by
  apply BitVec.eq_of_toNat_eq
  have ha := a.isLt; have hb := b.isLt
  rw [toNat_addResult, BitVec.toNat_ofInt, BitVec.toInt_eq_toNat_cond, BitVec.toInt_eq_toNat_cond]
  split <;> split <;> omega

theorem toInt_not (b : Word) : (~~~b).toInt = -b.toInt - 1 := by
  have hb := b.isLt
  rw [BitVec.toInt_eq_toNat_cond, BitVec.toInt_eq_toNat_cond, BitVec.toNat_not]
  split <;> split <;> omega

/-- What the adder is given for each function gives that function's exact value. -/
theorem AluFn.addend_exact (fn : AluFn) (a b : Word) (c : Bool) :
    a.toInt + (fn.addend b).toInt + (fn.carryIn c).toNat = exactValue fn a b c := by
  cases fn <;> simp only [AluFn.addend, AluFn.carryIn, exactValue, toInt_not, Bool.toNat_true, Bool.toNat_false] <;> omega

theorem AluFn.addend_carries (fn : AluFn) (a b : Word) (c : Bool) :
    carryOut a (fn.addend b) (fn.carryIn c) = true ↔ carries fn a b c := by
  have ha := a.isLt; have hb := b.isLt
  have hc : c.toNat ≤ 1 := Bool.toNat_le c
  rw [carryOut_iff]
  cases fn <;>
    simp only [AluFn.addend, AluFn.carryIn, carries, BitVec.toNat_not, Bool.toNat_true, Bool.toNat_false] <;> omega

/-! ### The shifter -/

theorem oneStep_eq_step32 (ty : ShiftTy) (v : BitVec 32) : ty.oneStep v = step32 ty v := by
  apply BitVec.eq_of_getLsbD_eq
  intro k hk
  cases ty <;>
    simp only [ShiftTy.oneStep, step32, BitVec.getLsbD_append, BitVec.getLsbD_extractLsb', BitVec.getLsbD_rotateLeft,
      BitVec.getLsbD_shiftLeft, BitVec.getLsbD_ushiftRight, BitVec.getLsbD_sshiftRight, Nat.zero_add]
  all_goals
    first
    | (by_cases h : k < 1
       · have : k = 0 := by omega
         subst this; simp
       · simp [h, show k - 1 < 31 by omega, hk])
    | (by_cases h : k < 31
       · simp [h, show ¬ 32 ≤ k by omega, Nat.add_comm 1 k, show k + 1 < 32 by omega]
       · have : k = 31 := by omega
         subst this; simp [BitVec.msb_eq_getLsbD_last])

theorem oneStep_eq_step64 (ty : ShiftTy) (v : BitVec 64) : ty.oneStep v = step64 ty v := by
  apply BitVec.eq_of_getLsbD_eq
  intro k hk
  cases ty <;>
    simp only [ShiftTy.oneStep, step64, BitVec.getLsbD_append, BitVec.getLsbD_extractLsb', BitVec.getLsbD_rotateLeft,
      BitVec.getLsbD_shiftLeft, BitVec.getLsbD_ushiftRight, BitVec.getLsbD_sshiftRight, Nat.zero_add]
  all_goals
    first
    | (by_cases h : k < 1
       · have : k = 0 := by omega
         subst this; simp
       · simp [h, show k - 1 < 63 by omega, hk])
    | (by_cases h : k < 63
       · simp [h, show ¬ 64 ≤ k by omega, Nat.add_comm 1 k, show k + 1 < 64 by omega]
       · have : k = 63 := by omega
         subst this; simp [BitVec.msb_eq_getLsbD_last])

theorem shift_zero {n : Nat} (ty : ShiftTy) (v : BitVec n) : ty.shift v 0 = v := by
  cases ty
  · apply BitVec.eq_of_getLsbD_eq
    intro k hk
    simp [ShiftTy.shift, hk]
  · simp [ShiftTy.shift]
  · simp [ShiftTy.shift]
  · simp [ShiftTy.shift]

/-- One more bit of shift is one more one-bit step. -/
theorem shift_succ {n : Nat} (hn : 1 < n) (ty : ShiftTy) (v : BitVec n) (k : Nat) :
    ty.shift v (k + 1) = ty.oneStep (ty.shift v k) := by
  cases ty
  · have hk : k % n < n := Nat.mod_lt _ (by omega)
    have h1 : 1 % n = 1 := Nat.mod_eq_of_lt hn
    have hs : (k + 1) % n = if k % n + 1 = n then 0 else k % n + 1 := by
      rw [Nat.add_mod, h1]
      split
      · rename_i h; rw [h, Nat.mod_self]
      · exact Nat.mod_eq_of_lt (by omega)
    apply BitVec.eq_of_getLsbD_eq
    intro i hi
    simp only [ShiftTy.shift, ShiftTy.oneStep, BitVec.getLsbD_rotateLeft, Bool.cond_decide, h1, Nat.mod_mod, hs]
    by_cases he : k % n + 1 = n
    · simp only [if_pos he, Nat.zero_mod, Nat.not_lt_zero, ite_false, Nat.sub_zero, hi, decide_true, Bool.true_and]
      by_cases h0 : i < 1
      · have : i = 0 := by omega
        subst this
        simp only [Nat.zero_lt_one, ite_true, Nat.add_zero, show n - 1 < n by omega]
        rw [if_neg (by omega)]; congr 1; omega
      · simp only [h0, ite_false]
        rw [if_pos (by omega)]
        congr 1; omega
    · rw [if_neg he, Nat.mod_eq_of_lt (by omega : k % n + 1 < n)]
      simp only [hi, decide_true, Bool.true_and]
      by_cases h0 : i < 1
      · have : i = 0 := by omega
        subst this
        simp only [Nat.zero_lt_one, ite_true, Nat.add_zero, show n - 1 < n by omega, decide_true, Bool.true_and]
        rw [if_pos (by omega), if_neg (by omega)]
        congr 1; omega
      · simp only [h0, ite_false, show i - 1 < n by omega, decide_true, Bool.true_and]
        by_cases h2 : i - 1 < k % n
        · rw [if_pos (by omega), if_pos h2]; congr 1; omega
        · rw [if_neg (by omega), if_neg h2]; congr 1; omega
  · simp only [ShiftTy.shift, ShiftTy.oneStep, BitVec.shiftLeft_add]
  · simp only [ShiftTy.shift, ShiftTy.oneStep, BitVec.shiftRight_add]
  · simp only [ShiftTy.shift, ShiftTy.oneStep, BitVec.sshiftRight_add]

end Sys2Proof.Machine
end

