-- ==== Sys2Proof/Laws/Families.lean ====
section
/-! SUPPORT. One lemma for each operation that the instructions of a family share, and for taking a parity fault or an
interrupt, saying all it does. -/

namespace Sys2Proof.Machine

open Host

variable (s : State)

/-! ### Left halves -/

/-- A left half that wrote registers only has the frame of a left half. -/
theorem leftFrame_afterT {rs : List RegNo} {t : State} (skip : Bool) (acf : Acf) (hs : t.store = s.store)
    (hr : SameRegsExcept rs s t) (hb : SameBus s t) (ho : SameOutside s t) :
    LeftFrame rs skip acf s (t.afterT skip acf) :=
  ⟨fun c => congrArg (fun m => Memory.byteAt m c) hs, hr, hb, ho, rfl⟩

/-- A LOGICAL microinstruction: the function of both operands, with the codes of its result (R161). -/
theorem State.logical_spec (f : Word → Word → Word) (imm : Bool) (bf af : RegNo) (acf : Acf) :
    HoldsResult af (f (s.readReg af) (s.operand2 imm bf acf)) s (s.logical f imm bf af acf) ∧
    ShowsCodes (s.logical f imm bf af acf) (f (s.readReg af) (s.operand2 imm bf acf)) False ∧
    LeftFrame [0#3, af] imm acf s (s.logical f imm bf af acf) := by
  refine ⟨?_, ?_, ?_⟩
  · obtain ⟨h1, h2⟩ := s.holdsResult af (f (s.readReg af) (s.operand2 imm bf acf)) (f (s.readReg af) (s.operand2 imm bf acf))
      (Config.freeBit s.draws) false
    exact ⟨h1, h2⟩
  · obtain ⟨h1, h2, h3, h4, h5, h6⟩ := (s.writeReg af (f (s.readReg af) (s.operand2 imm bf acf))).setCC_shows
      (f (s.readReg af) (s.operand2 imm bf acf)) (Config.freeBit s.draws) false
    have hf : (false = true) = False := by simp
    rw [hf] at h1 h2
    exact ⟨h1, h2, h3, h4, h5, h6⟩
  · refine leftFrame_afterT s imm acf rfl ?_ ⟨rfl, rfl⟩ ⟨rfl, rfl, rfl, rfl, rfl⟩
    intro r hr
    simp only [List.mem_cons, List.not_mem_nil, or_false, not_or] at hr
    rw [State.drawn_raw, State.raw_setCC_ne _ hr.1, State.raw_writeReg_ne _ hr.2]

/-- An ARITHMETIC microinstruction: the exact sum, its codes, and the result kept or not (R192). -/
theorem State.arithmetic_spec (fn : AluFn) (keep imm w : Bool) (bf af : RegNo) (acf : Acf) :
    ∃ res, ArithmeticEffect fn (s.readReg af) (s.arithOperand imm w bf acf) s.carry res
        (s.arithmetic fn keep imm w bf af acf) ∧
      (keep = true → HoldsResult af res s (s.arithmetic fn keep imm w bf af acf)) ∧
      (keep = false → SameBelowCodes s (s.arithmetic fn keep imm w bf af acf)) ∧
      LeftFrame (if keep then [0#3, af] else [0#3]) imm acf s (s.arithmetic fn keep imm w bf af acf) := by
  refine ⟨addResult (s.readReg af) (fn.addend (s.arithOperand imm w bf acf)) (fn.carryIn s.carry), ⟨?_, ?_, ?_⟩, ?_, ?_, ?_⟩
  · rw [addResult_eq_ofInt, AluFn.addend_exact]
  · show (State.setCC _ _ _ _).carry = true ↔ _
    rw [State.carry_setCC, AluFn.addend_carries]
  · rw [← AluFn.addend_exact]
    obtain ⟨h1, h2, h3, h4, h5, h6⟩ := (if keep then s.writeReg af _ else s : State).setCC_shows
      (addResult (s.readReg af) (fn.addend (s.arithOperand imm w bf acf)) (fn.carryIn s.carry))
      (carryOut (s.readReg af) (fn.addend (s.arithOperand imm w bf acf)) (fn.carryIn s.carry))
      (addOverflow (s.readReg af) (fn.addend (s.arithOperand imm w bf acf)) (fn.carryIn s.carry))
    rw [addOverflow_iff] at h1 h2
    exact ⟨h1, h2, h3, h4, h5, h6⟩
  · rintro rfl
    obtain ⟨h1, h2⟩ := s.holdsResult af (addResult (s.readReg af) (fn.addend (s.arithOperand imm w bf acf)) (fn.carryIn s.carry))
      (addResult (s.readReg af) (fn.addend (s.arithOperand imm w bf acf)) (fn.carryIn s.carry)) _ _
    exact ⟨h1, h2⟩
  · rintro rfl
    exact State.setCC_belowCodes s _ _ _
  · cases keep
    · refine leftFrame_afterT s imm acf rfl ?_ ⟨rfl, rfl⟩ ⟨rfl, rfl, rfl, rfl, rfl⟩
      intro r hr
      simp only [Bool.false_eq_true, ite_false, List.mem_cons, List.not_mem_nil, or_false] at hr
      exact State.raw_setCC_ne _ hr _ _ _
    · refine leftFrame_afterT s imm acf rfl ?_ ⟨rfl, rfl⟩ ⟨rfl, rfl, rfl, rfl, rfl⟩
      intro r hr
      simp only [ite_true, List.mem_cons, List.not_mem_nil, or_false, not_or] at hr
      exact (State.raw_setCC_ne _ hr.1 _ _ _).trans (State.raw_writeReg_ne _ hr.2 _)

/-- A left half that writes one register and no condition code. -/
theorem State.writeReg_left (r : RegNo) (v : Word) (skip : Bool) (acf : Acf) :
    Gets r v ((s.writeReg r v).afterT skip acf) ∧ LeftFrame [r] skip acf s ((s.writeReg r v).afterT skip acf) := by
  refine ⟨s.gets_writeReg r v, leftFrame_afterT s skip acf rfl ?_ ⟨rfl, rfl⟩ ⟨rfl, rfl, rfl, rfl, rfl⟩⟩
  intro i hi
  simp only [List.mem_cons, List.not_mem_nil, or_false] at hi
  rw [State.raw_writeReg_ne _ hi]

/-- The stored bits after a pair is written (R23). -/
theorem State.raw_writePair (r i : RegNo) (q : BitVec 64) :
    (s.writePair r q).raw i = if i = r then stored r (q.extractLsb' 32 32)
      else if i = pairOf r then stored (pairOf r) (q.extractLsb' 0 32) else s.raw i := by
  unfold State.writePair
  rw [State.raw_writeReg_eq_update, State.raw_writeReg_eq_update, Function.update_apply, Function.update_apply]
  by_cases h : i = r
  · subst h; simp only [(pairOf_ne i).symm, ite_true, ite_false]
  · simp only [h, ite_false]

/-- A left half that writes a pair and no condition code. -/
theorem State.writePair_left (r : RegNo) (q : BitVec 64) (skip : Bool) (acf : Acf) :
    HoldsPair r q ((s.writePair r q).afterT skip acf) ∧
    LeftFrame [r, r ^^^ 1#3] skip acf s ((s.writePair r q).afterT skip acf) := by
  refine ⟨⟨gets_of_stored ?_, gets_of_stored ?_⟩, leftFrame_afterT s skip acf rfl ?_ ⟨rfl, rfl⟩ ⟨rfl, rfl, rfl, rfl, rfl⟩⟩
  · rw [State.afterT_raw, State.raw_writePair, if_pos rfl]
  · rw [State.afterT_raw, State.raw_writePair]; exact (if_neg (pairOf_ne r)).trans (if_pos rfl)
  · intro i hi
    simp only [List.mem_cons, List.not_mem_nil, or_false, not_or] at hi
    rw [State.raw_writePair, if_neg hi.1]; exact if_neg hi.2

/-! ### Right halves -/

/-- A right half that writes one register. -/
theorem State.writeReg_right (r : RegNo) (v : Word) :
    Gets r v (s.writeReg r v).endA ∧ RightFrame [r] s (s.writeReg r v).endA := by
  refine ⟨s.gets_writeReg r v, fun _ => rfl, ?_, ⟨rfl, rfl⟩, ⟨rfl, rfl, rfl, rfl, rfl⟩, rfl⟩
  intro i hi
  simp only [List.mem_cons, List.not_mem_nil, or_false] at hi
  rw [State.endA_raw, State.raw_writeReg_ne _ hi]

/-- Bits 31-12 of register 0 survive a write of MAR (R27). -/
theorem State.setMar_aboveMar (m : Addr) : SameAboveMar s (s.setMar m) := by
  apply BitVec.eq_of_getLsbD_eq
  intro k hk
  simp [State.getLsbD_raw_setMar, hk]

theorem State.raw_setMar_low (m : Addr) : ((s.setMar m).raw 0#3).extractLsb' 0 12 = m := s.mar_setMar m

theorem loopTest_iff (xop : BitVec 3) (r : Word) : loopTest xop r = true ↔ Loops xop r := by
  simp [loopTest, Loops, or_assoc]

/-- POINTER MODIFICATION: the result, the loop and the frame (R311). -/
theorem State.pointerMod_spec (cf : RegNo) (r : Word) (xop : BitVec 3) (val : BitVec 4) :
    let zero := if cf = 0#3 then stored 0#3 r else s.raw 0#3
    let t := s.pointerMod cf r xop val
    (cf ≠ 0#3 → t.raw cf = r) ∧
    (Loops xop r → t.mar = zero.extractLsb' 0 12 + val.signExtend 12) ∧
    (¬ Loops xop r → t.mar = zero.extractLsb' 0 12) ∧
    (t.raw 0#3).extractLsb' 12 20 = zero.extractLsb' 12 20 ∧ RightFrame [0#3, cf] s t := by
  intro zero t
  have hz : (s.writeReg cf r).raw 0#3 = zero := by
    rw [State.raw_writeReg_eq_update, Function.update_apply]
    by_cases h : cf = 0#3
    · subst h; rfl
    · simp only [zero, h, Ne.symm h, ite_false]
  have hm : (s.writeReg cf r).mar = zero.extractLsb' 0 12 := by rw [State.mar, hz]
  have ht : t = ((if loopTest xop r then (s.writeReg cf r).branchBy val else s.writeReg cf r) : State).endA := rfl
  rw [← loopTest_iff]
  cases hl : loopTest xop r <;> rw [hl] at ht
  · simp only [Bool.false_eq_true, ite_false] at ht
    rw [ht]
    refine ⟨fun h => by simp [h], nofun, fun _ => hm, by rw [State.endA_raw, hz], fun _ => rfl, ?_, ⟨rfl, rfl⟩,
      ⟨rfl, rfl, rfl, rfl, rfl⟩, rfl⟩
    intro i hi
    simp only [List.mem_cons, List.not_mem_nil, or_false, not_or] at hi
    rw [State.endA_raw, State.raw_writeReg_ne _ hi.2]
  · simp only [ite_true] at ht
    rw [ht]
    refine ⟨fun h => by simp [h], fun _ => by simp [hm], fun h => absurd rfl h, ?_, fun _ => rfl, ?_, ⟨rfl, rfl⟩,
      ⟨rfl, rfl, rfl, rfl, rfl⟩, rfl⟩
    · rw [State.endA_raw, State.branchBy, (s.writeReg cf r).setMar_aboveMar, hz]
    · intro i hi
      simp only [List.mem_cons, List.not_mem_nil, or_false, not_or] at hi
      rw [State.endA_raw, State.raw_branchBy_ne _ hi.1, State.raw_writeReg_ne _ hi.2]

/-! ### The parity fault -/

/-- Taking the parity fault (R331). -/
theorem State.parityFault_halts (mar : Option Addr) : ParityHalt s (s.parityFault mar) := by
  cases mar <;>
    exact ⟨rfl, State.halted_setHalted _ _, rfl, fun _ => rfl, ⟨rfl, rfl⟩, rfl, rfl, rfl, rfl⟩

/-- The fault of a fetch leaves MAR at the address or one more (R331). -/
theorem State.parityFault_mar (m : Addr) : (s.parityFault (some m)).mar = m := by
  apply BitVec.eq_of_getLsbD_eq
  intro k hk
  rw [State.mar, BitVec.getLsbD_extractLsb']
  simp only [hk, decide_true, Bool.true_and, Nat.zero_add]
  show ((State.setHalted (State.setMar _ m) true).raw 0#3).getLsbD k = _
  rw [State.getLsbD_raw_setHalted, if_neg (by omega), State.getLsbD_raw_setMar, if_pos hk]

theorem State.parityFault_bit24 (mar : Option Addr) : ((s.parityFault mar).raw 0#3).getLsbD 24 = false := by
  cases mar
  · show ((State.setHalted (State.writeReg _ 0#3 _) true).raw 0#3).getLsbD 24 = _
    rw [State.getLsbD_raw_setHalted, if_neg (by omega), State.raw_writeReg_zero, getLsbD_clear24]; simp
  · show ((State.setHalted (State.setMar (State.writeReg _ 0#3 _) _) true).raw 0#3).getLsbD 24 = _
    rw [State.getLsbD_raw_setHalted, if_neg (by omega), State.getLsbD_raw_setMar, if_neg (by omega),
      State.raw_writeReg_zero, getLsbD_clear24]; simp

/-- A checked read that passes goes on (R66). -/
theorem State.withWord_some {a : Addr} {w : Word} (h : s.memRead a = some w) (k : Word → State) :
    s.withWord a k = k w := by rw [State.withWord, h]

/-- A checked read that fails takes the parity fault (R66, R331). -/
theorem State.withWord_none {a : Addr} (h : s.memRead a = none) (k : Word → State) :
    s.withWord a k = s.parityFault none := by rw [State.withWord, h]

/-! ### The interrupt exchange -/

/-- The interrupt exchange through the pair at `e` (R353). -/
theorem State.interruptThrough_spec {e : Addr} {w : Word} (he : s.memRead e = some w) :
    (s.interruptThrough e).memRead (e + 1#12) = some (s.readReg 0#3) ∧
    SameStoreExcept (e + 1#12) s (s.interruptThrough e) ∧
    (s.interruptThrough e).raw 0#3 = stored 0#3 w ∧ SameRegsExcept [0#3] s (s.interruptThrough e) ∧
    SameBus s (s.interruptThrough e) ∧ SameOutside s (s.interruptThrough e) ∧
    (s.interruptThrough e).phase = s.phase := by
  have hne : e ≠ e + 1#12 := by
    intro h
    have h' := congrArg BitVec.toNat h
    rw [BitVec.toNat_add, show (1#12).toNat = 1 from rfl] at h'
    have := e.isLt
    omega
  have ht : s.interruptThrough e = (s.memWrite (e + 1#12) (s.readReg 0#3)).writeReg 0#3 w :=
    State.withWord_some _ (by rw [State.memRead_memWrite_ne _ hne, he]) _
  rw [ht]
  refine ⟨by simp, s.memWrite_sameStoreExcept _ _, by simp [stored], ?_, ⟨rfl, rfl⟩, ⟨rfl, rfl, rfl, rfl, rfl⟩, rfl⟩
  intro i hi
  simp only [List.mem_cons, List.not_mem_nil, or_false] at hi
  rw [State.raw_writeReg_ne _ hi]; rfl

/-- The exchange through a pair whose even word fails its parity check: the odd word is written, then the parity fault is
taken (R331, R353). -/
theorem State.interruptThrough_none {e : Addr} (he : s.memRead e = none) :
    s.interruptThrough e = (s.memWrite (e + 1#12) (s.readReg 0#3)).parityFault none := by
  have hne : e ≠ e + 1#12 := by
    intro h
    have h' := congrArg BitVec.toNat h
    rw [BitVec.toNat_add, show (1#12).toNat = 1 from rfl] at h'
    have := e.isLt
    omega
  exact State.withWord_none _ (by rw [State.memRead_memWrite_ne _ hne, he]) _

/-- The time-out interrupt that is performed (R358). -/
theorem State.timeoutInterrupt_some {w : Word} (h : s.memRead 0x04C#12 = some w) :
    s.timeoutInterrupt = (s.interruptThrough 0x04C#12).irqDone := by
  simp only [State.timeoutInterrupt, h, Option.isSome_some, ite_true]

/-- The time-out interrupt whose even word fails (R331, R358; log entry 36). -/
theorem State.timeoutInterrupt_none (h : s.memRead 0x04C#12 = none) :
    s.timeoutInterrupt = s.interruptThrough 0x04C#12 := by
  simp only [State.timeoutInterrupt, h, Option.isSome_none, Bool.false_eq_true, ite_false]

/-! ### The bus -/

/-- Issuing an operation and modifying the pointers: with the new operation outstanding, BUSY is 1 for the modification
(R35, R74, R283). -/
theorem State.issue_modify (p : Pending) (hp : p ≠ .none) (cf df : RegNo) (ef : BitVec 2) (val : BitVec 4) :
    let t := (s.issue p).modify cf df ef val
    t.pending = p ∧ t.access = .using ∧ (∀ r, t.raw r = modifiedRegs true cf df ef val s.raw r) ∧
    SameStore s t ∧ SameOutside s t ∧ t.phase = .ifetch := by
  intro t
  obtain ⟨h1, -, h3, h4, h5⟩ := (s.issue p).modify_frame cf df ef val
  refine ⟨h3.1, h3.2, fun r => ?_, h1, h4, h5⟩
  have hb : (s.issue p).busy = true := by simp [State.busy, hp]
  show ((s.issue p).modify cf df ef val).raw r = _
  rw [State.raw_modify, hb]
  rfl

/-- An accepted address: the operation is outstanding, the pointers are modified, the microinstruction is complete. -/
theorem State.accepted_spec (x : Sending) (hx : x.op ≠ .none) :
    (s.accepted x).pending = x.op ∧ (s.accepted x).access = .using ∧
    (∀ r, (s.accepted x).raw r = modifiedRegs true x.cf x.df x.ef x.val s.raw r) ∧
    SameStore s (s.accepted x) ∧ SameOutside s (s.accepted x) ∧ (s.accepted x).phase = .ifetch :=
  s.issue_modify x.op hx x.cf x.df x.ef x.val

theorem State.sendAddress_ready (h : s.busReady = true) (x : Sending) : s.sendAddress x = s.accepted x := if_pos h

theorem State.sendAddress_waits (h : s.busReady = false) (x : Sending) : s.sendAddress x = s.keepSending x := by
  rw [State.sendAddress, h]; rfl

/-- Ready means that no operation is outstanding and the bus is won. -/
theorem State.busReady_iff : s.busReady = true ↔ s.busy = false ∧ s.access.winnable = true := by
  simp [State.busReady]

/-- A CPU that goes on waiting is unchanged. -/
theorem State.keepSending_self {x : Sending} (h : s.phase = .sending x) : s.keepSending x = s := by
  cases s; cases h; rfl

/-- A bus form whose address word does not name the CPU sends its address (R283). -/
theorem State.busForm_sends {aw : Word} (h : namesCpu aw = false) (p : Pending) (cf df : RegNo) (ef : BitVec 2)
    (val : BitVec 4) : s.busForm aw p cf df ef val = .next (s.sendAddress ⟨p, cf, df, ef, val⟩) := by
  rw [State.busForm, h]; rfl

/-- A bus form whose address word names the CPU is refused (R81). -/
theorem State.busForm_self {aw : Word} (h : namesCpu aw = true) (p : Pending) (cf df : RegNo) (ef : BitVec 2)
    (val : BitVec 4) : s.busForm aw p cf df ef val = .refused .selfAddress := by
  rw [State.busForm, h]; rfl

/-- The address word of a read: bit 24 is 0, the rest as in the pointer (R73). -/
theorem getLsbD_readAddressWord (p : Word) {k : Nat} (_hk : k < 32) :
    (readAddressWord p).getLsbD k = if k = 24 then false else p.getLsbD k := by
  rw [readAddressWord, getLsbD_clear24]
  by_cases h : k = 24 <;> simp [h]

/-- The address word of a write: bit 24 is 1, the rest as in the pointer (R73). -/
theorem getLsbD_writeAddressWord (p : Word) {k : Nat} (hk : k < 32) :
    (writeAddressWord p).getLsbD k = if k = 24 then true else p.getLsbD k := by
  rw [writeAddressWord, BitVec.getLsbD_or]
  interval_cases k <;> simp

/-- Replacing bit 24 does not change the unit address (R72). -/
theorem unitOf_readAddressWord (p : Word) : unitOf (readAddressWord p) = p.extractLsb' 16 8 := by
  apply BitVec.eq_of_getLsbD_eq
  intro k hk
  rw [unitOf, BitVec.getLsbD_extractLsb', BitVec.getLsbD_extractLsb', getLsbD_readAddressWord _ (by omega),
    if_neg (by omega)]

theorem unitOf_writeAddressWord (p : Word) : unitOf (writeAddressWord p) = p.extractLsb' 16 8 := by
  apply BitVec.eq_of_getLsbD_eq
  intro k hk
  rw [unitOf, BitVec.getLsbD_extractLsb', BitVec.getLsbD_extractLsb', getLsbD_writeAddressWord _ (by omega),
    if_neg (by omega)]

end Sys2Proof.Machine
end

