-- ==== Sys2Proof/Laws/Cycle.lean ====
section
/-! SUPPORT. The step and the CPU's sequences, case by case: no proof need unfold them. -/

namespace Sys2Proof.Machine

open Host

variable {s : State}

/-- With no act to come the CPU runs alone. -/
theorem step_nil (h : s.schedule = []) : step s = s.runAlone := by
  show s.move = _
  rw [State.move, h]

/-- With an act to come it is performed. -/
theorem step_cons {a : Act} {rest : List Act} (h : s.schedule = a :: rest) :
    step s = s.perform (s.withSchedule rest) a := by
  show s.move = _
  rw [State.move, h]

theorem State.sequence_aSeq {acf : Acf} (h : s.phase = .aSeq acf) : s.sequence = exec (decodeA acf) s := by
  rw [State.sequence, h]

theorem State.sequence_stuck (h : s.phase = .stuck) : s.sequence = .next s := by
  rw [State.sequence, h]

theorem State.sequence_sending {x : Sending} (h : s.phase = .sending x) : s.sequence = .next (s.sendAddress x) := by
  rw [State.sequence, h]

theorem State.sequence_owed (h : s.phase = .ifetch) (hi : s.timeoutIrq = true) :
    s.sequence = .next s.timeoutInterrupt := by
  rw [State.sequence, h]; simp only [hi, ite_true]

theorem State.sequence_halted (h : s.phase = .ifetch) (hi : s.timeoutIrq = false) (hh : s.halted = true) :
    s.sequence = .next s := by
  rw [State.sequence, h]; simp only [hi, hh, Bool.false_eq_true, ite_false, ite_true]

theorem State.sequence_fetch (h : s.phase = .ifetch) (hi : s.timeoutIrq = false) (hh : s.halted = false) :
    s.sequence = s.fetchAndT := by
  rw [State.sequence, h]; simp only [hi, hh, Bool.false_eq_true, ite_false]

theorem State.fetchAndT_some {w : Word} (h : s.memRead s.mar = some w) : s.fetchAndT = exec (decodeT w) s.incMar := by
  rw [State.fetchAndT, h]

theorem State.fetchAndT_none (h : s.memRead s.mar = none) : s.fetchAndT = .next s.fetchFault := by
  rw [State.fetchAndT, h]

theorem State.runAlone_ifetch (h : s.phase = .ifetch) : s.runAlone = thenRightHalf s.sequence := by
  rw [State.runAlone, h]

theorem State.runAlone_aSeq {acf : Acf} (h : s.phase = .aSeq acf) : s.runAlone = exec (decodeA acf) s := by
  rw [State.runAlone, h]; exact State.sequence_aSeq h

theorem State.runAlone_sending {x : Sending} (h : s.phase = .sending x) : s.runAlone = .next (s.sendAddress x) := by
  rw [State.runAlone, h]; exact State.sequence_sending h

theorem State.runAlone_stuck (h : s.phase = .stuck) : s.runAlone = .next s := by
  rw [State.runAlone, h]; exact State.sequence_stuck h

theorem thenRightHalf_aSeq {t : State} {acf : Acf} (h : t.phase = .aSeq acf) :
    thenRightHalf (.next t) = exec (decodeA acf) t := by
  simp only [thenRightHalf, h]

theorem thenRightHalf_ifetch {t : State} (h : t.phase = .ifetch) : thenRightHalf (.next t) = .next t := by
  simp only [thenRightHalf, h]

/-- Equal cells, equal words. -/
theorem SameStore.memRead {s t : State} (h : SameStore s t) (a : Addr) : t.memRead a = s.memRead a :=
  Memory.wordAt_congr fun c _ => h c

/-! ### Slave accesses -/

/-- Bit 24 of the address word tells a read (R82). -/
theorem State.slaveAccessed_read {aw : Word} (h : aw.getLsbD 24 = false) (v : Word) :
    s.slaveAccessed aw v = s.slaveReads aw := by
  rw [State.slaveAccessed, h]; rfl

/-- Bit 24 of the address word tells a write (R82). -/
theorem State.slaveAccessed_write {aw : Word} (h : aw.getLsbD 24 = true) (v : Word) :
    s.slaveAccessed aw v = s.slaveWrites aw v := by
  rw [State.slaveAccessed, h]; rfl

theorem namesCpu_eq (aw : Word) : namesCpu aw = decide (aw.extractLsb' 16 8 = 0xFF#8) := rfl

/-- The low bits of the internal address are the low bits of the address word. -/
theorem extractLsb'_internal (aw : Word) (n : Nat) (hn : n ≤ 16) :
    (aw.extractLsb' 0 16).extractLsb' 0 n = aw.extractLsb' 0 n := by
  apply BitVec.eq_of_getLsbD_eq
  intro k hk
  simp [hk, show k < 16 by omega]

/-- Addresses 0000 to 0FFF of unit FF are the control-store words. -/
theorem slaveTarget_word {aw : Word} {a : Addr} (h : aw.extractLsb' 0 16 = 0#4 ++ a) : slaveTarget aw = .word a := by
  have low : aw.extractLsb' 0 12 = a := by
    rw [← extractLsb'_internal aw 12 (by omega), h]
    apply BitVec.eq_of_getLsbD_eq
    intro k hk
    rw [BitVec.getLsbD_extractLsb', Nat.zero_add, BitVec.getLsbD_append]
    simp only [hk, decide_true, Bool.true_and, ite_true]
  have small : (aw.extractLsb' 0 16).toNat < 0x1000 := by
    rw [h, BitVec.toNat_append]
    have := a.isLt
    simp
    omega
  simp only [slaveTarget, small, ite_true, low]

/-- Addresses 1000 to 1007 of unit FF are the registers. -/
theorem slaveTarget_reg {aw : Word} {r : RegNo} (h : aw.extractLsb' 0 16 = 0x0200#13 ++ r) : slaveTarget aw = .reg r := by
  have low : aw.extractLsb' 0 3 = r := by
    rw [← extractLsb'_internal aw 3 (by omega), h]
    apply BitVec.eq_of_getLsbD_eq
    intro k hk
    rw [BitVec.getLsbD_extractLsb', Nat.zero_add, BitVec.getLsbD_append]
    simp only [hk, decide_true, Bool.true_and, ite_true]
  have value : (aw.extractLsb' 0 16).toNat = 0x1000 + r.toNat := by
    rw [h, BitVec.toNat_append, ← Nat.shiftLeft_add_eq_or_of_lt r.isLt]
    rfl
  have := r.isLt
  simp only [slaveTarget, show ¬ (aw.extractLsb' 0 16).toNat < 0x1000 by omega,
    show (aw.extractLsb' 0 16).toNat < 0x1008 by omega, ite_true, ite_false, low]

/-- The addresses above are not assigned. -/
theorem slaveTarget_unassigned {aw : Word} (h : 0x1008 ≤ (aw.extractLsb' 0 16).toNat) : slaveTarget aw = .unassigned := by
  simp only [slaveTarget, show ¬ (aw.extractLsb' 0 16).toNat < 0x1000 by omega,
    show ¬ (aw.extractLsb' 0 16).toNat < 0x1008 by omega, ite_false]

end Sys2Proof.Machine
end

