-- ==== Sys2Proof/Laws/Exec.lean ====
section
/-! SUPPORT. One equation per constructor: what `exec` calls. A proof rewrites with these instead of unfolding the
dispatch. -/

namespace Sys2Proof.Machine

variable (s : State)

theorem exec_logNotA (imm : Bool) (bf af : RegNo) (acf : Acf) :
    exec (.logNotA imm bf af acf) s = execLogNotA imm bf af acf s := rfl

theorem exec_logNand (imm : Bool) (bf af : RegNo) (acf : Acf) :
    exec (.logNand imm bf af acf) s = execLogNand imm bf af acf s := rfl

theorem exec_logOrNA (imm : Bool) (bf af : RegNo) (acf : Acf) :
    exec (.logOrNA imm bf af acf) s = execLogOrNA imm bf af acf s := rfl

theorem exec_logOnes (imm : Bool) (bf af : RegNo) (acf : Acf) :
    exec (.logOnes imm bf af acf) s = execLogOnes imm bf af acf s := rfl

theorem exec_logNor (imm : Bool) (bf af : RegNo) (acf : Acf) :
    exec (.logNor imm bf af acf) s = execLogNor imm bf af acf s := rfl

theorem exec_logNotB (imm : Bool) (bf af : RegNo) (acf : Acf) :
    exec (.logNotB imm bf af acf) s = execLogNotB imm bf af acf s := rfl

theorem exec_logXnor (imm : Bool) (bf af : RegNo) (acf : Acf) :
    exec (.logXnor imm bf af acf) s = execLogXnor imm bf af acf s := rfl

theorem exec_logOrNB (imm : Bool) (bf af : RegNo) (acf : Acf) :
    exec (.logOrNB imm bf af acf) s = execLogOrNB imm bf af acf s := rfl

theorem exec_logAndNA (imm : Bool) (bf af : RegNo) (acf : Acf) :
    exec (.logAndNA imm bf af acf) s = execLogAndNA imm bf af acf s := rfl

theorem exec_logXor (imm : Bool) (bf af : RegNo) (acf : Acf) :
    exec (.logXor imm bf af acf) s = execLogXor imm bf af acf s := rfl

theorem exec_logTransfer (imm : Bool) (bf af : RegNo) (acf : Acf) :
    exec (.logTransfer imm bf af acf) s = execLogTransfer imm bf af acf s := rfl

theorem exec_logOr (imm : Bool) (bf af : RegNo) (acf : Acf) :
    exec (.logOr imm bf af acf) s = execLogOr imm bf af acf s := rfl

theorem exec_logClear (imm : Bool) (bf af : RegNo) (acf : Acf) :
    exec (.logClear imm bf af acf) s = execLogClear imm bf af acf s := rfl

theorem exec_logAndNB (imm : Bool) (bf af : RegNo) (acf : Acf) :
    exec (.logAndNB imm bf af acf) s = execLogAndNB imm bf af acf s := rfl

theorem exec_logAnd (imm : Bool) (bf af : RegNo) (acf : Acf) :
    exec (.logAnd imm bf af acf) s = execLogAnd imm bf af acf s := rfl

theorem exec_logTest (imm : Bool) (bf af : RegNo) (acf : Acf) :
    exec (.logTest imm bf af acf) s = execLogTest imm bf af acf s := rfl

theorem exec_sub (imm w : Bool) (bf af : RegNo) (acf : Acf) :
    exec (.sub imm w bf af acf) s = execSub imm w bf af acf s := rfl

theorem exec_subc (imm w : Bool) (bf af : RegNo) (acf : Acf) :
    exec (.subc imm w bf af acf) s = execSubc imm w bf af acf s := rfl

theorem exec_add (imm w : Bool) (bf af : RegNo) (acf : Acf) :
    exec (.add imm w bf af acf) s = execAdd imm w bf af acf s := rfl

theorem exec_addc (imm w : Bool) (bf af : RegNo) (acf : Acf) :
    exec (.addc imm w bf af acf) s = execAddc imm w bf af acf s := rfl

theorem exec_cmp (imm w : Bool) (bf af : RegNo) (acf : Acf) :
    exec (.cmp imm w bf af acf) s = execCmp imm w bf af acf s := rfl

theorem exec_cmpc (imm w : Bool) (bf af : RegNo) (acf : Acf) :
    exec (.cmpc imm w bf af acf) s = execCmpc imm w bf af acf s := rfl

theorem exec_tadd (imm w : Bool) (bf af : RegNo) (acf : Acf) :
    exec (.tadd imm w bf af acf) s = execTadd imm w bf af acf s := rfl

theorem exec_taddc (imm w : Bool) (bf af : RegNo) (acf : Acf) :
    exec (.taddc imm w bf af acf) s = execTaddc imm w bf af acf s := rfl

theorem exec_rol (imm w : Bool) (bf af : RegNo) (acf : Acf) :
    exec (.rol imm w bf af acf) s = execRol imm w bf af acf s := rfl

theorem exec_sll (imm w : Bool) (bf af : RegNo) (acf : Acf) :
    exec (.sll imm w bf af acf) s = execSll imm w bf af acf s := rfl

theorem exec_srl (imm w : Bool) (bf af : RegNo) (acf : Acf) :
    exec (.srl imm w bf af acf) s = execSrl imm w bf af acf s := rfl

theorem exec_sra (imm w : Bool) (bf af : RegNo) (acf : Acf) :
    exec (.sra imm w bf af acf) s = execSra imm w bf af acf s := rfl

theorem exec_drol (imm w : Bool) (bf af : RegNo) (acf : Acf) :
    exec (.drol imm w bf af acf) s = execDrol imm w bf af acf s := rfl

theorem exec_dsll (imm w : Bool) (bf af : RegNo) (acf : Acf) :
    exec (.dsll imm w bf af acf) s = execDsll imm w bf af acf s := rfl

theorem exec_dsrl (imm w : Bool) (bf af : RegNo) (acf : Acf) :
    exec (.dsrl imm w bf af acf) s = execDsrl imm w bf af acf s := rfl

theorem exec_dsra (imm w : Bool) (bf af : RegNo) (acf : Acf) :
    exec (.dsra imm w bf af acf) s = execDsra imm w bf af acf s := rfl

theorem exec_extUnassigned (skip : Bool) (op : BitVec 4) (bf af : RegNo) (acf : Acf) :
    exec (.extUnassigned skip op bf af acf) s = execExtUnassigned skip op bf af acf s := rfl

theorem exec_divStep (skip : Bool) (bf af : RegNo) (acf : Acf) :
    exec (.divStep skip bf af acf) s = execDivStep skip bf af acf s := rfl

theorem exec_transfer (skip : Bool) (bf af : RegNo) (acf : Acf) :
    exec (.transfer skip bf af acf) s = execTransfer skip bf af acf s := rfl

theorem exec_excess6 (skip : Bool) (bf af : RegNo) (acf : Acf) :
    exec (.excess6 skip bf af acf) s = execExcess6 skip bf af acf s := rfl

theorem exec_mulStep (skip : Bool) (bf af : RegNo) (acf : Acf) :
    exec (.mulStep skip bf af acf) s = execMulStep skip bf af acf s := rfl

theorem exec_extract (pos : BitVec 5) (bf af : RegNo) (acf : Acf) :
    exec (.extract pos bf af acf) s = execExtract pos bf af acf s := rfl

theorem exec_insert (pos : BitVec 5) (bf af : RegNo) (acf : Acf) :
    exec (.insert pos bf af acf) s = execInsert pos bf af acf s := rfl

theorem exec_conditional (cmask : BitVec 8) (v c sel : Bool) (acf : Acf) :
    exec (.conditional cmask v c sel acf) s = execConditional cmask v c sel acf s := rfl

theorem exec_tSpare (rest : BitVec 29) :
    exec (.tSpare rest) s = execTSpare rest s := rfl

theorem exec_branch (bmask : BitVec 8) (v c sel : Bool) (val : BitVec 4) :
    exec (.branch bmask v c sel val) s = execBranch bmask v c sel val s := rfl

theorem exec_store (cf : RegNo) (adr : Addr) :
    exec (.store cf adr) s = execStore cf adr s := rfl

theorem exec_load (cf : RegNo) (adr : Addr) :
    exec (.load cf adr) s = execLoad cf adr s := rfl

theorem exec_loadi (cf : RegNo) (adr : Addr) :
    exec (.loadi cf adr) s = execLoadi cf adr s := rfl

theorem exec_aSpare1 (rest : BitVec 15) :
    exec (.aSpare1 rest) s = execASpare1 rest s := rfl

theorem exec_aSpare2 (rest : BitVec 15) :
    exec (.aSpare2 rest) s = execASpare2 rest s := rfl

theorem exec_pmInc (cf df : RegNo) (xop : BitVec 3) (val : BitVec 4) :
    exec (.pmInc cf df xop val) s = execPmInc cf df xop val s := rfl

theorem exec_pmDec (cf df : RegNo) (xop : BitVec 3) (val : BitVec 4) :
    exec (.pmDec cf df xop val) s = execPmDec cf df xop val s := rfl

theorem exec_pmAdd (cf df : RegNo) (xop : BitVec 3) (val : BitVec 4) :
    exec (.pmAdd cf df xop val) s = execPmAdd cf df xop val s := rfl

theorem exec_pmSub1 (cf df : RegNo) (xop : BitVec 3) (val : BitVec 4) :
    exec (.pmSub1 cf df xop val) s = execPmSub1 cf df xop val s := rfl

theorem exec_iaMX (cf df : RegNo) (ef : BitVec 2) (val : BitVec 4) :
    exec (.iaMX cf df ef val) s = execIaMX cf df ef val s := rfl

theorem exec_iaRX (cf df : RegNo) (ef : BitVec 2) (val : BitVec 4) :
    exec (.iaRX cf df ef val) s = execIaRX cf df ef val s := rfl

theorem exec_iaXR (cf df : RegNo) (ef : BitVec 2) (val : BitVec 4) :
    exec (.iaXR cf df ef val) s = execIaXR cf df ef val s := rfl

theorem exec_iaXM (cf df : RegNo) (ef : BitVec 2) (val : BitVec 4) :
    exec (.iaXM cf df ef val) s = execIaXM cf df ef val s := rfl

theorem exec_iaRM (cf df : RegNo) (ef : BitVec 2) (val : BitVec 4) :
    exec (.iaRM cf df ef val) s = execIaRM cf df ef val s := rfl

theorem exec_iaMR (cf df : RegNo) (ef : BitVec 2) (val : BitVec 4) :
    exec (.iaMR cf df ef val) s = execIaMR cf df ef val s := rfl

theorem exec_iaRR (cf df : RegNo) (ef : BitVec 2) (val : BitVec 4) :
    exec (.iaRR cf df ef val) s = execIaRR cf df ef val s := rfl

theorem exec_iaUnassigned (cf df : RegNo) (ef : BitVec 2) (val : BitVec 4) :
    exec (.iaUnassigned cf df ef val) s = execIaUnassigned cf df ef val s := rfl

end Sys2Proof.Machine
end

