-- ==== Sys2Proof/Laws/Invariant.lean ====
section
/-! SUPPORT. Each operation keeps the invariant, and each keeps every control-store word's parity bit right. -/

namespace Sys2Proof.Machine

variable {s : State}

/-! ### The invariant -/

/-- A register update that leaves bit 24 of register 0 clear keeps the invariant. -/
theorem State.Inv.setRaw (h : s.Inv) (r : RegNo) (v : Word) (hv : r = 0#3 → v.getLsbD 24 = false) :
    (s.setRaw r v).Inv := by
  refine ⟨h.storeWf, ?_, h.pendingHoldsBus, h.owedHasLatch, h.stuckHasLatch, h.sendingAlone⟩
  rw [State.raw_setRaw]
  split
  · rename_i e; exact hv e.symm
  · exact h.busyNotStored

theorem State.Inv.writeReg (h : s.Inv) (r : RegNo) (v : Word) : (s.writeReg r v).Inv :=
  h.setRaw r _ fun e => by rw [if_pos e, getLsbD_clear24]; simp

theorem State.Inv.setMar (h : s.Inv) (m : Addr) : (s.setMar m).Inv := by
  refine ⟨h.storeWf, ?_, h.pendingHoldsBus, h.owedHasLatch, h.stuckHasLatch, h.sendingAlone⟩
  rw [State.getLsbD_raw_setMar, if_neg (by omega)]; exact h.busyNotStored

theorem State.Inv.incMar (h : s.Inv) : s.incMar.Inv := h.setMar _

theorem State.Inv.branchBy (h : s.Inv) (val : BitVec 4) : (s.branchBy val).Inv := h.setMar _

theorem State.Inv.setHalted (h : s.Inv) (b : Bool) : (s.setHalted b).Inv := by
  refine ⟨h.storeWf, ?_, h.pendingHoldsBus, h.owedHasLatch, h.stuckHasLatch, h.sendingAlone⟩
  rw [State.getLsbD_raw_setHalted, if_neg (by omega)]; exact h.busyNotStored

theorem State.Inv.setCC (h : s.Inv) (res : Word) (c v : Bool) : (s.setCC res c v).Inv := by
  refine ⟨h.storeWf, ?_, h.pendingHoldsBus, h.owedHasLatch, h.stuckHasLatch, h.sendingAlone⟩
  rw [State.getLsbD_raw_setCC, if_pos (by omega)]; exact h.busyNotStored

theorem State.Inv.setClass (h : s.Inv) (cc : BitVec 2) : (s.setClass cc).Inv := by
  refine ⟨h.storeWf, ?_, h.pendingHoldsBus, h.owedHasLatch, h.stuckHasLatch, h.sendingAlone⟩
  rw [State.getLsbD_raw_setClass, if_pos (by omega)]; exact h.busyNotStored

theorem State.Inv.writePair (h : s.Inv) (r : RegNo) (q : BitVec 64) : (s.writePair r q).Inv :=
  (h.writeReg _ _).writeReg _ _

theorem State.Inv.memWrite (h : s.Inv) (a : Addr) (v : Word) : (s.memWrite a v).Inv :=
  ⟨Memory.wf_writeWord _ a v h.storeWf, h.busyNotStored, h.pendingHoldsBus, h.owedHasLatch, h.stuckHasLatch, h.sendingAlone⟩

theorem State.Inv.drawn (h : s.Inv) : s.drawn.Inv :=
  ⟨h.storeWf, h.busyNotStored, h.pendingHoldsBus, h.owedHasLatch, h.stuckHasLatch, h.sendingAlone⟩

theorem State.Inv.withSchedule (h : s.Inv) (rest : List Act) : (s.withSchedule rest).Inv :=
  ⟨h.storeWf, h.busyNotStored, h.pendingHoldsBus, h.owedHasLatch, h.stuckHasLatch, h.sendingAlone⟩

theorem State.Inv.gave (h : s.Inv) (aw d : Word) : (s.gave aw d).Inv :=
  ⟨h.storeWf, h.busyNotStored, h.pendingHoldsBus, h.owedHasLatch, h.stuckHasLatch, h.sendingAlone⟩

theorem State.Inv.parityReset (h : s.Inv) : s.parityReset.Inv :=
  ⟨h.storeWf, h.busyNotStored, h.pendingHoldsBus, h.owedHasLatch, h.stuckHasLatch, h.sendingAlone⟩

theorem State.Inv.timedOut (h : s.Inv) : s.timedOut.Inv :=
  ⟨h.storeWf, h.busyNotStored, h.pendingHoldsBus, fun _ => rfl, fun e => ⟨rfl, (h.stuckHasLatch e).2⟩, h.sendingAlone⟩

theorem State.Inv.afterT (h : s.Inv) (skip : Bool) (acf : Acf) : (s.afterT skip acf).Inv := by
  refine ⟨h.storeWf, h.busyNotStored, h.pendingHoldsBus, h.owedHasLatch, ?_, ?_⟩ <;> cases skip <;> exact nofun

theorem State.Inv.endA (h : s.Inv) : s.endA.Inv :=
  ⟨h.storeWf, h.busyNotStored, h.pendingHoldsBus, h.owedHasLatch, nofun, nofun⟩

theorem State.Inv.bump (h : s.Inv) (r : RegNo) (val : BitVec 4) : (s.bump r val).Inv := h.writeReg _ _

theorem State.Inv.modify (h : s.Inv) (cf df : RegNo) (ef : BitVec 2) (val : BitVec 4) :
    (s.modify cf df ef val).Inv := by
  have h1 : (if ef.getLsbD 0 then s.bump df val else s : State).Inv := by
    split
    · exact h.bump _ _
    · exact h
  refine State.Inv.endA ?_
  split
  · exact h1.bump _ _
  · exact h1

/-- The acceptance of an address in a CPU that is not stuck. -/
theorem State.Inv.accepted (h : s.Inv) (x : Sending) : (s.accepted x).Inv := by
  have h0 : ({ s with pending := x.op, access := .using, phase := .ifetch } : State).Inv :=
    ⟨h.storeWf, h.busyNotStored, fun _ => rfl, h.owedHasLatch, nofun, nofun⟩
  have e : s.accepted x =
      State.modify { s with pending := x.op, access := .using, phase := .ifetch } x.cf x.df x.ef x.val := by
    unfold State.accepted State.modify
    cases x.ef.getLsbD 0 <;> cases x.ef.getLsbD 1 <;> rfl
  rw [e]
  exact h0.modify _ _ _ _

/-- The CPU's turn with an address to send. -/
theorem State.Inv.sendAddress (h : s.Inv) (x : Sending) (hb : s.busy = false) (hx : x.op ≠ .none) :
    (s.sendAddress x).Inv := by
  unfold State.sendAddress
  split
  · exact h.accepted x
  · refine ⟨h.storeWf, h.busyNotStored, h.pendingHoldsBus, h.owedHasLatch, nofun, ?_⟩
    rintro y ⟨⟩
    exact ⟨hb, hx⟩

theorem State.Inv.irqDone (h : s.Inv) : s.irqDone.Inv :=
  ⟨h.storeWf, h.busyNotStored, h.pendingHoldsBus, nofun, h.stuckHasLatch, h.sendingAlone⟩

theorem State.Inv.parityFault (h : s.Inv) (mar : Option Addr) : (s.parityFault mar).Inv := by
  refine ⟨?_, s.parityFault_bit24 mar, ?_, ?_, ?_, ?_⟩
  · have : (s.parityFault mar).store = s.store := by cases mar <;> rfl
    rw [this]; exact h.storeWf
  · have hb : (s.parityFault mar).busy = s.busy := by cases mar <;> rfl
    rw [hb, (s.parityFault_halts mar).bus.2]; exact h.pendingHoldsBus
  · rw [(s.parityFault_halts mar).outside.1, (s.parityFault_halts mar).outside.2.1]; exact h.owedHasLatch
  · rw [(s.parityFault_halts mar).phase, (s.parityFault_halts mar).bus.2, (s.parityFault_halts mar).outside.1]
    split
    · rename_i e; intro _; exact h.stuckHasLatch e
    · exact nofun
  · rw [(s.parityFault_halts mar).phase]
    split <;> exact nofun

theorem State.Inv.withWord (h : s.Inv) (a : Addr) {k : Word → State} (hk : ∀ w, (k w).Inv) :
    (s.withWord a k).Inv := by
  unfold State.withWord
  split
  · exact hk _
  · exact h.parityFault none

theorem State.Inv.interruptThrough (h : s.Inv) (e : Addr) : (s.interruptThrough e).Inv :=
  (h.memWrite _ _).withWord e fun _ => (h.memWrite _ _).writeReg _ _

theorem State.Inv.timeoutInterrupt (h : s.Inv) : s.timeoutInterrupt.Inv := by
  unfold State.timeoutInterrupt
  simp only
  split
  · exact (h.interruptThrough _).irqDone
  · exact h.interruptThrough _

/-- Completion in a CPU that is not stuck (R79, R80). -/
theorem State.Inv.busComplete (h : s.Inv) (hp : s.phase ≠ .stuck) (d : Word) : (s.busComplete d).Inv := by
  have h0 : ({ s with pending := .none, access := .idle } : State).Inv :=
    ⟨h.storeWf, h.busyNotStored, nofun, h.owedHasLatch, fun e => absurd e hp,
      fun x e => ⟨rfl, (h.sendingAlone x e).2⟩⟩
  unfold State.busComplete
  split
  · exact h
  · have := h0.writeReg ‹RegNo› d
    exact ⟨this.storeWf, this.busyNotStored, this.pendingHoldsBus, this.owedHasLatch, this.stuckHasLatch, this.sendingAlone⟩
  · have := h0.memWrite ‹Addr› d
    exact ⟨this.storeWf, this.busyNotStored, this.pendingHoldsBus, this.owedHasLatch, this.stuckHasLatch, this.sendingAlone⟩
  · exact ⟨h0.storeWf, h0.busyNotStored, h0.pendingHoldsBus, h0.owedHasLatch, h0.stuckHasLatch, h0.sendingAlone⟩

theorem State.Inv.masterCleared (h : s.Inv) : s.masterCleared.Inv := by
  refine ⟨h.storeWf, ?_, nofun, nofun, nofun, nofun⟩
  show (State.raw (State.writeReg _ 0#3 _) 0#3).getLsbD 24 = false
  rw [State.raw_writeReg_zero, getLsbD_clear24]; simp

/-! ### Parity bits -/

/-- Every word is either right or not written at all. -/
theorem State.parityGood_memWrite (h : s.store.parityGood) (a : Addr) (v : Word) :
    (s.memWrite a v).store.parityGood := Memory.parityGood_writeWord _ _ _ h

theorem State.store_parityFault (mar : Option Addr) : (s.parityFault mar).store = s.store := by cases mar <;> rfl

/-- A written word stays readable. -/
theorem State.isSome_memRead_memWrite (a b : Addr) (v : Word) (h : (s.memRead b).isSome = true) :
    ((s.memWrite a v).memRead b).isSome = true := by
  by_cases e : b = a
  · subst e; simp
  · rw [State.memRead_memWrite_ne _ e]; exact h

end Sys2Proof.Machine
end

