-- ==== Sys2Proof/Laws/Words.lean ====
section
/-! SUPPORT. The fields of the words the encoder builds. -/

set_option Elab.async false

namespace Sys2Proof

/-- A field of a concatenation that lies in its right part. -/
theorem extractLsb'_append_right {n m : Nat} (x : BitVec n) (y : BitVec m) (lo len : Nat) (h : lo + len ≤ m) :
    (x ++ y).extractLsb' lo len = y.extractLsb' lo len := by
  apply BitVec.eq_of_getLsbD_eq
  intro k hk
  simp [BitVec.getLsbD_append, hk, show lo + k < m by omega]

/-- A field of a concatenation that lies in its left part. -/
theorem extractLsb'_append_left {n m : Nat} (x : BitVec n) (y : BitVec m) (lo len : Nat) (h : m ≤ lo) :
    (x ++ y).extractLsb' lo len = x.extractLsb' (lo - m) len := by
  apply BitVec.eq_of_getLsbD_eq
  intro k hk
  simp [BitVec.getLsbD_append, hk, show ¬ lo + k < m by omega, show lo - m + k = lo + k - m by omega]

/-- A whole bit vector as a field of itself. -/
theorem extractLsb'_whole {n : Nat} (x : BitVec n) : x.extractLsb' 0 n = x := by
  apply BitVec.eq_of_getLsbD_eq
  intro k hk
  simp [hk]

/-- One bit of a concatenation, in its right part. -/
theorem getLsbD_append_right {n m : Nat} (x : BitVec n) (y : BitVec m) (k : Nat) (h : k < m) :
    (x ++ y).getLsbD k = y.getLsbD k := by simp [BitVec.getLsbD_append, h]

/-- One bit of a concatenation, in its left part. -/
theorem getLsbD_append_left {n m : Nat} (x : BitVec n) (y : BitVec m) (k : Nat) (h : m ≤ k) :
    (x ++ y).getLsbD k = x.getLsbD (k - m) := by simp [BitVec.getLsbD_append, show ¬ k < m by omega]

@[simp] theorem getLsbD_ofBool_zero (b : Bool) : (BitVec.ofBool b).getLsbD 0 = b := by cases b <;> rfl

/-! ### Left halves -/

@[simp] theorem tWord_class (cls : BitVec 3) (b : Bool) (op : BitVec 4) (bf af : RegNo) (acf : Acf) :
    (tWord cls b op bf af acf).extractLsb' 29 3 = cls := by
  unfold tWord
  rw [extractLsb'_append_left _ _ _ _ (by omega), extractLsb'_append_left _ _ _ _ (by omega), extractLsb'_append_left _ _ _ _ (by omega), extractLsb'_append_left _ _ _ _ (by omega), extractLsb'_append_left _ _ _ _ (by omega)]
  exact extractLsb'_whole _

@[simp] theorem tWord_bit28 (cls : BitVec 3) (b : Bool) (op : BitVec 4) (bf af : RegNo) (acf : Acf) :
    (tWord cls b op bf af acf).getLsbD 28 = b := by
  unfold tWord
  rw [getLsbD_append_left _ _ _ (by omega), getLsbD_append_left _ _ _ (by omega), getLsbD_append_left _ _ _ (by omega), getLsbD_append_left _ _ _ (by omega), getLsbD_append_right _ _ _ (by omega)]
  exact getLsbD_ofBool_zero _

@[simp] theorem tWord_op (cls : BitVec 3) (b : Bool) (op : BitVec 4) (bf af : RegNo) (acf : Acf) :
    (tWord cls b op bf af acf).extractLsb' 24 4 = op := by
  unfold tWord
  rw [extractLsb'_append_left _ _ _ _ (by omega), extractLsb'_append_left _ _ _ _ (by omega), extractLsb'_append_left _ _ _ _ (by omega), extractLsb'_append_right _ _ _ _ (by omega)]
  exact extractLsb'_whole _

@[simp] theorem tWord_bf (cls : BitVec 3) (b : Bool) (op : BitVec 4) (bf af : RegNo) (acf : Acf) :
    (tWord cls b op bf af acf).extractLsb' 21 3 = bf := by
  unfold tWord
  rw [extractLsb'_append_left _ _ _ _ (by omega), extractLsb'_append_left _ _ _ _ (by omega), extractLsb'_append_right _ _ _ _ (by omega)]
  exact extractLsb'_whole _

@[simp] theorem tWord_af (cls : BitVec 3) (b : Bool) (op : BitVec 4) (bf af : RegNo) (acf : Acf) :
    (tWord cls b op bf af acf).extractLsb' 18 3 = af := by
  unfold tWord
  rw [extractLsb'_append_left _ _ _ _ (by omega), extractLsb'_append_right _ _ _ _ (by omega)]
  exact extractLsb'_whole _

@[simp] theorem tWord_acf (cls : BitVec 3) (b : Bool) (op : BitVec 4) (bf af : RegNo) (acf : Acf) :
    (tWord cls b op bf af acf).extractLsb' 0 18 = acf := by
  unfold tWord
  rw [extractLsb'_append_right _ _ _ _ (by omega)]
  exact extractLsb'_whole _

@[simp] theorem tWord_op_td (cls : BitVec 3) (b td w : Bool) (fn : BitVec 2) (bf af : RegNo) (acf : Acf) :
    (tWord cls b (opField td w fn) bf af acf).getLsbD 27 = td := by
  unfold tWord opField
  rw [getLsbD_append_left _ _ _ (by omega), getLsbD_append_left _ _ _ (by omega), getLsbD_append_left _ _ _ (by omega),
    getLsbD_append_right _ _ _ (by omega), getLsbD_append_left _ _ _ (by omega), getLsbD_append_left _ _ _ (by omega)]
  exact getLsbD_ofBool_zero _

@[simp] theorem tWord_op_w (cls : BitVec 3) (b td w : Bool) (fn : BitVec 2) (bf af : RegNo) (acf : Acf) :
    (tWord cls b (opField td w fn) bf af acf).getLsbD 26 = w := by
  unfold tWord opField
  rw [getLsbD_append_left _ _ _ (by omega), getLsbD_append_left _ _ _ (by omega), getLsbD_append_left _ _ _ (by omega),
    getLsbD_append_right _ _ _ (by omega), getLsbD_append_left _ _ _ (by omega), getLsbD_append_right _ _ _ (by omega)]
  exact getLsbD_ofBool_zero _

@[simp] theorem tWord_op_fn (cls : BitVec 3) (b td w : Bool) (fn : BitVec 2) (bf af : RegNo) (acf : Acf) :
    (tWord cls b (opField td w fn) bf af acf).extractLsb' 24 2 = fn := by
  unfold tWord opField
  rw [extractLsb'_append_left _ _ _ _ (by omega), extractLsb'_append_left _ _ _ _ (by omega),
    extractLsb'_append_left _ _ _ _ (by omega), extractLsb'_append_right _ _ _ _ (by omega),
    extractLsb'_append_right _ _ _ _ (by omega)]
  exact extractLsb'_whole _

@[simp] theorem xWord_class (cls : BitVec 3) (pos : BitVec 5) (bf af : RegNo) (acf : Acf) :
    (xWord cls pos bf af acf).extractLsb' 29 3 = cls := by
  unfold xWord
  rw [extractLsb'_append_left _ _ _ _ (by omega), extractLsb'_append_left _ _ _ _ (by omega), extractLsb'_append_left _ _ _ _ (by omega), extractLsb'_append_left _ _ _ _ (by omega)]
  exact extractLsb'_whole _

@[simp] theorem xWord_pos (cls : BitVec 3) (pos : BitVec 5) (bf af : RegNo) (acf : Acf) :
    (xWord cls pos bf af acf).extractLsb' 24 5 = pos := by
  unfold xWord
  rw [extractLsb'_append_left _ _ _ _ (by omega), extractLsb'_append_left _ _ _ _ (by omega), extractLsb'_append_left _ _ _ _ (by omega), extractLsb'_append_right _ _ _ _ (by omega)]
  exact extractLsb'_whole _

@[simp] theorem xWord_bf (cls : BitVec 3) (pos : BitVec 5) (bf af : RegNo) (acf : Acf) :
    (xWord cls pos bf af acf).extractLsb' 21 3 = bf := by
  unfold xWord
  rw [extractLsb'_append_left _ _ _ _ (by omega), extractLsb'_append_left _ _ _ _ (by omega), extractLsb'_append_right _ _ _ _ (by omega)]
  exact extractLsb'_whole _

@[simp] theorem xWord_af (cls : BitVec 3) (pos : BitVec 5) (bf af : RegNo) (acf : Acf) :
    (xWord cls pos bf af acf).extractLsb' 18 3 = af := by
  unfold xWord
  rw [extractLsb'_append_left _ _ _ _ (by omega), extractLsb'_append_right _ _ _ _ (by omega)]
  exact extractLsb'_whole _

@[simp] theorem xWord_acf (cls : BitVec 3) (pos : BitVec 5) (bf af : RegNo) (acf : Acf) :
    (xWord cls pos bf af acf).extractLsb' 0 18 = acf := by
  unfold xWord
  rw [extractLsb'_append_right _ _ _ _ (by omega)]
  exact extractLsb'_whole _

@[simp] theorem conditionalWord_class (cmask : BitVec 8) (v c sel : Bool) (acf : Acf) :
    (conditionalWord cmask v c sel acf).extractLsb' 29 3 = 6#3 := by
  unfold conditionalWord
  rw [extractLsb'_append_left _ _ _ _ (by omega), extractLsb'_append_left _ _ _ _ (by omega), extractLsb'_append_left _ _ _ _ (by omega), extractLsb'_append_left _ _ _ _ (by omega), extractLsb'_append_left _ _ _ _ (by omega)]
  exact extractLsb'_whole _

@[simp] theorem conditionalWord_cmask (cmask : BitVec 8) (v c sel : Bool) (acf : Acf) :
    (conditionalWord cmask v c sel acf).extractLsb' 21 8 = cmask := by
  unfold conditionalWord
  rw [extractLsb'_append_left _ _ _ _ (by omega), extractLsb'_append_left _ _ _ _ (by omega), extractLsb'_append_left _ _ _ _ (by omega), extractLsb'_append_left _ _ _ _ (by omega), extractLsb'_append_right _ _ _ _ (by omega)]
  exact extractLsb'_whole _

@[simp] theorem conditionalWord_v (cmask : BitVec 8) (v c sel : Bool) (acf : Acf) :
    (conditionalWord cmask v c sel acf).getLsbD 20 = v := by
  unfold conditionalWord
  rw [getLsbD_append_left _ _ _ (by omega), getLsbD_append_left _ _ _ (by omega), getLsbD_append_left _ _ _ (by omega), getLsbD_append_right _ _ _ (by omega)]
  exact getLsbD_ofBool_zero _

@[simp] theorem conditionalWord_c (cmask : BitVec 8) (v c sel : Bool) (acf : Acf) :
    (conditionalWord cmask v c sel acf).getLsbD 19 = c := by
  unfold conditionalWord
  rw [getLsbD_append_left _ _ _ (by omega), getLsbD_append_left _ _ _ (by omega), getLsbD_append_right _ _ _ (by omega)]
  exact getLsbD_ofBool_zero _

@[simp] theorem conditionalWord_sel (cmask : BitVec 8) (v c sel : Bool) (acf : Acf) :
    (conditionalWord cmask v c sel acf).getLsbD 18 = sel := by
  unfold conditionalWord
  rw [getLsbD_append_left _ _ _ (by omega), getLsbD_append_right _ _ _ (by omega)]
  exact getLsbD_ofBool_zero _

@[simp] theorem conditionalWord_acf (cmask : BitVec 8) (v c sel : Bool) (acf : Acf) :
    (conditionalWord cmask v c sel acf).extractLsb' 0 18 = acf := by
  unfold conditionalWord
  rw [extractLsb'_append_right _ _ _ _ (by omega)]
  exact extractLsb'_whole _

/-! ### Right halves -/

@[simp] theorem rightOnlyWord_left (acf : Acf) :
    (rightOnlyWord acf).extractLsb' 18 14 = 0x3000#14 := by
  unfold rightOnlyWord
  rw [extractLsb'_append_left _ _ _ _ (by omega)]
  exact extractLsb'_whole _

@[simp] theorem rightOnlyWord_acf (acf : Acf) :
    (rightOnlyWord acf).extractLsb' 0 18 = acf := by
  unfold rightOnlyWord
  rw [extractLsb'_append_right _ _ _ _ (by omega)]
  exact extractLsb'_whole _

@[simp] theorem regAddrHalf_class (cls : BitVec 3) (cf : RegNo) (adr : Addr) :
    (regAddrHalf cls cf adr).extractLsb' 15 3 = cls := by
  unfold regAddrHalf
  rw [extractLsb'_append_left _ _ _ _ (by omega), extractLsb'_append_left _ _ _ _ (by omega)]
  exact extractLsb'_whole _

@[simp] theorem regAddrHalf_cf (cls : BitVec 3) (cf : RegNo) (adr : Addr) :
    (regAddrHalf cls cf adr).extractLsb' 12 3 = cf := by
  unfold regAddrHalf
  rw [extractLsb'_append_left _ _ _ _ (by omega), extractLsb'_append_right _ _ _ _ (by omega)]
  exact extractLsb'_whole _

@[simp] theorem regAddrHalf_adr (cls : BitVec 3) (cf : RegNo) (adr : Addr) :
    (regAddrHalf cls cf adr).extractLsb' 0 12 = adr := by
  unfold regAddrHalf
  rw [extractLsb'_append_right _ _ _ _ (by omega)]
  exact extractLsb'_whole _

@[simp] theorem pointerHalf_class (cls : BitVec 3) (cf df : RegNo) (ef : BitVec 2) (xop : BitVec 3) (val : BitVec 4) :
    (pointerHalf cls cf df ef xop val).extractLsb' 15 3 = cls := by
  unfold pointerHalf
  rw [extractLsb'_append_left _ _ _ _ (by omega), extractLsb'_append_left _ _ _ _ (by omega), extractLsb'_append_left _ _ _ _ (by omega), extractLsb'_append_left _ _ _ _ (by omega), extractLsb'_append_left _ _ _ _ (by omega)]
  exact extractLsb'_whole _

@[simp] theorem pointerHalf_cf (cls : BitVec 3) (cf df : RegNo) (ef : BitVec 2) (xop : BitVec 3) (val : BitVec 4) :
    (pointerHalf cls cf df ef xop val).extractLsb' 12 3 = cf := by
  unfold pointerHalf
  rw [extractLsb'_append_left _ _ _ _ (by omega), extractLsb'_append_left _ _ _ _ (by omega), extractLsb'_append_left _ _ _ _ (by omega), extractLsb'_append_left _ _ _ _ (by omega), extractLsb'_append_right _ _ _ _ (by omega)]
  exact extractLsb'_whole _

@[simp] theorem pointerHalf_df (cls : BitVec 3) (cf df : RegNo) (ef : BitVec 2) (xop : BitVec 3) (val : BitVec 4) :
    (pointerHalf cls cf df ef xop val).extractLsb' 9 3 = df := by
  unfold pointerHalf
  rw [extractLsb'_append_left _ _ _ _ (by omega), extractLsb'_append_left _ _ _ _ (by omega), extractLsb'_append_left _ _ _ _ (by omega), extractLsb'_append_right _ _ _ _ (by omega)]
  exact extractLsb'_whole _

@[simp] theorem pointerHalf_ef (cls : BitVec 3) (cf df : RegNo) (ef : BitVec 2) (xop : BitVec 3) (val : BitVec 4) :
    (pointerHalf cls cf df ef xop val).extractLsb' 7 2 = ef := by
  unfold pointerHalf
  rw [extractLsb'_append_left _ _ _ _ (by omega), extractLsb'_append_left _ _ _ _ (by omega), extractLsb'_append_right _ _ _ _ (by omega)]
  exact extractLsb'_whole _

@[simp] theorem pointerHalf_xop (cls : BitVec 3) (cf df : RegNo) (ef : BitVec 2) (xop : BitVec 3) (val : BitVec 4) :
    (pointerHalf cls cf df ef xop val).extractLsb' 4 3 = xop := by
  unfold pointerHalf
  rw [extractLsb'_append_left _ _ _ _ (by omega), extractLsb'_append_right _ _ _ _ (by omega)]
  exact extractLsb'_whole _

@[simp] theorem pointerHalf_val (cls : BitVec 3) (cf df : RegNo) (ef : BitVec 2) (xop : BitVec 3) (val : BitVec 4) :
    (pointerHalf cls cf df ef xop val).extractLsb' 0 4 = val := by
  unfold pointerHalf
  rw [extractLsb'_append_right _ _ _ _ (by omega)]
  exact extractLsb'_whole _

@[simp] theorem branchHalf_class (bmask : BitVec 8) (v c sel : Bool) (val : BitVec 4) :
    (branchHalf bmask v c sel val).extractLsb' 15 3 = 0#3 := by
  unfold branchHalf
  rw [extractLsb'_append_left _ _ _ _ (by omega), extractLsb'_append_left _ _ _ _ (by omega), extractLsb'_append_left _ _ _ _ (by omega), extractLsb'_append_left _ _ _ _ (by omega), extractLsb'_append_left _ _ _ _ (by omega)]
  exact extractLsb'_whole _

@[simp] theorem branchHalf_bmask (bmask : BitVec 8) (v c sel : Bool) (val : BitVec 4) :
    (branchHalf bmask v c sel val).extractLsb' 7 8 = bmask := by
  unfold branchHalf
  rw [extractLsb'_append_left _ _ _ _ (by omega), extractLsb'_append_left _ _ _ _ (by omega), extractLsb'_append_left _ _ _ _ (by omega), extractLsb'_append_left _ _ _ _ (by omega), extractLsb'_append_right _ _ _ _ (by omega)]
  exact extractLsb'_whole _

@[simp] theorem branchHalf_v (bmask : BitVec 8) (v c sel : Bool) (val : BitVec 4) :
    (branchHalf bmask v c sel val).getLsbD 6 = v := by
  unfold branchHalf
  rw [getLsbD_append_left _ _ _ (by omega), getLsbD_append_left _ _ _ (by omega), getLsbD_append_left _ _ _ (by omega), getLsbD_append_right _ _ _ (by omega)]
  exact getLsbD_ofBool_zero _

@[simp] theorem branchHalf_c (bmask : BitVec 8) (v c sel : Bool) (val : BitVec 4) :
    (branchHalf bmask v c sel val).getLsbD 5 = c := by
  unfold branchHalf
  rw [getLsbD_append_left _ _ _ (by omega), getLsbD_append_left _ _ _ (by omega), getLsbD_append_right _ _ _ (by omega)]
  exact getLsbD_ofBool_zero _

@[simp] theorem branchHalf_sel (bmask : BitVec 8) (v c sel : Bool) (val : BitVec 4) :
    (branchHalf bmask v c sel val).getLsbD 4 = sel := by
  unfold branchHalf
  rw [getLsbD_append_left _ _ _ (by omega), getLsbD_append_right _ _ _ (by omega)]
  exact getLsbD_ofBool_zero _

@[simp] theorem branchHalf_val (bmask : BitVec 8) (v c sel : Bool) (val : BitVec 4) :
    (branchHalf bmask v c sel val).extractLsb' 0 4 = val := by
  unfold branchHalf
  rw [extractLsb'_append_right _ _ _ _ (by omega)]
  exact extractLsb'_whole _

@[simp] theorem spareHalf_class (cls : BitVec 3) (rest : BitVec 15) :
    (spareHalf cls rest).extractLsb' 15 3 = cls := by
  unfold spareHalf
  rw [extractLsb'_append_left _ _ _ _ (by omega)]
  exact extractLsb'_whole _

@[simp] theorem spareHalf_rest (cls : BitVec 3) (rest : BitVec 15) :
    (spareHalf cls rest).extractLsb' 0 15 = rest := by
  unfold spareHalf
  rw [extractLsb'_append_right _ _ _ _ (by omega)]
  exact extractLsb'_whole _

/-! ### The decoder on the encoder's words, one lemma per class -/

theorem decodeT_logical (imm : Bool) (op : BitVec 4) (bf af : RegNo) (acf : Acf) :
    decodeT (tWord 0#3 imm op bf af acf) = decodeLogical op.toNat imm bf af acf := by
  simp only [decodeT, tWord_class, tWord_op, tWord_bit28, tWord_bf, tWord_af, tWord_acf, BitVec.reduceToNat]

theorem decodeT_arithmetic (imm td w : Bool) (fn : BitVec 2) (bf af : RegNo) (acf : Acf) :
    decodeT (tWord 1#3 imm (opField td w fn) bf af acf) = decodeArithmetic (td.toNat * 4 + fn.toNat) imm w bf af acf := by
  simp only [decodeT, tWord_class, tWord_op_td, tWord_op_w, tWord_op_fn, tWord_bit28, tWord_bf, tWord_af, tWord_acf,
    BitVec.reduceToNat]

theorem decodeT_shift (imm td w : Bool) (fn : BitVec 2) (bf af : RegNo) (acf : Acf) :
    decodeT (tWord 2#3 imm (opField td w fn) bf af acf) = decodeShift (td.toNat * 4 + fn.toNat) imm w bf af acf := by
  simp only [decodeT, tWord_class, tWord_op_td, tWord_op_w, tWord_op_fn, tWord_bit28, tWord_bf, tWord_af, tWord_acf,
    BitVec.reduceToNat]

theorem decodeT_extended (skip : Bool) (op : BitVec 4) (bf af : RegNo) (acf : Acf) :
    decodeT (tWord 3#3 skip op bf af acf) = decodeExtended op skip bf af acf := by
  simp only [decodeT, tWord_class, tWord_op, tWord_bit28, tWord_bf, tWord_af, tWord_acf, BitVec.reduceToNat]

theorem decodeT_extract (pos : BitVec 5) (bf af : RegNo) (acf : Acf) :
    decodeT (xWord 4#3 pos bf af acf) = .extract pos bf af acf := by
  simp only [decodeT, xWord_class, xWord_pos, xWord_bf, xWord_af, xWord_acf, BitVec.reduceToNat]

theorem decodeT_insert (pos : BitVec 5) (bf af : RegNo) (acf : Acf) :
    decodeT (xWord 5#3 pos bf af acf) = .insert pos bf af acf := by
  simp only [decodeT, xWord_class, xWord_pos, xWord_bf, xWord_af, xWord_acf, BitVec.reduceToNat]

theorem decodeT_conditional (cmask : BitVec 8) (v c sel : Bool) (acf : Acf) :
    decodeT (conditionalWord cmask v c sel acf) = .conditional cmask v c sel acf := by
  simp only [decodeT, conditionalWord_class, conditionalWord_cmask, conditionalWord_v, conditionalWord_c,
    conditionalWord_sel, conditionalWord_acf, BitVec.reduceToNat]

theorem decodeT_spare (rest : BitVec 29) : decodeT (7#3 ++ rest) = .tSpare rest := by
  have h : (7#3 ++ rest).extractLsb' 29 3 = 7#3 := by
    rw [extractLsb'_append_left _ _ _ _ (by omega)]; exact extractLsb'_whole _
  have h' : (7#3 ++ rest).extractLsb' 0 29 = rest := by
    rw [extractLsb'_append_right _ _ _ _ (by omega)]; exact extractLsb'_whole _
  simp only [decodeT, h, h', BitVec.reduceToNat]

theorem decodeA_branch (bmask : BitVec 8) (v c sel : Bool) (val : BitVec 4) :
    decodeA (branchHalf bmask v c sel val) = .branch bmask v c sel val := by
  simp only [decodeA, branchHalf_class, branchHalf_bmask, branchHalf_v, branchHalf_c, branchHalf_sel, branchHalf_val,
    BitVec.reduceToNat]

theorem decodeA_store (cf : RegNo) (adr : Addr) : decodeA (regAddrHalf 1#3 cf adr) = .store cf adr := by
  simp only [decodeA, regAddrHalf_class, regAddrHalf_cf, regAddrHalf_adr, BitVec.reduceToNat]

theorem decodeA_load (cf : RegNo) (adr : Addr) : decodeA (regAddrHalf 3#3 cf adr) = .load cf adr := by
  simp only [decodeA, regAddrHalf_class, regAddrHalf_cf, regAddrHalf_adr, BitVec.reduceToNat]

theorem decodeA_loadi (cf : RegNo) (adr : Addr) : decodeA (regAddrHalf 7#3 cf adr) = .loadi cf adr := by
  simp only [decodeA, regAddrHalf_class, regAddrHalf_cf, regAddrHalf_adr, BitVec.reduceToNat]

theorem decodeA_spare1 (rest : BitVec 15) : decodeA (spareHalf 2#3 rest) = .aSpare1 rest := by
  simp only [decodeA, spareHalf_class, spareHalf_rest, BitVec.reduceToNat]

theorem decodeA_spare2 (rest : BitVec 15) : decodeA (spareHalf 6#3 rest) = .aSpare2 rest := by
  simp only [decodeA, spareHalf_class, spareHalf_rest, BitVec.reduceToNat]

theorem decodeA_pointer (cf df : RegNo) (ef : BitVec 2) (xop : BitVec 3) (val : BitVec 4) :
    decodeA (pointerHalf 4#3 cf df ef xop val) = decodePointer ef.toNat cf df xop val := by
  simp only [decodeA, pointerHalf_class, pointerHalf_cf, pointerHalf_df, pointerHalf_ef, pointerHalf_xop,
    pointerHalf_val, BitVec.reduceToNat]

theorem decodeA_indirect (cf df : RegNo) (ef : BitVec 2) (xop : BitVec 3) (val : BitVec 4) :
    decodeA (pointerHalf 5#3 cf df ef xop val) = decodeIndirect xop.toNat cf df ef val := by
  simp only [decodeA, pointerHalf_class, pointerHalf_cf, pointerHalf_df, pointerHalf_ef, pointerHalf_xop,
    pointerHalf_val, BitVec.reduceToNat]

/-- A right half under the left half that does nothing is read as its A row. -/
theorem decodeRow_rightOnly (acf : Acf) : decodeRow false (rightOnlyWord acf) = decodeA acf := by
  show decodeA ((rightOnlyWord acf).extractLsb' 0 18) = decodeA acf
  rw [rightOnlyWord_acf]

end Sys2Proof
end

