-- ==== Sys2Proof/Laws/PerInstr.lean ====
section
/-! SUPPORT. Statements about every instruction, one lemma per constructor of `Instr`. -/

namespace Sys2Proof.Laws.RoundTrip

/-- Decoding the word of a well-formed instruction, in the half its row belongs to, gives the instruction back. -/
def Statement (i : Instr) : Prop := i.wellFormed = true → decodeRow i.isT (encode i) = i

theorem logNotA (imm : Bool) (bf af : RegNo) (acf : Acf) :
    Statement (.logNotA imm bf af acf) :=
  fun _ => decodeT_logical imm 0#4 bf af acf

theorem logNand (imm : Bool) (bf af : RegNo) (acf : Acf) :
    Statement (.logNand imm bf af acf) :=
  fun _ => decodeT_logical imm 1#4 bf af acf

theorem logOrNA (imm : Bool) (bf af : RegNo) (acf : Acf) :
    Statement (.logOrNA imm bf af acf) :=
  fun _ => decodeT_logical imm 2#4 bf af acf

theorem logOnes (imm : Bool) (bf af : RegNo) (acf : Acf) :
    Statement (.logOnes imm bf af acf) :=
  fun _ => decodeT_logical imm 3#4 bf af acf

theorem logNor (imm : Bool) (bf af : RegNo) (acf : Acf) :
    Statement (.logNor imm bf af acf) :=
  fun _ => decodeT_logical imm 4#4 bf af acf

theorem logNotB (imm : Bool) (bf af : RegNo) (acf : Acf) :
    Statement (.logNotB imm bf af acf) :=
  fun _ => decodeT_logical imm 5#4 bf af acf

theorem logXnor (imm : Bool) (bf af : RegNo) (acf : Acf) :
    Statement (.logXnor imm bf af acf) :=
  fun _ => decodeT_logical imm 6#4 bf af acf

theorem logOrNB (imm : Bool) (bf af : RegNo) (acf : Acf) :
    Statement (.logOrNB imm bf af acf) :=
  fun _ => decodeT_logical imm 7#4 bf af acf

theorem logAndNA (imm : Bool) (bf af : RegNo) (acf : Acf) :
    Statement (.logAndNA imm bf af acf) :=
  fun _ => decodeT_logical imm 8#4 bf af acf

theorem logXor (imm : Bool) (bf af : RegNo) (acf : Acf) :
    Statement (.logXor imm bf af acf) :=
  fun _ => decodeT_logical imm 9#4 bf af acf

theorem logTransfer (imm : Bool) (bf af : RegNo) (acf : Acf) :
    Statement (.logTransfer imm bf af acf) :=
  fun _ => decodeT_logical imm 10#4 bf af acf

theorem logOr (imm : Bool) (bf af : RegNo) (acf : Acf) :
    Statement (.logOr imm bf af acf) :=
  fun _ => decodeT_logical imm 11#4 bf af acf

theorem logClear (imm : Bool) (bf af : RegNo) (acf : Acf) :
    Statement (.logClear imm bf af acf) :=
  fun _ => decodeT_logical imm 12#4 bf af acf

theorem logAndNB (imm : Bool) (bf af : RegNo) (acf : Acf) :
    Statement (.logAndNB imm bf af acf) :=
  fun _ => decodeT_logical imm 13#4 bf af acf

theorem logAnd (imm : Bool) (bf af : RegNo) (acf : Acf) :
    Statement (.logAnd imm bf af acf) :=
  fun _ => decodeT_logical imm 14#4 bf af acf

theorem logTest (imm : Bool) (bf af : RegNo) (acf : Acf) :
    Statement (.logTest imm bf af acf) :=
  fun _ => decodeT_logical imm 15#4 bf af acf

theorem sub (imm w : Bool) (bf af : RegNo) (acf : Acf) :
    Statement (.sub imm w bf af acf) :=
  fun _ => decodeT_arithmetic imm false w 0#2 bf af acf

theorem subc (imm w : Bool) (bf af : RegNo) (acf : Acf) :
    Statement (.subc imm w bf af acf) :=
  fun _ => decodeT_arithmetic imm false w 1#2 bf af acf

theorem add (imm w : Bool) (bf af : RegNo) (acf : Acf) :
    Statement (.add imm w bf af acf) :=
  fun _ => decodeT_arithmetic imm false w 2#2 bf af acf

theorem addc (imm w : Bool) (bf af : RegNo) (acf : Acf) :
    Statement (.addc imm w bf af acf) :=
  fun _ => decodeT_arithmetic imm false w 3#2 bf af acf

theorem cmp (imm w : Bool) (bf af : RegNo) (acf : Acf) :
    Statement (.cmp imm w bf af acf) :=
  fun _ => decodeT_arithmetic imm true w 0#2 bf af acf

theorem cmpc (imm w : Bool) (bf af : RegNo) (acf : Acf) :
    Statement (.cmpc imm w bf af acf) :=
  fun _ => decodeT_arithmetic imm true w 1#2 bf af acf

theorem tadd (imm w : Bool) (bf af : RegNo) (acf : Acf) :
    Statement (.tadd imm w bf af acf) :=
  fun _ => decodeT_arithmetic imm true w 2#2 bf af acf

theorem taddc (imm w : Bool) (bf af : RegNo) (acf : Acf) :
    Statement (.taddc imm w bf af acf) :=
  fun _ => decodeT_arithmetic imm true w 3#2 bf af acf

theorem rol (imm w : Bool) (bf af : RegNo) (acf : Acf) :
    Statement (.rol imm w bf af acf) :=
  fun _ => decodeT_shift imm false w 0#2 bf af acf

theorem sll (imm w : Bool) (bf af : RegNo) (acf : Acf) :
    Statement (.sll imm w bf af acf) :=
  fun _ => decodeT_shift imm false w 1#2 bf af acf

theorem srl (imm w : Bool) (bf af : RegNo) (acf : Acf) :
    Statement (.srl imm w bf af acf) :=
  fun _ => decodeT_shift imm false w 2#2 bf af acf

theorem sra (imm w : Bool) (bf af : RegNo) (acf : Acf) :
    Statement (.sra imm w bf af acf) :=
  fun _ => decodeT_shift imm false w 3#2 bf af acf

theorem drol (imm w : Bool) (bf af : RegNo) (acf : Acf) :
    Statement (.drol imm w bf af acf) :=
  fun _ => decodeT_shift imm true w 0#2 bf af acf

theorem dsll (imm w : Bool) (bf af : RegNo) (acf : Acf) :
    Statement (.dsll imm w bf af acf) :=
  fun _ => decodeT_shift imm true w 1#2 bf af acf

theorem dsrl (imm w : Bool) (bf af : RegNo) (acf : Acf) :
    Statement (.dsrl imm w bf af acf) :=
  fun _ => decodeT_shift imm true w 2#2 bf af acf

theorem dsra (imm w : Bool) (bf af : RegNo) (acf : Acf) :
    Statement (.dsra imm w bf af acf) :=
  fun _ => decodeT_shift imm true w 3#2 bf af acf

theorem extUnassigned (skip : Bool) (op : BitVec 4) (bf af : RegNo) (acf : Acf) :
    Statement (.extUnassigned skip op bf af acf) := by
  intro h
  have h : op.toNat < 12 := of_decide_eq_true h
  refine (decodeT_extended skip op bf af acf).trans ?_
  have h12 : op.toNat ≠ 12 := by omega
  have h13 : op.toNat ≠ 13 := by omega
  have h14 : op.toNat ≠ 14 := by omega
  have h15 : op.toNat ≠ 15 := by omega
  simp only [decodeExtended]

theorem divStep (skip : Bool) (bf af : RegNo) (acf : Acf) :
    Statement (.divStep skip bf af acf) :=
  fun _ => decodeT_extended skip 12#4 bf af acf

theorem transfer (skip : Bool) (bf af : RegNo) (acf : Acf) :
    Statement (.transfer skip bf af acf) :=
  fun _ => decodeT_extended skip 13#4 bf af acf

theorem excess6 (skip : Bool) (bf af : RegNo) (acf : Acf) :
    Statement (.excess6 skip bf af acf) :=
  fun _ => decodeT_extended skip 14#4 bf af acf

theorem mulStep (skip : Bool) (bf af : RegNo) (acf : Acf) :
    Statement (.mulStep skip bf af acf) :=
  fun _ => decodeT_extended skip 15#4 bf af acf

theorem extract (pos : BitVec 5) (bf af : RegNo) (acf : Acf) :
    Statement (.extract pos bf af acf) :=
  fun _ => decodeT_extract pos bf af acf

theorem insert (pos : BitVec 5) (bf af : RegNo) (acf : Acf) :
    Statement (.insert pos bf af acf) :=
  fun _ => decodeT_insert pos bf af acf

theorem conditional (cmask : BitVec 8) (v c sel : Bool) (acf : Acf) :
    Statement (.conditional cmask v c sel acf) :=
  fun _ => decodeT_conditional cmask v c sel acf

theorem tSpare (rest : BitVec 29) :
    Statement (.tSpare rest) :=
  fun _ => decodeT_spare rest

theorem branch (bmask : BitVec 8) (v c sel : Bool) (val : BitVec 4) :
    Statement (.branch bmask v c sel val) :=
  fun _ => (decodeRow_rightOnly _).trans (decodeA_branch bmask v c sel val)

theorem store (cf : RegNo) (adr : Addr) :
    Statement (.store cf adr) :=
  fun _ => (decodeRow_rightOnly _).trans (decodeA_store cf adr)

theorem load (cf : RegNo) (adr : Addr) :
    Statement (.load cf adr) :=
  fun _ => (decodeRow_rightOnly _).trans (decodeA_load cf adr)

theorem loadi (cf : RegNo) (adr : Addr) :
    Statement (.loadi cf adr) :=
  fun _ => (decodeRow_rightOnly _).trans (decodeA_loadi cf adr)

theorem aSpare1 (rest : BitVec 15) :
    Statement (.aSpare1 rest) :=
  fun _ => (decodeRow_rightOnly _).trans (decodeA_spare1 rest)

theorem aSpare2 (rest : BitVec 15) :
    Statement (.aSpare2 rest) :=
  fun _ => (decodeRow_rightOnly _).trans (decodeA_spare2 rest)

theorem pmInc (cf df : RegNo) (xop : BitVec 3) (val : BitVec 4) :
    Statement (.pmInc cf df xop val) :=
  fun _ => (decodeRow_rightOnly _).trans (decodeA_pointer cf df 0#2 xop val)

theorem pmDec (cf df : RegNo) (xop : BitVec 3) (val : BitVec 4) :
    Statement (.pmDec cf df xop val) :=
  fun _ => (decodeRow_rightOnly _).trans (decodeA_pointer cf df 1#2 xop val)

theorem pmAdd (cf df : RegNo) (xop : BitVec 3) (val : BitVec 4) :
    Statement (.pmAdd cf df xop val) :=
  fun _ => (decodeRow_rightOnly _).trans (decodeA_pointer cf df 2#2 xop val)

theorem pmSub1 (cf df : RegNo) (xop : BitVec 3) (val : BitVec 4) :
    Statement (.pmSub1 cf df xop val) :=
  fun _ => (decodeRow_rightOnly _).trans (decodeA_pointer cf df 3#2 xop val)

theorem iaMX (cf df : RegNo) (ef : BitVec 2) (val : BitVec 4) :
    Statement (.iaMX cf df ef val) :=
  fun _ => (decodeRow_rightOnly _).trans (decodeA_indirect cf df ef 0#3 val)

theorem iaRX (cf df : RegNo) (ef : BitVec 2) (val : BitVec 4) :
    Statement (.iaRX cf df ef val) :=
  fun _ => (decodeRow_rightOnly _).trans (decodeA_indirect cf df ef 1#3 val)

theorem iaXR (cf df : RegNo) (ef : BitVec 2) (val : BitVec 4) :
    Statement (.iaXR cf df ef val) :=
  fun _ => (decodeRow_rightOnly _).trans (decodeA_indirect cf df ef 2#3 val)

theorem iaXM (cf df : RegNo) (ef : BitVec 2) (val : BitVec 4) :
    Statement (.iaXM cf df ef val) :=
  fun _ => (decodeRow_rightOnly _).trans (decodeA_indirect cf df ef 3#3 val)

theorem iaRM (cf df : RegNo) (ef : BitVec 2) (val : BitVec 4) :
    Statement (.iaRM cf df ef val) :=
  fun _ => (decodeRow_rightOnly _).trans (decodeA_indirect cf df ef 4#3 val)

theorem iaMR (cf df : RegNo) (ef : BitVec 2) (val : BitVec 4) :
    Statement (.iaMR cf df ef val) :=
  fun _ => (decodeRow_rightOnly _).trans (decodeA_indirect cf df ef 5#3 val)

theorem iaRR (cf df : RegNo) (ef : BitVec 2) (val : BitVec 4) :
    Statement (.iaRR cf df ef val) :=
  fun _ => (decodeRow_rightOnly _).trans (decodeA_indirect cf df ef 6#3 val)

theorem iaUnassigned (cf df : RegNo) (ef : BitVec 2) (val : BitVec 4) :
    Statement (.iaUnassigned cf df ef val) :=
  fun _ => (decodeRow_rightOnly _).trans (decodeA_indirect cf df ef 7#3 val)

end Sys2Proof.Laws.RoundTrip
end

