-- ==== Sys2Proof/Tests/Slice0.lean ====
section
/-! SUPPORT. The model's own tests. Expected values come from the encoding tables (R122 to R138) and from the vectors of
spec/95_test_vectors.md, section by section. -/

set_option Elab.async false

namespace Sys2Proof.Tests

open Sys2Proof Sys2Proof.Machine Host

/-! ### Helpers -/

/-- A running machine with register 0 = `r0`, some registers and some control-store words. -/
def machine (r0 : Word) (regs : List (RegNo × Word)) (mem : List (Addr × Word)) : State :=
  mem.foldl (fun s p => s.memWrite p.1 p.2) (regs.foldl (fun s p => s.writeReg p.1 p.2) (State.reset.writeReg 0#3 r0))

/-- The machine of a vector: the word `w` at address 0x100, MAR = 0x100. -/
def vector (w : Word) (regs : List (RegNo × Word)) (mem : List (Addr × Word)) : State :=
  machine 0x100#32 regs ((0x100#12, w) :: mem)

/-- Whether an outcome is a next state with a property. -/
def leads (o : Outcome State Fault Refusal) (p : State → Bool) : Bool :=
  match o with
  | .next t => p t
  | .fault _ => false
  | .refused _ => false

/-- Whether an outcome is this refusal. -/
def refuses (o : Outcome State Fault Refusal) (r : Refusal) : Bool :=
  match o with
  | .next _ => false
  | .fault _ => false
  | .refused q => decide (q = r)

/-- Whether registers hold the values listed, as software reads them. -/
def holds (t : State) (regs : List (RegNo × Word)) : Bool := regs.all fun p => decide (t.readReg p.1 = p.2)

/-- Whether control-store words hold the values listed. -/
def stores (t : State) (mem : List (Addr × Word)) : Bool := mem.all fun p => decide (t.memRead p.1 = some p.2)

/-- The machine among other agents. -/
def among (s : State) (acts : List Act) : State := s.withSchedule acts

/-! ### Well-formedness (R231) -/

theorem test_wellFormed_refuses_assigned_op :
    ([12#4, 13#4, 14#4, 15#4].all fun op => !(Instr.extUnassigned false op 2#3 1#3 0#18).wellFormed) = true := by decide

theorem test_wellFormed_allows_unassigned_op :
    ([0#4, 7#4, 8#4, 11#4].all fun op => (Instr.extUnassigned true op 2#3 1#3 0#18).wellFormed) = true := by decide

/-! ### Decoding: words written out from the encoding tables (R122 to R127, R134, files 40 to 49) -/

theorem test_decode_logical_low :
    [0x00440000#32, 0x01440000#32, 0x02440000#32, 0x03440000#32, 0x04440000#32, 0x05440000#32, 0x06440000#32,
      0x07440000#32].map decodeT =
    [.logNotA false 2#3 1#3 0#18, .logNand false 2#3 1#3 0#18, .logOrNA false 2#3 1#3 0#18, .logOnes false 2#3 1#3 0#18,
      .logNor false 2#3 1#3 0#18, .logNotB false 2#3 1#3 0#18, .logXnor false 2#3 1#3 0#18,
      .logOrNB false 2#3 1#3 0#18] := rfl

theorem test_decode_logical_high :
    [0x08440000#32, 0x09440000#32, 0x0A440000#32, 0x0B440000#32, 0x0C440000#32, 0x0D440000#32, 0x1E0500FF#32,
      0x0F440000#32].map decodeT =
    [.logAndNA false 2#3 1#3 0#18, .logXor false 2#3 1#3 0#18, .logTransfer false 2#3 1#3 0#18, .logOr false 2#3 1#3 0#18,
      .logClear false 2#3 1#3 0#18, .logAndNB false 2#3 1#3 0#18, .logAnd true 0#3 1#3 0x100FF#18,
      .logTest false 2#3 1#3 0#18] := rfl

theorem test_decode_arithmetic :
    [0x24E40000#32, 0x21440000#32, 0x3245FFFF#32, 0x23440000#32, 0x38440041#32, 0x29440000#32, 0x2A440000#32,
      0x2B440000#32].map decodeT =
    [.sub false true 7#3 1#3 0#18, .subc false false 2#3 1#3 0#18, .add true false 2#3 1#3 0x1FFFF#18,
      .addc false false 2#3 1#3 0#18, .cmp true false 2#3 1#3 0x00041#18, .cmpc false false 2#3 1#3 0#18,
      .tadd false false 2#3 1#3 0#18, .taddc false false 2#3 1#3 0#18] := rfl

theorem test_decode_shift :
    [0x44280000#32, 0x51080004#32, 0x46280000#32, 0x43280000#32, 0x4C280000#32, 0x4D8C0000#32, 0x4A280000#32,
      0x5F2BFFFF#32].map decodeT =
    [.rol false true 1#3 2#3 0#18, .sll true false 0#3 2#3 4#18, .srl false true 1#3 2#3 0#18,
      .sra false false 1#3 2#3 0#18, .drol false true 1#3 2#3 0#18, .dsll false true 4#3 3#3 0#18,
      .dsrl false false 1#3 2#3 0#18, .dsra true true 1#3 2#3 0x3FFFF#18] := rfl

theorem test_decode_other_left :
    [0x60440000#32, 0x6B440000#32, 0x6C280000#32, 0x7D2BD123#32, 0x6E280000#32, 0x6F2A409F#32, 0x882800FF#32,
      0xA4500FF0#32, 0xD027B001#32, 0xE0000001#32].map decodeT =
    [.extUnassigned false 0#4 2#3 1#3 0#18, .extUnassigned false 11#4 2#3 1#3 0#18, .divStep false 1#3 2#3 0#18,
      .transfer true 1#3 2#3 0x3D123#18, .excess6 false 1#3 2#3 0#18, .mulStep false 1#3 2#3 0x2409F#18,
      .extract 8#5 1#3 2#3 0x000FF#18, .insert 4#5 2#3 4#3 0x00FF0#18, .conditional 0x81#8 false false true 0x3B001#18,
      .tSpare 1#29] := rfl

theorem test_decode_right :
    [0x0604E#18, 0x00092#18, 0x0A200#18, 0x10001#18, 0x1A200#18, 0x2141F#18, 0x2149F#18, 0x21512#18, 0x21592#18,
      0x30001#18, 0x3A800#18].map decodeA =
    [.branch 0xC0#8 true false false 14#4, .branch 0x01#8 false false true 2#4, .store 2#3 0x200#12, .aSpare1 1#15,
      .load 2#3 0x200#12, .pmInc 1#3 2#3 1#3 15#4, .pmDec 1#3 2#3 1#3 15#4, .pmAdd 1#3 2#3 1#3 2#4,
      .pmSub1 1#3 2#3 1#3 2#4, .aSpare2 1#15, .loadi 2#3 0x800#12] := rfl

theorem test_decode_indirect :
    [0x2A381#18, 0x2B291#18, 0x29620#18, 0x29430#18, 0x294C1#18, 0x29551#18, 0x295E1#18, 0x29470#18].map decodeA =
    [.iaMX 2#3 1#3 3#2 1#4, .iaRX 3#3 1#3 1#2 1#4, .iaXR 1#3 3#3 0#2 0#4, .iaXM 1#3 2#3 0#2 0#4, .iaRM 1#3 2#3 1#2 1#4,
      .iaMR 1#3 2#3 2#2 1#4, .iaRR 1#3 2#3 3#2 1#4, .iaUnassigned 1#3 2#3 0#2 0#4] := rfl

theorem test_encode_words :
    [Instr.dsll false true 4#3 3#3 0#18, .mulStep false 1#3 2#3 0x2409F#18, .insert 4#5 2#3 4#3 0x00FF0#18,
      .conditional 0xC0#8 true false false 0x3B001#18, .pmDec 1#3 2#3 1#3 15#4, .iaMX 2#3 1#3 3#2 1#4,
      .loadi 2#3 0x800#12].map encode =
    [0x4D8C0000#32, 0x6F2A409F#32, 0xA4500FF0#32, 0xD813B001#32, 0xC002149F#32, 0xC002A381#32, 0xC003A800#32] := rfl

theorem test_decode_bytes :
    decodeBytes (encodeBytes (.insert 4#5 2#3 4#3 0x00FF0#18) ++ [7#8]) =
      .ok (.insert 4#5 2#3 4#3 0x00FF0#18, [7#8]) := rfl

theorem test_decode_bytes_truncated : decodeBytes [1#8, 2#8, 3#8] = .error .truncated := rfl

/-- No two rows of one half of the table overlap. -/
theorem test_table_rows_disjoint :
    ([leftRows, rightRows].all fun rows =>
      decide (rows.Pairwise fun r q => r.pattern &&& q.mask ≠ q.pattern &&& r.mask)) = true := by decide +kernel

/-- The decoder reads the pattern of every table row as that row's mnemonic. -/
theorem test_table_row_words :
    ((leftRows ++ rightRows).all fun r => decide ((decodeRow r.left r.pattern).mnemonic = r.mnemonic)) = true := by
  decide +kernel

theorem test_decodeTableWord :
    [decodeTableWord 32 0, decodeTableWord 32 0x22000000, decodeTableWord 24 0, decodeTableWord 24 0x8000,
      decodeTableWord 32 0x38000, decodeTableWord 40 0] =
    [some (.logNotA false 0#3 0#3 0#18), some (.add false false 0#3 0#3 0#18), some (.branch 0#8 false false false 0#4),
      some (.store 0#3 0#12), some (.loadi 0#3 0#12), none] := rfl

theorem test_withFetchWord_runs_left :
    leads (step (State.reset.withFetchWord 32 0x26640000)) (fun t => holds t [(0#3, 0x88000001#32), (1#3, 3#32)])
      = true := by decide +kernel

theorem test_withFetchWord_runs_right :
    leads (step (State.reset.withFetchWord 24 0x3A800)) (fun t => holds t [(0#3, 1#32), (2#3, 0xFFFFF800#32)])
      = true := by decide +kernel

/-! ### Operands: the table L1.1 of immediates -/

theorem test_expand :
    [0x01234#18, 0x11234#18, 0x21234#18, 0x31234#18, 0x1FFFF#18, 0x2FFFF#18, 0x30000#18, 0x08000#18].map expand =
    [0x00001234#32, 0xFFFF1234#32, 0x12340000#32, 0x1234FFFF#32, 0xFFFFFFFF#32, 0xFFFF0000#32, 0x0000FFFF#32,
      0x00008000#32] := rfl

/-! ### LOGICAL (section 2.1). Bit C of register 0 is open, so the left half is run alone and the codes are tested apart. -/

/-- The words of section 2.1 with the new x1. -/
def logicalVectors : List (Word × Word) :=
  [(0x00440000#32, 0x0000FFFF#32), (0x01440000#32, 0x00FFFFFF#32), (0x02440000#32, 0xFF00FFFF#32),
   (0x03440000#32, 0xFFFFFFFF#32), (0x04440000#32, 0x000000FF#32), (0x05440000#32, 0x00FF00FF#32),
   (0x06440000#32, 0xFF0000FF#32), (0x07440000#32, 0xFFFF00FF#32), (0x08440000#32, 0x0000FF00#32),
   (0x09440000#32, 0x00FFFF00#32), (0x0A440000#32, 0xFF00FF00#32), (0x0B440000#32, 0xFFFFFF00#32),
   (0x0C440000#32, 0x00000000#32), (0x0D440000#32, 0x00FF0000#32), (0x0E440000#32, 0xFF000000#32),
   (0x0F440000#32, 0xFFFF0000#32)]

theorem test_logical_results :
    (logicalVectors.all fun p =>
      leads (exec (decodeT p.1) (machine 0x101#32 [(1#3, 0xFFFF0000#32), (2#3, 0xFF00FF00#32)] []))
        fun t => decide (t.raw 1#3 = p.2)) = true := by decide +kernel

theorem test_logical_codes :
    ([(0x0000FFFF#32, 0x88000101#32), (0xFF00FFFF#32, 0x58000101#32), (0xFFFFFFFF#32, 0x5C000101#32),
      (0x0000FF00#32, 0x80000101#32), (0xFF00FF00#32, 0x50000101#32), (0#32, 0x04000101#32),
      (0x12340078#32, 0x82000101#32)].all fun p =>
      decide (((machine 0x101#32 [] []).setCC p.1 false false).raw 0#3 = p.2) &&
      decide (((machine 0x101#32 [] []).setCC p.1 true false).raw 0#3 = p.2 + 0x20000000#32)) = true := by
  decide +kernel

theorem test_logical_immediate_omits_right_half :
    leads (step (vector 0x1E0500FF#32 [(1#3, 0x12345678#32)] []))
      (fun t => decide (t.raw 1#3 = 0x12340078#32) && decide (t.phase = .ifetch)) = true := by decide +kernel

/-! ### ARITHMETIC (section 2.2) -/

/-- The rows of section 2.2: word, x0, x1, x2 before; x1, x0 after. -/
def arithmeticVectors : List (Word × Word × Word × Word × Word × Word) :=
  [(0x22440000#32, 0x00000100#32, 0x7FFFFFFF#32, 1#32, 0x80000000#32, 0xD2000101#32),
   (0x22440000#32, 0x00000100#32, 0x80000000#32, 0x80000000#32, 0#32, 0xE4000101#32),
   (0x20440000#32, 0x00000100#32, 3#32, 5#32, 0xFFFFFFFE#32, 0x52000101#32),
   (0x20440000#32, 0x00000100#32, 0x80000000#32, 1#32, 0x7FFFFFFF#32, 0xEA000101#32),
   (0x21440000#32, 0x00000100#32, 5#32, 3#32, 1#32, 0xAA000101#32),
   (0x21440000#32, 0x20000100#32, 5#32, 3#32, 2#32, 0xA2000101#32),
   (0x23440000#32, 0x20000100#32, 5#32, 3#32, 9#32, 0x88000101#32),
   (0x23440000#32, 0x20000100#32, 0xFFFFFFFF#32, 0#32, 0#32, 0x24000101#32),
   (0x38440041#32, 0x00000100#32, 0x41#32, 0#32, 0x41#32, 0x24000101#32),
   (0x38440041#32, 0x00000100#32, 0x20#32, 0#32, 0x20#32, 0x5A000101#32),
   (0x29440000#32, 0x00000100#32, 5#32, 5#32, 5#32, 0x5C000101#32),
   (0x2A440000#32, 0x00000100#32, 0x7FFFFFFF#32, 1#32, 0x7FFFFFFF#32, 0xD2000101#32),
   (0x2B440000#32, 0x20000100#32, 0xFFFFFFFE#32, 1#32, 0xFFFFFFFE#32, 0x24000101#32),
   (0x26E40000#32, 0x00000100#32, 10#32, 0#32, 0x11#32, 0x88000101#32),
   (0x32471234#32, 0x00000100#32, 0x10#32, 0#32, 0x1235000F#32, 0x88000101#32)]

theorem test_arithmetic :
    (arithmeticVectors.all fun (w, r0, a, b, a', r0') =>
      leads (step (machine r0 [(1#3, a), (2#3, b)] [(0x100#12, w)])) fun t => holds t [(1#3, a'), (0#3, r0')])
      = true := by decide +kernel

theorem test_add_to_register_zero_moves_mar :
    leads (step (vector 0x26600000#32 [] [])) (fun t => holds t [(0#3, 0x80000104#32)]) = true := by decide +kernel

/-! ### SHIFT/ROTATE (section 2.3) -/

theorem test_shift_by_one :
    ([(0x44280000#32, 0x00000003#32, 0xC0000003#32), (0x45280000#32, 0x00000002#32, 0xC0000003#32),
      (0x46280000#32, 0x40000000#32, 0xC0000003#32), (0x47280000#32, 0xC0000000#32, 0xC0000003#32),
      (0x4C280000#32, 0x00000003#32, 0x80000007#32), (0x4D280000#32, 0x00000003#32, 0x80000006#32),
      (0x4E280000#32, 0x40000000#32, 0xE0000001#32), (0x4F280000#32, 0xC0000000#32, 0xE0000001#32)].all
      fun (w, a, q) => leads (step (vector w [(2#3, 0x80000001#32), (3#3, 0xC0000003#32)] []))
        fun t => holds t [(2#3, a), (3#3, q), (0#3, 0x101#32)]) = true := by decide +kernel

theorem test_double_shift_by_seven :
    ([(0x4CE80000#32, 0xB2A19087#32, 0xF6E5D4C3#32), (0x4DE80000#32, 0xB2A19087#32, 0xF6E5D480#32),
      (0x4EE80000#32, 0x010ECA86#32, 0x421FDB97#32), (0x4FE80000#32, 0xFF0ECA86#32, 0x421FDB97#32)].all
      fun (w, a, q) => leads (step (vector w [(2#3, 0x87654321#32), (3#3, 0x0FEDCBA9#32)] []))
        fun t => holds t [(2#3, a), (3#3, q)]) = true := by decide +kernel

theorem test_double_shift_of_odd_register :
    leads (step (vector 0x4D8C0000#32 [(3#3, 0x22222222#32), (2#3, 0x11111111#32)] []))
      (fun t => holds t [(3#3, 0x22222221#32), (2#3, 0x11111110#32)]) = true := by decide +kernel

theorem test_shifter_amounts :
    [ShiftTy.rol.shift 0x87654321#32 12, ShiftTy.sll.shift 0x87654321#32 12, ShiftTy.srl.shift 0x87654321#32 12,
      ShiftTy.sra.shift 0x87654321#32 12, ShiftTy.rol.shift 0x87654321#32 31, ShiftTy.sra.shift 0x87654321#32 31] =
    [0x54321876#32, 0x54321000#32, 0x00087654#32, 0xFFF87654#32, 0xC3B2A190#32, 0xFFFFFFFF#32] := by decide +kernel

/-! ### EXTENDED ARITHMETIC (section 2.4) -/

theorem test_transfer_runs_right_half :
    leads (step (vector 0x6D2BD123#32 [(1#3, 7#32)] [])) (fun t => holds t [(2#3, 7#32), (5#3, 0x123#32)])
      = true := by decide +kernel

theorem test_transfer_skips_right_half :
    leads (step (vector 0x7D2BD123#32 [(1#3, 7#32)] [])) (fun t => holds t [(2#3, 7#32), (5#3, 0#32), (0#3, 0x101#32)])
      = true := by decide +kernel

theorem test_excess6_all_digits_exceed :
    leads (step (vector 0x6E280000#32 [(1#3, 0xAFBFCDEF#32), (2#3, 0x12345678#32)] []))
      (fun t => holds t [(2#3, 0x66666666#32), (0#3, 0x101#32)]) = true := by decide +kernel

theorem test_divStep :
    ([(3#32, 7#32, 0x80000000#32, 9#32, 1#32), (9#32, 7#32, 0x80000000#32, 15#32, 0#32),
      (0#32, 5#32, 0#32, 10#32, 1#32)].all fun (b, a, q, a', q') =>
      leads (step (vector 0x6C280000#32 [(1#3, b), (2#3, a), (3#3, q)] []))
        fun t => holds t [(2#3, a'), (3#3, q'), (0#3, 0x101#32)]) = true := by decide +kernel

theorem test_mulStep :
    ([(5#32, 0#32, 3#32, 5#32, 1#32, 0x101#32), (5#32, 8#32, 2#32, 4#32, 1#32, 0x101#32),
      (0x7FFFFFFF#32, 0x7FFFFFFE#32, 1#32, 0xBFFFFFFE#32, 0#32, 0xC0000101#32)].all fun (b, a, q, a', q', r0') =>
      leads (step (vector 0x6F280000#32 [(1#3, b), (2#3, a), (3#3, q)] []))
        fun t => holds t [(2#3, a'), (3#3, q'), (0#3, r0')]) = true := by decide +kernel

theorem test_mulStep_after_overflow :
    leads (exec (decodeT 0x6F280000#32) (machine 0xC0000101#32 [(1#3, 1#32), (2#3, 0x80000000#32)] []))
      (fun t => decide (t.raw 2#3 = 0x40000000#32) && decide (t.raw 3#3 = 0#32)) = true := by decide +kernel

/-! ### EXTRACT and INSERT (section 2.5) -/

theorem test_extract :
    leads (step (vector 0x882800FF#32 [(1#3, 0x41234567#32), (2#3, 0x99999999#32)] []))
      (fun t => holds t [(2#3, 0x41#32), (0#3, 0x101#32)]) = true := by decide +kernel

theorem test_insert :
    leads (step (vector 0xA4500FF0#32 [(2#3, 0x41#32), (4#3, 0xAAAAAAAA#32)] []))
      (fun t => holds t [(4#3, 0xAAAAA41A#32), (0#3, 0x101#32)]) = true := by decide +kernel

theorem test_insert_halts :
    leads (step (machine 0x12340100#32 [(7#3, 0xFFFFFFFF#32)] [(0x100#12, 0xA0E08000#32)]))
      (fun t => holds t [(0#3, 0x12348101#32)] && t.halted) = true := by decide +kernel

/-! ### CONDITIONAL and BRANCH (sections 2.6, 2.9) -/

theorem test_conditional :
    ([(0xD813B001#32, 0x00000100#32, 0#32), (0xD813B001#32, 0x40000100#32, 1#32), (0xD81BB001#32, 0xC0000100#32, 0#32),
      (0xD81BB001#32, 0x80000100#32, 1#32), (0xC60BB001#32, 0x10000100#32, 0#32), (0xC60BB001#32, 0x30000100#32, 1#32),
      (0xD027B001#32, 0x00800100#32, 0#32)].all fun (w, r0, x) =>
      leads (step (machine r0 [] [(0x100#12, w)])) fun t => holds t [(3#3, x)]) = true := by decide +kernel

theorem test_branch :
    ([(0xC0000803#32, 0x10000100#32, 0x10000104#32), (0xC0000803#32, 0x00000100#32, 0x00000101#32),
      (0xC000604E#32, 0x00000100#32, 0x000000FF#32), (0xC000004E#32, 0x00000000#32, 0x00000FFF#32),
      (0xC0000047#32, 0x00004FFE#32, 0x00004006#32), (0xC0000092#32, 0x00810100#32, 0x00810103#32),
      (0xC0000000#32, 0x00004FFF#32, 0x00004000#32)].all fun (w, r0, r0') =>
      let s := machine r0 [] []
      leads (step (s.memWrite s.mar w)) fun t => holds t [(0#3, r0')]) = true := by decide +kernel

/-! ### STORE, LOAD, LOADI (section 2.7) -/

theorem test_store_register_zero :
    leads (step (machine 0x12004100#32 [] [(0x100#12, 0xC0008200#32)])) (fun t => stores t [(0x200#12, 0x12004101#32)])
      = true := by decide +kernel

theorem test_load_register_zero :
    leads (step (vector 0xC0018045#32 [] [(0x045#12, 0x83004321#32)])) (fun t => holds t [(0#3, 0x82004321#32)])
      = true := by decide +kernel

theorem test_loadi :
    ([(0xC003A7FF#32, 0x101#32, 0x7FF#32), (0xC003A800#32, 0x101#32, 0xFFFFF800#32), (0xC0038834#32, 0xFEFFF834#32, 0#32)].all
      fun (w, r0, x) => leads (step (vector w [] [])) fun t => holds t [(0#3, r0), (2#3, x)]) = true := by decide +kernel

/-! ### POINTER MODIFICATION (section 2.8) -/

/-- Rows of section 2.8: word, x1, x2 before; x1, MAR after. -/
def pointerVectors : List (Word × Word × Word × Word × Addr) :=
  [(0xC002141F#32, 4#32, 0#32, 5#32, 0x100#12), (0xC0021428#32, 0xFFFFFFFF#32, 0#32, 0#32, 0x0F9#12),
   (0xC002149F#32, 1#32, 0#32, 0#32, 0x101#12), (0xC00214C5#32, 0#32, 0#32, 0xFFFFFFFF#32, 0x106#12),
   (0xC0021512#32, 10#32, 0xFFFFFFFD#32, 7#32, 0x103#12), (0xC0021592#32, 10#32, 3#32, 6#32, 0x103#12),
   (0xC00215A2#32, 3#32, 3#32, 0xFFFFFFFF#32, 0x101#12), (0xC0021441#32, 0x7FFFFFFF#32, 0#32, 0x80000000#32, 0x102#12)]

theorem test_pointer_modification :
    (pointerVectors.all fun (w, a, b, a', m) => leads (step (vector w [(1#3, a), (2#3, b)] []))
      fun t => holds t [(1#3, a')] && decide (t.mar = m)) = true := by decide +kernel

/-! ### INDIRECT ACCESS (sections 2.10, 2.11) -/

theorem test_indirect_store_forms :
    ([(0xC00295C1#32, 0x11111112#32, 0x301#32, 0x22222222#32), (0xC00295D1#32, 0x311#32, 0x301#32, 0x300#32),
      (0xC00295E1#32, 0x301#32, 0x301#32, 0x22222222#32), (0xC0029451#32, 0x310#32, 0x300#32, 0x300#32)].all
      fun (w, a, b, m) => leads (step (vector w [(1#3, 0x310#32), (2#3, 0x300#32)]
          [(0x300#12, 0x11111111#32), (0x310#12, 0x22222222#32)]))
        fun t => holds t [(1#3, a), (2#3, b)] && stores t [(0x300#12, 0x11111111#32), (0x310#12, m)]) = true := by
  decide +kernel

theorem test_indirect_same_register_twice :
    leads (step (vector 0xC00293E1#32 [(1#3, 5#32)] [])) (fun t => holds t [(1#3, 7#32)]) = true := by decide +kernel

theorem test_bus_read_issue :
    leads (step (vector 0xC002B291#32 [(1#3, 0x00010020#32), (3#3, 0x77#32)] []))
      (fun t => decide (t.pending = .read 0x00010020#32 (.reg 3#3)) &&
        holds t [(0#3, 0x01000101#32), (1#3, 0x00010021#32), (3#3, 0x77#32)]) = true := by decide +kernel

theorem test_bus_read_completion :
    leads (step { machine 0x101#32 [(3#3, 0x77#32)] [] with
      pending := .read 0x00010020#32 (.reg 3#3), access := .using, schedule := [.complete 0xFEEDFACE#32] })
      (fun t => holds t [(0#3, 0x101#32), (3#3, 0xFEEDFACE#32)] && decide (t.access = .idle)) = true := by decide +kernel

theorem test_bus_read_to_store_issue :
    leads (step (vector 0xC002A381#32 [(1#3, 0x01010020#32), (2#3, 0x400#32)] []))
      (fun t => decide (t.pending = .read 0x00010020#32 (.mem 0x400#12)) &&
        holds t [(1#3, 0x01010021#32), (2#3, 0x401#32)]) = true := by decide +kernel

theorem test_bus_write_issue :
    leads (step (vector 0xC0029620#32 [(1#3, 0x5A010020#32), (3#3, 0x77#32)] []))
      (fun t => decide (t.pending = .write 0x5B010020#32 0x77#32) && holds t [(0#3, 0x01000101#32)]) = true := by
  decide +kernel

theorem test_bus_write_of_store_issue :
    leads (step (vector 0xC0029430#32 [(1#3, 0x00020000#32), (2#3, 0x300#32)] [(0x300#12, 0x11111111#32)]))
      (fun t => decide (t.pending = .write 0x01020000#32 0x11111111#32)) = true := by decide +kernel

/-- The I- and T-sequences are done, the right half waits (section 2.11, "Stall"). -/
theorem test_bus_form_waits :
    leads (step { vector 0xC002B291#32 [(1#3, 0x00010020#32)] [] with
      pending := .write 0x01020000#32 1#32, access := .using })
      (fun t => decide (t.phase = .aSeq 0x2B291#18) && decide (t.mar = 0x101#12) && holds t [(1#3, 0x00010020#32)])
      = true := by decide +kernel

/-- What a bus form has read is kept while its address waits: a slave write of x[3] in that wait does not reach the
operation (R76, R283). The address is accepted at the CPU's turn in state 2. -/
theorem test_bus_form_keeps_operands :
    leads (step { vector 0xC0029620#32 [(1#3, 0x5A010020#32), (3#3, 0x77#32)] [] with
      access := .requesting, schedule := [.cpu, .cpu, .slaveAccess 0x01FF1003#32 9#32, .access .available, .cpu] })
      (fun t => leads (step t) fun u => decide (u.isSending = true ∧ u.pending = .none) &&
        leads (Sys2Proof.core.run 3 u) fun v => decide (v.pending = .write 0x5B010020#32 0x77#32) &&
          holds v [(0#3, 0x01000101#32), (3#3, 9#32)]) = true := by decide +kernel

/-- IA.XM checks its control-store word before it waits for the bus (R283). -/
theorem test_bus_form_reads_store_first :
    leads (step { vector 0xC0029430#32 [(1#3, 0x00020000#32), (2#3, 0x300#32)] [] with access := .wait8 })
      (fun t => t.parityError && decide (t.phase = .ifetch)) = true := by decide +kernel

/-! ### Reserved encodings (section 2.12) -/

theorem test_reserved_refused :
    (refuses (step (vector 0xE0000000#32 [] [])) .spareLeft &&
      refuses (step (vector 0x6B440000#32 [] [])) .unassignedExtended &&
      refuses (step (vector 0xC0010000#32 [] [])) .spareRight1 && refuses (step (vector 0xC0030000#32 [] [])) .spareRight2 &&
      refuses (step (vector 0xC0029470#32 [] [])) .unassignedIndirect) = true := by decide +kernel

/-- A reserved right half that is skipped is not run. -/
theorem test_skipped_reserved_half :
    leads (step (vector 0x7D290000#32 [(1#3, 7#32)] [])) (fun t => holds t [(2#3, 7#32)]) = true := by decide +kernel

/-! ### Event sequences (section 4) -/

theorem test_interrupt_entry :
    leads (step (among (machine 0xA2004123#32 [(1#3, 9#32)] [(0x048#12, 0x400#32)]) [.interrupt 0xFFFF0048#32]))
      (fun t => stores t [(0x049#12, 0xA2004123#32), (0x048#12, 0x400#32)] && holds t [(0#3, 0x400#32), (1#3, 9#32)])
      = true := by decide +kernel

theorem test_interrupt_stores_busy :
    leads (step { machine 0xA2004123#32 [] [(0x048#12, 0x400#32)] with
      pending := .read 0x00010020#32 (.reg 3#3), access := .using, schedule := [.interrupt 0x48#32] })
      (fun t => stores t [(0x049#12, 0xA3004123#32)] && holds t [(0#3, 0x01000400#32)]) = true := by decide +kernel

theorem test_interrupt_odd_vector_refused :
    refuses (step (among (machine 0x100#32 [] []) [.interrupt 0x45#32])) .oddVector = true := by decide +kernel

theorem test_timeout_interrupt :
    leads (step { machine 0x88000102#32 [] [(0x04C#12, 0x600#32)] with timeout := true, timeoutIrq := true })
      (fun t => stores t [(0x04D#12, 0x88000102#32)] && holds t [(0#3, 0x600#32)] && t.timeout && !t.timeoutIrq)
      = true := by decide +kernel

/-- Where the word 04C fails its parity check the interrupt stays owed (log entry 36). -/
theorem test_timeout_interrupt_of_bad_word :
    leads (step { machine 0x88000102#32 [] [] with timeout := true, timeoutIrq := true })
      (fun t => stores t [(0x04D#12, 0x88000102#32)] && t.parityError && t.timeout && t.timeoutIrq)
      = true := by decide +kernel

/-- A stuck CPU takes no interrupt and no completion (R80). -/
theorem test_stuck_ignores :
    ([Act.interrupt 0x48#32, .complete 7#32, .cpu].all fun a =>
      let s : State := { machine 0x101#32 [] [(0x048#12, 1#32)] with
        pending := .write 0x01FE0020#32 5#32, access := .using, timeout := true, timeoutIrq := true, phase := .stuck }
      leads (step (among s [a])) fun t => decide (t = s)) = true := by decide +kernel

theorem test_launch_acts :
    launch false [(0x100#12, 0x0C0B9005#32)] [] 0x100#32 =
      [.parityReset, .slaveAccess 0x01FF0100#32 0x0C0B9005#32, .slaveAccess 0x01FF1000#32 0x00008100#32, .run] := by
  decide +kernel

theorem test_slave_read :
    leads (step (among (machine 0x88008105#32 [] [(0x200#12, 15#32)]) [.slaveAccess 0x00FF0200#32 7#32]))
      (fun t => decide (t.busLog = [.slaveRead 0x00FF0200#32 15#32]) && stores t [(0x200#12, 15#32)]) = true := by
  decide +kernel

/-- Bit 24 alone makes an access a write; bits 31-25 are ignored (R72, R82). -/
theorem test_slave_direction :
    (leads (step (among (machine 0x100#32 [] [(0x200#12, 15#32)]) [.slaveAccess 0xFFFF0200#32 7#32]))
        (fun t => stores t [(0x200#12, 7#32)] && decide (t.busLog = [])) &&
      leads (step (among (machine 0x100#32 [] [(0x200#12, 15#32)]) [.slaveAccess 0xFEFF0200#32 7#32]))
        (fun t => stores t [(0x200#12, 15#32)] && decide (t.busLog = [.slaveRead 0xFEFF0200#32 15#32]))) = true := by
  decide +kernel

/-- An internal address of unit FF that is not assigned is refused, read or written (R71, D27). -/
theorem test_slave_unassigned_refused :
    (refuses (step (among (machine 0#32 [] []) [.slaveAccess 0x00FF1008#32 0#32])) (.unassignedUnitAddress 0x00FF1008#32) &&
      refuses (step (among (machine 0#32 [] []) [.slaveAccess 0x01FFFFFF#32 0#32])) (.unassignedUnitAddress 0x01FFFFFF#32))
      = true := by decide +kernel

theorem test_halt_line :
    leads (step (among (machine 0x88000101#32 [] []) [.haltStep])) (fun t => holds t [(0#3, 0x88008101#32)]) = true := by
  decide +kernel

/-- A slave write between the halves of a microinstruction reaches the right half (E7). -/
theorem test_slave_write_between_halves :
    leads (step { machine 0x101#32 [(1#3, 5#32), (2#3, 5#32)] [] with
      phase := .aSeq 0x0A200#18, schedule := [.slaveAccess 0x01FF1002#32 9#32] })
      (fun t => leads (step t) fun u => holds u [(1#3, 5#32), (2#3, 9#32)] && stores u [(0x200#12, 9#32)]) = true := by
  decide +kernel

theorem test_parity_fault :
    leads (step (vector 0xC001A201#32 [] [])) (fun t => t.parityError && decide (t.phase = .ifetch)) = true := by
  decide +kernel

/-! ### Timing (R300, R319, R401) -/

theorem test_timing :
    [leftCycles (.mulStep false 1#3 2#3 0#18) (machine 0#32 [(3#3, 3#32)] []),
      leftCycles (.extract 8#5 1#3 2#3 0#18) (machine 0#32 [] []),
      rightCycles (.pmDec 1#3 2#3 1#3 15#4) (machine 0#32 [(1#3, 2#32)] []),
      rightCycles (.iaMR 1#3 2#3 3#2 1#4) (machine 0#32 [] [])] = [some 7, some 11, some 6, some 10] := by decide +kernel

/-! ### Witnesses: the hypotheses of each statement are met, clause by clause, at boundary values -/

/-- A machine whose microinstruction at 0x100 reads word 0x300 through a pointer, with a bus pointer in x1. -/
def pointers : State := vector 0xC0029430#32 [(1#3, 0x00FE0020#32), (2#3, 0xABCDE300#32)] [(0x300#12, 0x11111111#32)]

/-- The same machine with a bus write outstanding. -/
def writing : State := { pointers with pending := .write 0x01FE0020#32 5#32, access := .using }

/-- A machine before the right half of a microinstruction, a bus form. -/
def waiting : State := { pointers with phase := .aSeq 0x29430#18 }

/-- A machine that has won the bus and sends the address of a write. -/
def sending : State :=
  { pointers with access := .using, phase := .sending ⟨.write 0x01FE0020#32 0x11111111#32, 1#3, 2#3, 0#2, 0#4⟩ }

/-- A machine stuck after a time-out of its own. -/
def hung : State := { writing with timeout := true, timeoutIrq := true, phase := .stuck }

/-- A halted machine. -/
def resting : State := machine 0x8100#32 [] [(0x000#12, 0#32), (0xFFF#12, 0xFFFFFFFF#32)]

theorem witness_DecodeOfEncode :
    (Instr.extUnassigned true 11#4 7#3 7#3 0x3FFFF#18).wellFormed = true ∧
    (Instr.tSpare 0x1FFFFFFF#29).wellFormed = true := by decide

theorem witness_TableRowIsDecoded :
    (∃ r ∈ leftRows, 0x6BFFFFFF#32 &&& r.mask = r.pattern ∧ r.mnemonic = "EXT.UNASSIGNED") ∧
    (∃ r ∈ rightRows, 0xC003FFFF#32 &&& r.mask = r.pattern ∧ r.mnemonic = "LOADI") := by decide +kernel

theorem witness_StepRunsDecoded :
    pointers.schedule = [] ∧ pointers.phase = .ifetch ∧ pointers.timeoutIrq = false ∧ pointers.halted = false ∧
    pointers.memRead pointers.mar = some 0xC0029430#32 := by decide +kernel

theorem witness_SequencesRunDecoded :
    (among pointers [.cpu]).schedule = [.cpu] ∧ (among pointers [.cpu]).phase = .ifetch ∧
    (among pointers [.cpu]).timeoutIrq = false ∧ (among pointers [.cpu]).halted = false ∧
    (among pointers [.cpu]).memRead (among pointers [.cpu]).mar = some 0xC0029430#32 ∧
    (among waiting [.cpu]).schedule = [.cpu] ∧ (among waiting [.cpu]).phase = .aSeq 0x29430#18 ∧
    waiting.schedule = [] ∧ waiting.phase = .aSeq 0x29430#18 := by decide +kernel

theorem witness_FetchOfBadWordHalts :
    State.reset.schedule = [] ∧ State.reset.phase = .ifetch ∧ State.reset.timeoutIrq = false ∧
    State.reset.halted = false ∧ State.reset.memRead State.reset.mar = none ∧
    (among State.reset [.cpu]).schedule = [.cpu] ∧
    (among (machine 0x8100#32 [] []) [.haltStep]).phase = .ifetch ∧
    (among (machine 0x8100#32 [] []) [.haltStep]).halted = true ∧
    (among (machine 0x8100#32 [] []) [.haltStep]).schedule = [.haltStep] ∧
    (among (machine 0x8100#32 [] []) [.haltStep]).memRead (among (machine 0x8100#32 [] []) [.haltStep]).mar = none := by
  decide +kernel

theorem witness_HaltedCpuIdles :
    resting.schedule = [] ∧ resting.phase = .ifetch ∧ resting.timeoutIrq = false ∧ resting.halted = true ∧
    (among resting [.cpu]).schedule = [.cpu] ∧ (among resting [.cpu]).halted = true := by decide +kernel

/-- `stuckHasLatch` has a stuck machine, `sendingAlone` one that sends. -/
theorem witness_StepKeepsInvariant :
    writing.Inv ∧ hung.Inv ∧ sending.Inv ∧ leads (step writing) (fun _ => true) = true ∧
    leads (step hung) (fun _ => true) = true ∧ leads (step sending) (fun _ => true) = true :=
  ⟨⟨by decide +kernel, by decide +kernel, by decide +kernel, by decide +kernel, by decide +kernel, nofun⟩,
    ⟨by decide +kernel, by decide +kernel, by decide +kernel, by decide +kernel, by decide +kernel, nofun⟩,
    ⟨by decide +kernel, by decide +kernel, by decide +kernel, by decide +kernel, by decide +kernel,
      fun x h => by cases h; decide +kernel⟩,
    by decide +kernel, by decide +kernel, by decide +kernel⟩

theorem witness_StepKeepsParityGood :
    resting.store.parityGood ∧ leads (step resting) (fun _ => true) = true ∧ (resting.memRead 0xFFF#12).isSome = true :=
  ⟨Memory.parityGood_writeWord _ _ _ (Memory.parityGood_writeWord _ _ _ Memory.parityGood_nil),
    by decide +kernel, by decide +kernel⟩

theorem witness_RegisterZeroReadsBusy :
    writing.pending ≠ .none ∧ pointers.pending = .none ∧ (writing.readReg 0#3).getLsbD 24 = true ∧
    (pointers.readReg 0#3).getLsbD 24 = false := by decide +kernel

/-- Both a result in register 0 and one elsewhere, and every sign of a result. -/
theorem witness_LogicalComputes :
    (0#3 : RegNo) = 0#3 ∧ (7#3 : RegNo) ≠ 0#3 ∧ (0#32).toInt = 0 ∧ (0x80000000#32).toInt < 0 ∧
    0 < (0x7FFFFFFF#32).toInt := by decide

/-- Overflow at the least sum that does not fit, none at the greatest that does. -/
theorem witness_ArithmeticStores :
    outOfRange (exactValue .add 0x7FFFFFFF#32 1#32 false) ∧ ¬ outOfRange (exactValue .add 0x7FFFFFFE#32 1#32 false) ∧
    outOfRange (exactValue .sub 0x80000000#32 1#32 false) ∧ ¬ outOfRange (exactValue .subc 0x80000001#32 1#32 true) := by
  unfold outOfRange
  decide

theorem witness_ArithmeticTests :
    carries .add 0xFFFFFFFF#32 1#32 false ∧ ¬ carries .add 0xFFFFFFFF#32 0#32 true ∧
    carries .sub 5#32 5#32 false ∧ ¬ carries .subc 5#32 5#32 false := by
  unfold carries
  decide

theorem witness_CompareOrders :
    leads (exec (.cmp false false 2#3 1#3 0#18) (machine 0x101#32 [(1#3, 5#32), (2#3, 5#32)] []))
      (fun t => decide (t.resultClass ≠ 3#2)) = true := by decide +kernel

theorem witness_ShiftAmountOf :
    ((machine 0#32 [(1#3, 31#32)] []).operand2 false 1#3 0#18).toNat = 31 := by decide +kernel

theorem witness_DivStepDivides :
    ((machine 0#32 [(1#3, 0x7FFFFFFF#32)] []).readReg 1#3).toNat = 2 ^ 31 - 1 := by decide +kernel

/-- The sum that just overflows, the one that just fits, with CC Overflow before and without; registers 0 and 1 as the
pair. -/
theorem witness_MulStepMultiplies :
    outOfRange ((2#32).toInt / 2 + (0x7FFFFFFF#32).toInt) ∧ ¬ outOfRange ((1#32).toInt / 2 + (0x7FFFFFFF#32).toInt) ∧
    (machine 0xC0000000#32 [] []).resultClass = 3#2 ∧ (machine 0x80000000#32 [] []).resultClass ≠ 3#2 ∧
    (1#3 : RegNo) ^^^ 1#3 = 0#3 := by
  unfold outOfRange
  decide +kernel

theorem witness_LoadReadsWord : resting.memRead 0xFFF#12 = some 0xFFFFFFFF#32 ∧ resting.memRead 0#12 = some 0#32 := by
  decide +kernel

theorem witness_DataReadOfBadWordHalts :
    resting.phase ≠ .stuck ∧ resting.memRead 0x001#12 = none ∧
    resting.memRead ((machine 0x8100#32 [(2#3, 0xFFE#32)] []).readReg 2#3 |>.extractLsb' 0 12) = none ∧
    resting.busy = false := by decide +kernel

/-- Every loop test at the numbers next to zero, true and false. -/
theorem witness_PointerModificationLoops :
    Loops 4#3 0xFFFFFFFF#32 ∧ Loops 2#3 0#32 ∧ Loops 1#3 1#32 ∧ ¬ Loops 3#3 0xFFFFFFFF#32 ∧ ¬ Loops 5#3 0#32 ∧
    ¬ Loops 6#3 1#32 := by
  unfold Loops
  decide

theorem witness_PointerSubtractionLoops :
    ¬ outOfRange ((0x80000000#32).toInt - (0xFFFFFFFF#32).toInt - 1) ∧ Loops 3#3 0#32 ∧ ¬ Loops 3#3 0xFFFFFFFF#32 := by
  unfold Loops outOfRange
  decide

theorem witness_IndirectLoads :
    pointers.memRead ((pointers.readReg 2#3).extractLsb' 0 12) = some 0x11111111#32 := by decide +kernel

theorem witness_IndirectStores : (0x300#12 : Addr) = (pointers.readReg 2#3).extractLsb' 0 12 := by decide +kernel

theorem witness_BusReadIssues :
    pointers.busy = false ∧ pointers.access = .idle ∧ (pointers.readReg 1#3).extractLsb' 16 8 ≠ 0xFF#8 := by
  decide +kernel

theorem witness_BusWriteIssues :
    pointers.busy = false ∧ pointers.access = .idle ∧ (pointers.readReg 1#3).extractLsb' 16 8 ≠ 0xFF#8 ∧
    pointers.memRead ((pointers.readReg 2#3).extractLsb' 0 12) = some 0x11111111#32 := by decide +kernel

theorem witness_BusFormWaits :
    writing.busy = true ∧
    ({ pointers with access := .wait8 } : State).busy = false ∧ ({ pointers with access := .wait8 } : State).access ≠ .idle ∧
    ({ pointers with access := .wait8 } : State).access ≠ .using ∧
    (pointers.readReg 1#3).extractLsb' 16 8 ≠ 0xFF#8 ∧ (pointers.readReg 2#3).extractLsb' 16 8 ≠ 0xFF#8 ∧
    pointers.memRead ((pointers.readReg 2#3).extractLsb' 0 12) = some 0x11111111#32 ∧
    (∃ x, sending.phase = .sending x ∧ x.op ≠ .none) ∧ CpuTurn sending [] ∧ CpuTurn (among sending [.cpu]) [] ∧
    sending.busy = false ∧ sending.access = .using ∧
    ({ sending with access := .requesting } : State).access ≠ .using ∧
    ({ sending with pending := .write 0#32 0#32 } : State).busy = true := by
  unfold CpuTurn
  exact ⟨by decide +kernel, by decide +kernel, by decide +kernel, by decide +kernel, by decide +kernel, by decide +kernel,
    by decide +kernel, ⟨_, rfl, by decide⟩, by decide +kernel, by decide +kernel, by decide +kernel, by decide +kernel,
    by decide +kernel, by decide +kernel⟩

theorem witness_SelfAddressRefused :
    (vector 0#32 [(1#3, 0x00FF0020#32)] []).busy = false ∧
    ((vector 0#32 [(1#3, 0x00FF0020#32)] []).readReg 1#3).extractLsb' 16 8 = 0xFF#8 ∧
    ((vector 0#32 [(2#3, 0x100#32)] []).memRead (((vector 0#32 [(2#3, 0x100#32)] []).readReg 2#3).extractLsb' 0 12)).isSome
      = true := by decide +kernel

theorem witness_CompletionDelivers :
    (among writing [.complete 7#32]).schedule = [.complete 7#32] ∧ (among writing [.complete 7#32]).phase ≠ .stuck ∧
    (among writing [.complete 7#32]).pending = .write 0x01FE0020#32 5#32 ∧ pointers.pending = .none ∧
    ({ writing with pending := .read 0x00FE0020#32 (.reg 0#3) } : State).pending = .read 0x00FE0020#32 (.reg 0#3) ∧
    ({ writing with pending := .read 0x00FE0020#32 (.mem 0xFFF#12) } : State).pending = .read 0x00FE0020#32 (.mem 0xFFF#12) := by
  decide +kernel

theorem witness_NoAnswerSticks :
    (among sending [.noAnswer]).schedule = [.noAnswer] ∧ (among sending [.noAnswer]).holdsBus = true ∧
    (among writing [.noAnswer]).holdsBus = true ∧ (among sending [.noAnswer]).phase ≠ .stuck ∧
    (among sending [.noAnswer]).timeout = false ∧ ({ sending with timeout := true } : State).holdsBus = true ∧
    (among waiting [.noAnswer]).holdsBus = false ∧ hung.phase = .stuck ∧ hung.schedule = [] ∧
    (among hung [.noAnswer]).phase = .stuck ∧ (among hung [.cpu]).schedule = [.cpu] ∧
    (among hung [.complete 7#32]).schedule = [.complete 7#32] ∧
    (among hung [.interrupt 0x49#32]).schedule = [.interrupt 0x49#32] := by decide +kernel

theorem witness_RejectWaitsThreeCycles :
    AccessState.rejectWait .wait3 = true ∧ AccessState.rejectWait .wait8 = true ∧
    [AccessSignal.busClk, .crej, .busClk, .crej, .busClk].length < 6 ∧
    (among waiting [.access .busClk]).schedule = [.access .busClk] ∧ (among waiting [.access .busClk]).wantsBus = true ∧
    waiting.busy = false ∧ waiting.phase ≠ .stuck ∧ pointers.wantsBus = false ∧ writing.busy = true ∧
    hung.phase = .stuck ∧ AccessSignal.available ≠ .reject := by decide +kernel

theorem witness_InterruptExchanges :
    (among pointers [.interrupt 0xFFFFF300#32]).schedule = [.interrupt 0xFFFFF300#32] ∧
    (among pointers [.interrupt 0xFFFFF300#32]).phase = .ifetch ∧ (0xFFFFF300#32).getLsbD 0 = false ∧
    (among pointers [.interrupt 0xFFFFF300#32]).memRead ((0xFFFFF300#32).extractLsb' 0 12) = some 0x11111111#32 := by
  decide +kernel

theorem witness_InterruptThroughBadWordHalts :
    (among pointers [.interrupt 0xFFE#32]).phase = .ifetch ∧ (0xFFE#32).getLsbD 0 = false ∧
    (among pointers [.interrupt 0xFFE#32]).memRead ((0xFFE#32).extractLsb' 0 12) = none := by decide +kernel

theorem witness_InterruptWaitsOrIsRefused :
    (among waiting [.interrupt 0x48#32]).phase = .aSeq 0x29430#18 ∧
    (∃ x, (among sending [.interrupt 0x48#32]).phase = .sending x) ∧ (among pointers [.interrupt 0x49#32]).phase = .ifetch ∧
    (0x49#32).getLsbD 0 = true :=
  ⟨by decide +kernel, ⟨_, rfl⟩, by decide +kernel, by decide⟩

/-- A halted machine with H cleared by the handler's word, and a running one. -/
theorem witness_ReturnRestoresState :
    (among resting [.interrupt 0#32]).phase = .ifetch ∧ (0#32).getLsbD 0 = false ∧
    (among resting [.interrupt 0#32]).memRead ((0#32).extractLsb' 0 12) = some 0#32 := by decide +kernel

/-- Running, and halted with the word 04C never written. -/
theorem witness_TimeoutInterrupts :
    (among pointers [.busTimeout]).timeout = false ∧ (among hung [.busTimeout]).timeout = true ∧
    (among hung [.busTimeout]).schedule = [.busTimeout] ∧
    CpuTurn { machine 0#32 [] [(0x04C#12, 6#32)] with timeoutIrq := true } [] ∧
    CpuTurn { resting with timeoutIrq := true, schedule := [.cpu, .run] } [.run] ∧
    (machine 0#32 [] [(0x04C#12, 6#32)]).phase = .ifetch ∧ resting.phase = .ifetch ∧
    (machine 0#32 [] [(0x04C#12, 6#32)]).memRead 0x04C#12 = some 6#32 ∧ resting.memRead 0x04C#12 = none ∧
    ({ machine 0#32 [] [(0x04C#12, 6#32)] with timeoutIrq := true } : State).timeoutIrq = true := by
  unfold CpuTurn
  decide +kernel

theorem witness_ParityResetClears :
    ({ resting with parityError := true, schedule := [.parityReset] } : State).schedule = [.parityReset] := by decide +kernel

theorem witness_RunAndHaltLines :
    (among resting [.run]).schedule = [.run] ∧ (among pointers [.haltStep]).schedule = [.haltStep] ∧
    (among pointers [.haltStep]).halted = false ∧
    (among { resting with phase := .aSeq 0#18 } [.haltStep]).phase ≠ .ifetch := by decide +kernel

/-- The microinstruction at FFF has a right half that is not omitted. -/
theorem witness_SingleStepRuns :
    (among (machine 0x8FFF#32 [] [(0xFFF#12, 1#32)]) [.haltStep]).phase = .ifetch ∧
    (among (machine 0x8FFF#32 [] [(0xFFF#12, 1#32)]) [.haltStep]).halted = true ∧
    (among (machine 0x8FFF#32 [] [(0xFFF#12, 1#32)]) [.haltStep]).memRead 0xFFF#12 = some 1#32 ∧
    (among (machine 0x8FFF#32 [] [(0xFFF#12, 1#32)]) [.haltStep]).mar = 0xFFF#12 ∧
    ([[.haltStep], [.haltStep, .cpu]].all fun acts => leads (step (among (machine 0x8FFF#32 [] [(0xFFF#12, 1#32)]) acts))
      fun t => decide (t.phase = .aSeq 1#18 ∧ t.schedule = acts.tail)) = true := by decide +kernel

theorem witness_MasterClearInitializes : (among hung [.masterClear]).schedule = [.masterClear] := by decide

/-- The first and the last address of each range of unit FF. -/
theorem witness_SlaveReadAnswers :
    (among resting [.slaveAccess 0x00FF0FFF#32 3#32]).schedule = [.slaveAccess 0x00FF0FFF#32 3#32] ∧
    (0x00FF0FFF#32).getLsbD 24 = false ∧
    (0x00FF0FFF#32).extractLsb' 16 8 = 0xFF#8 ∧ (0x00FF0FFF#32).extractLsb' 0 16 = 0#4 ++ 0xFFF#12 ∧
    resting.memRead 0xFFF#12 = some 0xFFFFFFFF#32 ∧ resting.memRead 0x001#12 = none ∧
    (0x00FF1000#32).extractLsb' 0 16 = 0x0200#13 ++ 0#3 ∧ (0x00FF1007#32).extractLsb' 0 16 = 0x0200#13 ++ 7#3 ∧
    0x1008 ≤ ((0x00FF1008#32).extractLsb' 0 16).toNat ∧ (0x00FE0000#32).extractLsb' 16 8 ≠ 0xFF#8 := by decide +kernel

theorem witness_SlaveWriteStores :
    (among resting [.slaveAccess 0x01FF0FFF#32 3#32]).schedule = [.slaveAccess 0x01FF0FFF#32 3#32] ∧
    (0x01FF0FFF#32).getLsbD 24 = true ∧
    (0x01FF0FFF#32).extractLsb' 16 8 = 0xFF#8 ∧ (0x01FF0FFF#32).extractLsb' 0 16 = 0#4 ++ 0xFFF#12 ∧
    (0x01FF1007#32).extractLsb' 0 16 = 0x0200#13 ++ 7#3 ∧ 0x1008 ≤ ((0x01FFFFFF#32).extractLsb' 0 16).toNat ∧
    (0x01FE0000#32).extractLsb' 16 8 ≠ 0xFF#8 := by decide +kernel

end Sys2Proof.Tests
end

section
/-! The amount of a shift or rotate (R211): the bounds of SHIFT_COUNT_BITS, the amount for each value of bit W, and
obligation O23. -/

namespace Sys2Proof.Machine

/-! ### SHIFT_COUNT_BITS (R6, D10): an open constant, of which only the bounds are known -/

theorem five_le_shiftCountBits : 5 ≤ Config.shiftCountBits :=
  Nat.le_add_right 5 _

theorem shiftCountBits_le : Config.shiftCountBits ≤ 32 := by
  have hextra : Config.shiftCountExtra.val < 28 := Config.shiftCountExtra.isLt
  unfold Config.shiftCountBits
  omega

/-- However many bits the shifter uses, it uses the five that hold an amount below 32. -/
theorem mod_shiftCountBits_of_lt {k : Nat} (hk : k < 32) : k % 2 ^ Config.shiftCountBits = k := by
  have hbits : 2 ^ 5 ≤ 2 ^ Config.shiftCountBits := Nat.pow_le_pow_right (by omega) five_le_shiftCountBits
  exact Nat.mod_eq_of_lt (Nat.lt_of_lt_of_le hk hbits)

/-! ### The amount (R211) -/

@[simp] theorem shiftAmount_val (s : State) (imm : Bool) (bf : RegNo) (acf : Acf) :
    s.shiftAmount imm true bf acf = bf.toNat := rfl

@[simp] theorem shiftAmount_operand (s : State) (imm : Bool) (bf : RegNo) (acf : Acf) :
    s.shiftAmount imm false bf acf = (s.operand2 imm bf acf).toNat % 2 ^ Config.shiftCountBits := rfl

theorem shiftAmount_operand_of_lt {s : State} {imm : Bool} {bf : RegNo} {acf : Acf}
    (hlt : (s.operand2 imm bf acf).toNat < 32) :
    s.shiftAmount imm false bf acf = (s.operand2 imm bf acf).toNat := by
  rw [shiftAmount_operand, mod_shiftCountBits_of_lt hlt]

/-- Settles O23, with SHIFT_COUNT_BITS itself for the number of bits. -/
theorem shiftAmountOf : Obligations.ShiftAmountOf :=
  ⟨Config.shiftCountBits, five_le_shiftCountBits, shiftCountBits_le, fun s imm bf acf =>
    ⟨shiftAmount_val s imm bf acf, shiftAmount_operand s imm bf acf, shiftAmount_operand_of_lt⟩⟩

end Sys2Proof.Machine
end

section
/-! What every step keeps (R31, R66, R80, R102, R108, R331, R333): the machine's invariant and the parity bits of the
control store, carried together through the operations, the instructions and the acts; obligations O10, O11 and O12. -/

namespace Sys2Proof.Machine

open Host

/-! ### The relation of a state to one that the machine reaches from it -/

/-- `t` keeps what the invariants ask of a machine that goes from `s` to `t`. -/
structure Keeps (s t : State) : Prop where
  /-- The invariant of the machine. -/
  inv : s.Inv → t.Inv
  /-- Written control-store words are right, the others unlisted (R66). -/
  parity : s.store.parityGood → t.store.parityGood
  /-- A readable control-store word stays readable (R331). -/
  readable : ∀ a, (s.memRead a).isSome = true → (t.memRead a).isSome = true

/-- Every next state that an outcome gives keeps what `s` has. -/
def NextKeeps (s : State) (o : Outcome State Fault Refusal) : Prop := ∀ t, o = .next t → Keeps s t

variable {s t u : State}

theorem Keeps.refl (s : State) : Keeps s s := ⟨id, id, fun _ => id⟩

theorem Keeps.trans (h : Keeps s t) (h' : Keeps t u) : Keeps s u :=
  ⟨h'.inv ∘ h.inv, h'.parity ∘ h.parity, fun a => h'.readable a ∘ h.readable a⟩

/-- Without a write to the control store only the invariant is in question. -/
theorem Keeps.of_store_eq (hstore : t.store = s.store) (hinv : s.Inv → t.Inv) : Keeps s t := by
  refine ⟨hinv, fun h => hstore ▸ h, fun a h => ?_⟩
  rwa [State.memRead, hstore]

theorem NextKeeps.next (h : Keeps s t) : NextKeeps s (.next t) := by
  rintro _ ⟨⟩
  exact h

theorem NextKeeps.refused (r : Refusal) : NextKeeps s (.refused r) := by
  rintro _ ⟨⟩

theorem NextKeeps.trans {o : Outcome State Fault Refusal} (h : Keeps s t) (h' : NextKeeps t o) : NextKeeps s o :=
  fun u hu => h.trans (h' u hu)

/-! ### The operations -/

theorem Keeps.writeReg (s : State) (r : RegNo) (v : Word) : Keeps s (s.writeReg r v) :=
  .of_store_eq rfl (·.writeReg r v)

theorem Keeps.setCC (s : State) (res : Word) (carry ovf : Bool) : Keeps s (s.setCC res carry ovf) :=
  .of_store_eq rfl (·.setCC res carry ovf)

theorem Keeps.writePair (s : State) (r : RegNo) (q : BitVec 64) : Keeps s (s.writePair r q) :=
  .of_store_eq rfl (·.writePair r q)

theorem Keeps.drawn (s : State) : Keeps s s.drawn := .of_store_eq rfl (·.drawn)

theorem Keeps.incMar (s : State) : Keeps s s.incMar := .of_store_eq rfl (·.incMar)

theorem Keeps.branchBy (s : State) (val : BitVec 4) : Keeps s (s.branchBy val) := .of_store_eq rfl (·.branchBy val)

theorem Keeps.setHalted (s : State) (h : Bool) : Keeps s (s.setHalted h) := .of_store_eq rfl (·.setHalted h)

theorem Keeps.afterT (s : State) (skip : Bool) (acf : Acf) : Keeps s (s.afterT skip acf) :=
  .of_store_eq rfl (·.afterT skip acf)

theorem Keeps.endA (s : State) : Keeps s s.endA := .of_store_eq rfl (·.endA)

theorem Keeps.withSchedule (s : State) (rest : List Act) : Keeps s (s.withSchedule rest) :=
  .of_store_eq rfl (·.withSchedule rest)

theorem Keeps.gave (s : State) (aw d : Word) : Keeps s (s.gave aw d) := .of_store_eq rfl (·.gave aw d)

theorem Keeps.irqDone (s : State) : Keeps s s.irqDone := .of_store_eq rfl (·.irqDone)

theorem Keeps.parityFault (s : State) (mar : Option Addr) : Keeps s (s.parityFault mar) :=
  .of_store_eq (State.store_parityFault mar) (·.parityFault mar)

theorem Keeps.masterCleared (s : State) : Keeps s s.masterCleared := .of_store_eq rfl (·.masterCleared)

/-- The one operation that writes the control store (R66). -/
theorem Keeps.memWrite (s : State) (a : Addr) (v : Word) : Keeps s (s.memWrite a v) :=
  ⟨(·.memWrite a v), (State.parityGood_memWrite · a v), fun b => State.isSome_memRead_memWrite a b v⟩

theorem State.store_modify (s : State) (cf df : RegNo) (ef : BitVec 2) (val : BitVec 4) :
    (s.modify cf df ef val).store = s.store := by
  unfold State.modify
  cases ef.getLsbD 0 <;> cases ef.getLsbD 1 <;> rfl

theorem Keeps.modify (s : State) (cf df : RegNo) (ef : BitVec 2) (val : BitVec 4) :
    Keeps s (s.modify cf df ef val) :=
  .of_store_eq (s.store_modify cf df ef val) (·.modify cf df ef val)

theorem State.store_sendAddress (s : State) (x : Sending) : (s.sendAddress x).store = s.store := by
  unfold State.sendAddress
  split
  · exact State.store_modify _ _ _ _ _
  · rfl

/-- An address is sent where no operation is outstanding (R77). -/
theorem Keeps.sendAddress (x : Sending) (hidle : s.Inv → s.busy = false ∧ x.op ≠ .none) :
    Keeps s (s.sendAddress x) :=
  .of_store_eq (s.store_sendAddress x) fun h => h.sendAddress x (hidle h).1 (hidle h).2

theorem Keeps.withWord (s : State) (a : Addr) {k : Word → State} (hk : ∀ w, Keeps s (k w)) :
    Keeps s (s.withWord a k) := by
  unfold State.withWord
  split
  · exact hk _
  · exact .parityFault s none

theorem Keeps.loadReg (s : State) (r : RegNo) (a : Addr) : Keeps s (s.loadReg r a) :=
  .withWord s a fun w => .writeReg s r w

theorem Keeps.interruptThrough (s : State) (e : Addr) : Keeps s (s.interruptThrough e) :=
  .trans (.memWrite s _ _) (.withWord _ e fun w => .writeReg _ 0#3 w)

theorem Keeps.timeoutInterrupt (s : State) : Keeps s s.timeoutInterrupt := by
  unfold State.timeoutInterrupt
  dsimp only
  split
  · exact .trans (.interruptThrough s _) (.irqDone _)
  · exact .interruptThrough s _

/-! ### The instructions, one lemma for each operation that several share -/

theorem Keeps.logical (s : State) (f : Word → Word → Word) (imm : Bool) (bf af : RegNo) (acf : Acf) :
    Keeps s (s.logical f imm bf af acf) :=
  .trans (.writeReg s _ _) (.trans (.setCC _ _ _ _) (.trans (.drawn _) (.afterT _ _ _)))

theorem Keeps.arithmetic (s : State) (fn : AluFn) (keep imm w : Bool) (bf af : RegNo) (acf : Acf) :
    Keeps s (s.arithmetic fn keep imm w bf af acf) := by
  cases keep
  case false => exact .trans (.setCC s _ _ _) (.afterT _ _ _)
  case true => exact .trans (.writeReg s _ _) (.trans (.setCC _ _ _ _) (.afterT _ _ _))

/-- A left half that writes one register. -/
theorem Keeps.writeRegT (s : State) (r : RegNo) (v : Word) (skip : Bool) (acf : Acf) :
    Keeps s ((s.writeReg r v).afterT skip acf) := .trans (.writeReg s r v) (.afterT _ _ _)

/-- A left half that writes a pair of registers. -/
theorem Keeps.writePairT (s : State) (r : RegNo) (q : BitVec 64) (skip : Bool) (acf : Acf) :
    Keeps s ((s.writePair r q).afterT skip acf) := .trans (.writePair s r q) (.afterT _ _ _)

theorem Keeps.mulStepClass (s : State) (prev ovf : Bool) : Keeps s (s.mulStepClass prev ovf) := by
  unfold State.mulStepClass
  split
  · exact .of_store_eq rfl (·.setClass _)
  · split
    · exact .of_store_eq rfl fun h => (h.setClass _).drawn
    · exact .refl s

theorem Keeps.pointerMod (s : State) (cf : RegNo) (r : Word) (xop : BitVec 3) (val : BitVec 4) :
    Keeps s (s.pointerMod cf r xop val) := by
  unfold State.pointerMod
  dsimp only
  split
  · exact .trans (.writeReg s cf r) (.trans (.branchBy _ val) (.endA _))
  · exact .trans (.writeReg s cf r) (.endA _)

theorem NextKeeps.branch (s : State) (bmask : BitVec 8) (v c sel : Bool) (val : BitVec 4) :
    NextKeeps s (execBranch bmask v c sel val s) := by
  refine .next (.trans ?_ (.endA _))
  split
  · exact .branchBy s val
  · exact .refl s

/-- A bus form that has found no operation outstanding. -/
theorem NextKeeps.busForm (hbusy : s.busy = false) (aw : Word) {p : Pending} (hp : p ≠ .none) (cf df : RegNo)
    (ef : BitVec 2) (val : BitVec 4) : NextKeeps s (s.busForm aw p cf df ef val) := by
  unfold State.busForm
  split
  · exact .refused _
  · exact .next (.sendAddress _ fun _ => ⟨hbusy, hp⟩)

/-- A bus form waits while an operation is outstanding (R295). -/
theorem NextKeeps.unlessBusy {o : Outcome State Fault Refusal} (h : s.busy = false → NextKeeps s o) :
    NextKeeps s (if s.busy then .next s else o) := by
  split
  case isTrue => exact .next (.refl s)
  case isFalse hbusy => exact h (Bool.eq_false_iff.mpr hbusy)

theorem NextKeeps.iaXM (s : State) (cf df : RegNo) (ef : BitVec 2) (val : BitVec 4) :
    NextKeeps s (execIaXM cf df ef val s) := by
  refine .unlessBusy fun hbusy => ?_
  dsimp only
  split
  · exact .busForm hbusy _ (by simp) cf df ef val
  · exact .next (.parityFault s none)

/-- Every microinstruction half keeps the invariants. -/
theorem exec_keeps (i : Instr) (s : State) : NextKeeps s (exec i s) := by
  cases i with
  | logNotA imm bf af acf | logNand imm bf af acf | logOrNA imm bf af acf | logOnes imm bf af acf
  | logNor imm bf af acf | logNotB imm bf af acf | logXnor imm bf af acf | logOrNB imm bf af acf
  | logAndNA imm bf af acf | logXor imm bf af acf | logTransfer imm bf af acf | logOr imm bf af acf
  | logClear imm bf af acf | logAndNB imm bf af acf | logAnd imm bf af acf | logTest imm bf af acf =>
    exact .next (.logical s _ imm bf af acf)
  | sub imm w bf af acf | subc imm w bf af acf | add imm w bf af acf | addc imm w bf af acf
  | cmp imm w bf af acf | cmpc imm w bf af acf | tadd imm w bf af acf | taddc imm w bf af acf =>
    exact .next (.arithmetic s _ _ imm w bf af acf)
  | rol imm w bf af acf | sll imm w bf af acf | srl imm w bf af acf | sra imm w bf af acf =>
    exact .next (.writeRegT s af _ imm acf)
  | drol imm w bf af acf | dsll imm w bf af acf | dsrl imm w bf af acf | dsra imm w bf af acf =>
    exact .next (.writePairT s af _ imm acf)
  | divStep skip bf af acf => exact .next (.writePairT s af _ skip acf)
  | transfer skip bf af acf | excess6 skip bf af acf => exact .next (.writeRegT s af _ skip acf)
  | mulStep skip bf af acf =>
    exact .next (.trans (.writePair s af _) (.trans (.mulStepClass _ _ _) (.afterT _ skip acf)))
  | extract pos bf af acf | insert pos bf af acf => exact .next (.writeRegT s af _ true acf)
  | conditional cmask v c sel acf => exact .next (.afterT s _ acf)
  | branch bmask v c sel val => exact .branch s bmask v c sel val
  | store cf adr => exact .next (.trans (.memWrite s adr _) (.endA _))
  | load cf adr => exact .next (.trans (.loadReg s cf adr) (.endA _))
  | loadi cf adr => exact .next (.trans (.writeReg s cf _) (.endA _))
  | pmInc cf df xop val | pmDec cf df xop val | pmAdd cf df xop val | pmSub1 cf df xop val =>
    exact .next (.pointerMod s cf _ xop val)
  | iaMX cf df ef val | iaRX cf df ef val | iaXR cf df ef val =>
    exact .unlessBusy fun hbusy => .busForm hbusy _ (by simp) cf df ef val
  | iaXM cf df ef val => exact .iaXM s cf df ef val
  | iaRM cf df ef val => exact .next (.withWord s _ fun w => .trans (.writeReg s cf w) (.modify _ cf df ef val))
  | iaMR cf df ef val => exact .next (.trans (.memWrite s _ _) (.modify _ cf df ef val))
  | iaRR cf df ef val => exact .next (.trans (.writeReg s cf _) (.modify _ cf df ef val))
  | extUnassigned _ _ _ _ _ | tSpare _ | aSpare1 _ | aSpare2 _ | iaUnassigned _ _ _ _ => exact .refused _

/-! ### The CPU's sequences -/

theorem fetchAndT_keeps (s : State) : NextKeeps s s.fetchAndT := by
  unfold State.fetchAndT
  split
  · exact .next (.parityFault s _)
  · exact .trans (.incMar s) (exec_keeps _ _)

theorem sequence_keeps (s : State) : NextKeeps s s.sequence := by
  cases hphase : s.phase with
  | stuck => rw [State.sequence_stuck hphase]; exact .next (.refl s)
  | aSeq acf => rw [State.sequence_aSeq hphase]; exact exec_keeps _ s
  | sending x =>
    rw [State.sequence_sending hphase]
    exact .next (.sendAddress x fun h => h.sendingAlone x hphase)
  | ifetch =>
    cases howed : s.timeoutIrq
    case true => rw [State.sequence_owed hphase howed]; exact .next (.timeoutInterrupt s)
    case false =>
      cases hhalted : s.halted
      case true => rw [State.sequence_halted hphase howed hhalted]; exact .next (.refl s)
      case false => rw [State.sequence_fetch hphase howed hhalted]; exact fetchAndT_keeps s

theorem thenRightHalf_keeps {o : Outcome State Fault Refusal} (h : NextKeeps s o) : NextKeeps s (thenRightHalf o) := by
  cases o with
  | next t =>
    have hst : Keeps s t := h t rfl
    unfold thenRightHalf
    dsimp only
    split
    · exact .trans hst (exec_keeps _ t)
    all_goals exact .next hst
  | fault r => exact nomatch r
  | refused r => exact .refused r

theorem runAlone_keeps (s : State) : NextKeeps s s.runAlone := by
  cases hphase : s.phase with
  | ifetch => rw [State.runAlone_ifetch hphase]; exact thenRightHalf_keeps (sequence_keeps s)
  | aSeq acf => rw [State.runAlone_aSeq hphase]; exact exec_keeps _ s
  | sending x => rw [State.runAlone_sending hphase, ← State.sequence_sending hphase]; exact sequence_keeps s
  | stuck => rw [State.runAlone_stuck hphase]; exact .next (.refl s)

/-! ### The acts of the other agents -/

theorem slaveReads_keeps (s : State) (aw : Word) : NextKeeps s (s.slaveReads aw) := by
  unfold State.slaveReads
  split
  · split
    · split
      · exact .next (.gave s _ _)
      · exact .next (.trans (.parityFault s none) (.gave _ _ _))
    · exact .next (.gave s _ _)
    · exact .refused _
  · exact .next (.refl s)

theorem slaveWrites_keeps (s : State) (aw v : Word) : NextKeeps s (s.slaveWrites aw v) := by
  unfold State.slaveWrites
  split
  · split
    · exact .next (.memWrite s _ v)
    · exact .next (.writeReg s _ v)
    · exact .refused _
  · exact .next (.refl s)

theorem slaveAccessed_keeps (s : State) (aw v : Word) : NextKeeps s (s.slaveAccessed aw v) := by
  unfold State.slaveAccessed
  split
  · exact slaveWrites_keeps s aw v
  · exact slaveReads_keeps s aw

theorem interrupted_keeps (s : State) (v : Word) : NextKeeps s (s.interrupted v) := by
  unfold State.interrupted
  split
  · exact .refused _
  · exact .next (.interruptThrough s _)

/-- Delivering the data of a read writes a register or a control-store word (R79). -/
theorem busComplete_keeps (hphase : s.phase ≠ .stuck) (d : Word) : Keeps s (s.busComplete d) := by
  have hinv : s.Inv → (s.busComplete d).Inv := fun h => h.busComplete hphase d
  cases hpending : s.pending with
  | none => rw [State.busComplete, hpending]; exact .refl s
  | write aw v => exact .of_store_eq (by rw [State.busComplete, hpending]) hinv
  | read aw dest =>
    cases dest with
    | reg r => exact .of_store_eq (by rw [State.busComplete, hpending]; rfl) hinv
    | mem a =>
      have hstore : (s.busComplete d).store = (s.memWrite a d).store := by rw [State.busComplete, hpending]; rfl
      have hwrite : Keeps s (s.memWrite a d) := .memWrite s a d
      exact ⟨hinv, fun h => hstore ▸ hwrite.parity h, fun b h => by
        rw [State.memRead, hstore]; exact hwrite.readable b h⟩

theorem completes_keeps (s : State) (d : Word) : Keeps s (s.completes d) := by
  unfold State.completes
  split
  case isTrue => exact .refl s
  case isFalse hphase => exact busComplete_keeps hphase d

theorem getsNoAnswer_keeps (s : State) : NextKeeps s s.getsNoAnswer := by
  unfold State.getsNoAnswer
  split
  · exact .next (.refl s)
  · split
    · exact .refused _
    · exact .next (.of_store_eq rfl fun h =>
        ⟨h.storeWf, h.busyNotStored, fun _ => rfl, fun _ => rfl, fun _ => ⟨rfl, rfl⟩, nofun⟩)

theorem busTimesOut_keeps (s : State) : NextKeeps s s.busTimesOut := by
  unfold State.busTimesOut
  split
  · exact .refused _
  · exact .next (.of_store_eq rfl (·.timedOut))

theorem haltOrStep_keeps (s : State) : NextKeeps s s.haltOrStep := by
  unfold State.haltOrStep
  split
  · exact fetchAndT_keeps s
  · exact .next (.setHalted s true)

/-- The access controller moves only while no operation is outstanding and the CPU is not stuck (R108). -/
theorem accessLine_keeps (s : State) (sig : AccessSignal) : Keeps s (s.accessLine sig) := by
  unfold State.accessLine
  split
  case isTrue => exact .refl s
  case isFalse hfree =>
    simp only [Bool.or_eq_true, decide_eq_true_eq, not_or, Bool.not_eq_true] at hfree
    obtain ⟨hphase, hbusy⟩ := hfree
    exact .of_store_eq rfl fun h => ⟨h.storeWf, h.busyNotStored, fun e => absurd (hbusy.symm.trans e) Bool.false_ne_true,
      h.owedHasLatch, fun e => absurd e hphase, h.sendingAlone⟩

/-- An offered interrupt is taken, waits while the CPU goes on, or has no effect (R351, R80). -/
theorem interruptOffered_keeps (s : State) (rest : List Act) (v : Word) :
    NextKeeps s ((s.withSchedule rest).interruptOffered v s.sequence) := by
  unfold State.interruptOffered
  split
  · exact .trans (.withSchedule s rest) (interrupted_keeps _ v)
  · exact sequence_keeps s
  · exact sequence_keeps s
  · exact .next (.withSchedule s rest)

/-- Every act of an agent keeps the invariants (R86). -/
theorem perform_keeps (s : State) (rest : List Act) (a : Act) : NextKeeps s (s.perform (s.withSchedule rest) a) := by
  have hrest : Keeps s (s.withSchedule rest) := .withSchedule s rest
  cases a with
  | cpu => exact .trans hrest (sequence_keeps _)
  | slaveAccess aw v => exact .trans hrest (slaveAccessed_keeps _ aw v)
  | interrupt v => exact interruptOffered_keeps s rest v
  | complete d => exact .next (.trans hrest (completes_keeps _ d))
  | noAnswer => exact .trans hrest (getsNoAnswer_keeps _)
  | busTimeout => exact .trans hrest (busTimesOut_keeps _)
  | run => exact .next (.trans hrest (.setHalted _ false))
  | haltStep => exact .trans hrest (haltOrStep_keeps _)
  | parityReset => exact .next (.trans hrest (.of_store_eq rfl (·.parityReset)))
  | masterClear => exact .next (.trans hrest (.masterCleared _))
  | access sig => exact .next (.trans hrest (accessLine_keeps _ sig))

/-- Every step keeps the invariants, whatever act comes next. -/
theorem step_keeps (s : State) : NextKeeps s (step s) := by
  cases hsched : s.schedule with
  | nil => rw [step_nil hsched]; exact runAlone_keeps s
  | cons a rest => rw [step_cons hsched]; exact perform_keeps s rest a

/-! ### The obligations -/

/-- Settles O10: the invariant is one of the things that every step keeps. -/
theorem stepKeepsInvariant : Obligations.StepKeepsInvariant :=
  fun s t hinv hstep => (step_keeps s t hstep).inv hinv

/-- Settles O12: so are the parity bits of the control store. -/
theorem stepKeepsParityGood : Obligations.StepKeepsParityGood :=
  fun s t hgood hstep => ⟨(step_keeps s t hstep).parity hgood, (step_keeps s t hstep).readable⟩

/-- Settles O11: no cell is listed, no bit is set and nothing is pending after reset. -/
theorem invariantAtReset : Obligations.InvariantAtReset where
  storeWf := rfl
  busyNotStored := by decide
  pendingHoldsBus := nofun
  owedHasLatch := nofun
  stuckHasLatch := nofun
  sendingAlone := nofun

end Sys2Proof.Machine
end

section
/-! Register 0, the operands' results and the condition codes: LOGICAL, ARITHMETIC, the code test and BRANCH
(R27, R30, R160 to R202, R260, R321); obligations O7, O13, O14, O17, O18, O19, O20, O30 and O32. -/

namespace Sys2Proof.Machine

/-! ### Reset, register 0 and MAR -/

/-- Settles O13. -/
theorem resetLeaves : Obligations.ResetLeaves :=
  ⟨by decide, fun _ => rfl, rfl, rfl, rfl, rfl, rfl, rfl⟩

theorem State.busy_iff (s : State) : s.busy = true ↔ s.pending ≠ .none := by
  rw [State.busy, decide_eq_true_iff]

/-- Settles O14. -/
theorem registerZeroReadsBusy : Obligations.RegisterZeroReadsBusy := by
  intro s
  refine ⟨fun k _ hk => ?_, ?_, fun r hr => s.readReg_of_ne hr⟩
  · rw [State.getLsbD_readReg_zero, if_neg hk]
  · rw [State.getLsbD_readReg_zero, if_pos rfl, State.busy_iff]

/-- A write of MAR alone changes no other register. -/
theorem State.setMar_sameRegs (s : State) (m : Addr) : SameRegsExcept [0#3] s (s.setMar m) := by
  intro r hr
  exact s.raw_setMar_ne (fun h => hr (List.mem_singleton.mpr h)) m

/-- Settles O7. -/
theorem fetchIncrementsMar : Obligations.FetchIncrementsMar := by
  intro s
  refine ⟨?_, s.setMar_aboveMar _, s.setMar_sameRegs _, fun _ => rfl, ⟨rfl, rfl⟩, ⟨rfl, rfl, rfl, rfl, rfl⟩, rfl⟩
  rw [State.mar_incMar, BitVec.toNat_add]
  rfl

/-! ### LOGICAL -/

/-- `f` computes the Boolean function `g` on each pair of bits (R161, R179). -/
def Bitwise (f : Word → Word → Word) (g : Bool → Bool → Bool) : Prop :=
  ∀ (a b : Word) (k : Nat), k < 32 → (f a b).getLsbD k = g (a.getLsbD k) (b.getLsbD k)

/-- What is claimed of the LOGICAL microinstruction `p.1` with the truth table `p.2`. -/
def LogicalRow (p : (Bool → RegNo → RegNo → Acf → Instr) × (Bool → Bool → Bool)) : Prop :=
  ∀ (imm : Bool) (bf af : RegNo) (acf : Acf) (s : State),
    ∃ (t : State) (res : Word), exec (p.1 imm bf af acf) s = .next t ∧
      (∀ k, k < 32 → res.getLsbD k = p.2 ((s.readReg af).getLsbD k) ((s.operand2 imm bf acf).getLsbD k)) ∧
      HoldsResult af res s t ∧ ShowsCodes t res False ∧ LeftFrame [0#3, af] imm acf s t

theorem logicalRow {row : Bool → RegNo → RegNo → Acf → Instr} {f : Word → Word → Word} {g : Bool → Bool → Bool}
    (hbits : Bitwise f g)
    (hexec : ∀ imm bf af acf s, exec (row imm bf af acf) s = .next (s.logical f imm bf af acf)) :
    LogicalRow (row, g) := by
  intro imm bf af acf s
  obtain ⟨hresult, hcodes, hframe⟩ := s.logical_spec f imm bf af acf
  exact ⟨_, _, hexec imm bf af acf s, hbits _ _, hresult, hcodes, hframe⟩

theorem bitwise_notA : Bitwise (fun a _ => ~~~a) (fun a _ => !a) := by
  intro a b k hk; simp [hk]

theorem bitwise_nand : Bitwise (fun a b => ~~~(a &&& b)) (fun a b => !(a && b)) := by
  intro a b k hk; simp [hk]

theorem bitwise_orNA : Bitwise (fun a b => ~~~a ||| b) (fun a b => !a || b) := by
  intro a b k hk; simp [hk]

theorem bitwise_ones : Bitwise (fun _ _ => 0xFFFFFFFF#32) (fun _ _ => true) := by
  intro a b k hk
  exact (BitVec.getLsbD_allOnes (v := 32)).trans (decide_eq_true hk)

theorem bitwise_nor : Bitwise (fun a b => ~~~(a ||| b)) (fun a b => !(a || b)) := by
  intro a b k hk; simp [hk]

theorem bitwise_notB : Bitwise (fun _ b => ~~~b) (fun _ b => !b) := by
  intro a b k hk; simp [hk]

theorem bitwise_xnor : Bitwise (fun a b => ~~~(a ^^^ b)) (fun a b => a == b) := by
  intro a b k hk
  rw [BitVec.getLsbD_not, BitVec.getLsbD_xor, decide_eq_true hk, Bool.true_and]
  cases a.getLsbD k <;> cases b.getLsbD k <;> rfl

theorem bitwise_orNB : Bitwise (fun a b => a ||| ~~~b) (fun a b => a || !b) := by
  intro a b k hk; simp [hk]

theorem bitwise_andNA : Bitwise (fun a b => ~~~a &&& b) (fun a b => !a && b) := by
  intro a b k hk; simp [hk]

theorem bitwise_xor : Bitwise (fun a b => a ^^^ b) (fun a b => a != b) := by
  intro a b k _
  exact BitVec.getLsbD_xor

theorem bitwise_transfer : Bitwise (fun _ b => b) (fun _ b => b) := fun _ _ _ _ => rfl

theorem bitwise_or : Bitwise (fun a b => a ||| b) (fun a b => a || b) := fun _ _ _ _ => BitVec.getLsbD_or

theorem bitwise_clear : Bitwise (fun _ _ => 0#32) (fun _ _ => false) := fun _ _ _ _ => BitVec.getLsbD_zero

theorem bitwise_andNB : Bitwise (fun a b => a &&& ~~~b) (fun a b => a && !b) := by
  intro a b k hk; simp [hk]

theorem bitwise_and : Bitwise (fun a b => a &&& b) (fun a b => a && b) := fun _ _ _ _ => BitVec.getLsbD_and

theorem bitwise_test : Bitwise (fun a _ => a) (fun a _ => a) := fun _ _ _ _ => rfl

/-- Settles O17, row by row of the truth table. -/
theorem logicalComputes : Obligations.LogicalComputes := by
  show ∀ p ∈ _, LogicalRow p
  simp only [List.forall_mem_cons]
  exact ⟨logicalRow bitwise_notA fun _ _ _ _ _ => exec_logNotA _ _ _ _ _,
    logicalRow bitwise_nand fun _ _ _ _ _ => exec_logNand _ _ _ _ _,
    logicalRow bitwise_orNA fun _ _ _ _ _ => exec_logOrNA _ _ _ _ _,
    logicalRow bitwise_ones fun _ _ _ _ _ => exec_logOnes _ _ _ _ _,
    logicalRow bitwise_nor fun _ _ _ _ _ => exec_logNor _ _ _ _ _,
    logicalRow bitwise_notB fun _ _ _ _ _ => exec_logNotB _ _ _ _ _,
    logicalRow bitwise_xnor fun _ _ _ _ _ => exec_logXnor _ _ _ _ _,
    logicalRow bitwise_orNB fun _ _ _ _ _ => exec_logOrNB _ _ _ _ _,
    logicalRow bitwise_andNA fun _ _ _ _ _ => exec_logAndNA _ _ _ _ _,
    logicalRow bitwise_xor fun _ _ _ _ _ => exec_logXor _ _ _ _ _,
    logicalRow bitwise_transfer fun _ _ _ _ _ => exec_logTransfer _ _ _ _ _,
    logicalRow bitwise_or fun _ _ _ _ _ => exec_logOr _ _ _ _ _,
    logicalRow bitwise_clear fun _ _ _ _ _ => exec_logClear _ _ _ _ _,
    logicalRow bitwise_andNB fun _ _ _ _ _ => exec_logAndNB _ _ _ _ _,
    logicalRow bitwise_and fun _ _ _ _ _ => exec_logAnd _ _ _ _ _,
    logicalRow bitwise_test fun _ _ _ _ _ => exec_logTest _ _ _ _ _,
    List.forall_mem_nil _⟩

/-! ### ARITHMETIC -/

/-- What is claimed of the ARITHMETIC microinstruction `p.1`, which stores the result of the function `p.2`. -/
def StoringRow (p : (Bool → Bool → RegNo → RegNo → Acf → Instr) × AluFn) : Prop :=
  ∀ (imm w : Bool) (bf af : RegNo) (acf : Acf) (s : State),
    ∃ (t : State) (res : Word), exec (p.1 imm w bf af acf) s = .next t ∧
      ArithmeticEffect p.2 (s.readReg af) (s.arithOperand imm w bf acf) s.carry res t ∧
      HoldsResult af res s t ∧ LeftFrame [0#3, af] imm acf s t

/-- The same of one that only sets the condition codes. -/
def TestingRow (p : (Bool → Bool → RegNo → RegNo → Acf → Instr) × AluFn) : Prop :=
  ∀ (imm w : Bool) (bf af : RegNo) (acf : Acf) (s : State),
    ∃ (t : State) (res : Word), exec (p.1 imm w bf af acf) s = .next t ∧
      ArithmeticEffect p.2 (s.readReg af) (s.arithOperand imm w bf acf) s.carry res t ∧
      SameBelowCodes s t ∧ LeftFrame [0#3] imm acf s t

theorem storingRow {row : Bool → Bool → RegNo → RegNo → Acf → Instr} {fn : AluFn}
    (hexec : ∀ imm w bf af acf s, exec (row imm w bf af acf) s = .next (s.arithmetic fn true imm w bf af acf)) :
    StoringRow (row, fn) := by
  intro imm w bf af acf s
  obtain ⟨res, heffect, hkept, -, hframe⟩ := s.arithmetic_spec fn true imm w bf af acf
  exact ⟨_, res, hexec imm w bf af acf s, heffect, hkept rfl, hframe⟩

theorem testingRow {row : Bool → Bool → RegNo → RegNo → Acf → Instr} {fn : AluFn}
    (hexec : ∀ imm w bf af acf s, exec (row imm w bf af acf) s = .next (s.arithmetic fn false imm w bf af acf)) :
    TestingRow (row, fn) := by
  intro imm w bf af acf s
  obtain ⟨res, heffect, -, hbelow, hframe⟩ := s.arithmetic_spec fn false imm w bf af acf
  exact ⟨_, res, hexec imm w bf af acf s, heffect, hbelow rfl, hframe⟩

/-- Settles O18. -/
theorem arithmeticStores : Obligations.ArithmeticStores := by
  show ∀ p ∈ _, StoringRow p
  simp only [List.forall_mem_cons]
  exact ⟨storingRow fun _ _ _ _ _ _ => exec_sub _ _ _ _ _ _,
    storingRow fun _ _ _ _ _ _ => exec_subc _ _ _ _ _ _,
    storingRow fun _ _ _ _ _ _ => exec_add _ _ _ _ _ _,
    storingRow fun _ _ _ _ _ _ => exec_addc _ _ _ _ _ _,
    List.forall_mem_nil _⟩

theorem cmp_row : TestingRow (.cmp, .sub) := testingRow fun _ _ _ _ _ _ => exec_cmp _ _ _ _ _ _

/-- Settles O19. -/
theorem arithmeticTests : Obligations.ArithmeticTests := by
  show ∀ p ∈ _, TestingRow p
  simp only [List.forall_mem_cons]
  exact ⟨cmp_row,
    testingRow fun _ _ _ _ _ _ => exec_cmpc _ _ _ _ _ _,
    testingRow fun _ _ _ _ _ _ => exec_tadd _ _ _ _ _ _,
    testingRow fun _ _ _ _ _ _ => exec_taddc _ _ _ _ _ _,
    List.forall_mem_nil _⟩

/-- A value that 32 bits can hold is the value of the word it is wrapped to. -/
theorem toInt_ofInt_of_fits {v : Int} (h : ¬ outOfRange v) : (BitVec.ofInt 32 v).toInt = v := by
  unfold outOfRange at h
  rw [BitVec.toInt_ofInt]
  exact Int.bmod_eq_of_le (by omega) (by omega)

/-- The class of a difference that fits compares the operands as signed numbers (R33, R197). -/
theorem resultClass_orders {t : State} {a b : Word} {c : Bool} {res : Word}
    (heffect : ArithmeticEffect .sub a b c res t) (hfits : t.resultClass ≠ 3#2) :
    (t.resultClass = 0#2 ↔ a = b) ∧ (t.resultClass = 1#2 ↔ a.toInt < b.toInt) ∧
    (t.resultClass = 2#2 ↔ b.toInt < a.toInt) := by
  obtain ⟨hresult, -, hcodes⟩ := heffect
  have hrange : ¬ outOfRange (a.toInt - b.toInt) := fun h => hfits (hcodes.overflow.mpr h)
  have hres : res.toInt = a.toInt - b.toInt := by rw [hresult]; exact toInt_ofInt_of_fits hrange
  rw [hcodes.sign hrange, hres, ← BitVec.toInt_inj (x := a)]
  by_cases hzero : a.toInt - b.toInt = 0
  · rw [if_pos hzero]
    refine ⟨⟨fun _ => by omega, fun _ => rfl⟩, ⟨nofun, fun h => by omega⟩, ⟨nofun, fun h => by omega⟩⟩
  · by_cases hneg : a.toInt - b.toInt < 0
    · rw [if_neg hzero, if_pos hneg]
      refine ⟨⟨nofun, fun h => by omega⟩, ⟨fun _ => by omega, fun _ => rfl⟩, ⟨nofun, fun h => by omega⟩⟩
    · rw [if_neg hzero, if_neg hneg]
      refine ⟨⟨nofun, fun h => by omega⟩, ⟨nofun, fun h => by omega⟩, ⟨fun _ => by omega, fun _ => rfl⟩⟩

/-- Settles O20, from what CMP does as a test of a difference. -/
theorem compareOrders : Obligations.CompareOrders := by
  intro imm w bf af acf s
  obtain ⟨t, res, hexec, heffect, -, hframe⟩ := cmp_row imm w bf af acf s
  exact ⟨t, hexec, heffect.carry, resultClass_orders heffect,
    fun r hr => hframe.regs r fun h => hr (List.mem_singleton.mp h)⟩

/-! ### The code test and BRANCH -/

/-- The code byte that a test selects, bit by bit (R260). -/
theorem getLsbD_codeByte (s : State) (sel : Bool) {k : Nat} (hk : k < 8) :
    (if sel then (s.readReg 0#3).extractLsb' 16 8 else (s.readReg 0#3).extractLsb' 24 8).getLsbD k =
      codeBit s sel k := by
  cases sel <;> simp [codeBit, hk]

/-- A byte is not zero when one of its bits is set. -/
theorem ne_zero_iff_exists_bit (b : BitVec 8) : b ≠ 0#8 ↔ ∃ k, k < 8 ∧ b.getLsbD k = true := by
  constructor
  · intro hne
    by_contra hnone
    push Not at hnone
    refine hne (BitVec.eq_of_getLsbD_eq fun k hk => ?_)
    rw [BitVec.getLsbD_zero]
    exact Bool.eq_false_iff.mpr (hnone k hk)
  · rintro ⟨k, -, hbit⟩ rfl
    exact absurd hbit (by simp)

/-- Before its inversion the test asks whether a selected code differs from the complement bit (R260, R262). -/
theorem codeTest_plain_iff (s : State) (mask : BitVec 8) (c sel : Bool) :
    s.codeTest mask false c sel = true ↔
      ∃ k, k < 8 ∧ mask.getLsbD k = true ∧ codeBit s sel k = !c := by
  unfold State.codeTest
  dsimp only
  rw [Bool.xor_false, decide_eq_true_iff, ne_zero_iff_exists_bit]
  refine exists_congr fun k => and_congr_right fun hk => ?_
  rw [BitVec.getLsbD_and, Bool.and_eq_true, and_comm]
  refine and_congr_right fun _ => ?_
  cases c
  · rw [if_neg Bool.false_ne_true, getLsbD_codeByte s sel hk]; rfl
  · rw [if_pos rfl, BitVec.getLsbD_not, getLsbD_codeByte s sel hk]; simp [hk]

/-- The inverted test is the negation of the plain one (R260). -/
theorem codeTest_inverted (s : State) (mask : BitVec 8) (c sel : Bool) :
    s.codeTest mask true c sel = !s.codeTest mask false c sel := by
  unfold State.codeTest
  simp

theorem codeTest_inverted_iff (s : State) (mask : BitVec 8) (c sel : Bool) :
    s.codeTest mask true c sel = true ↔ ∀ k, k < 8 → mask.getLsbD k = true → codeBit s sel k = c := by
  rw [codeTest_inverted, Bool.not_eq_true', Bool.eq_false_iff, ne_eq, codeTest_plain_iff]
  push Not
  simp

/-- Settles O30. -/
theorem codeTestSenses : Obligations.CodeTestSenses := fun s mask sel =>
  ⟨codeTest_plain_iff s mask false sel, codeTest_plain_iff s mask true sel, codeTest_inverted_iff s mask false sel,
    codeTest_inverted_iff s mask true sel⟩

/-- MAR plus a branch distance, as numbers (R27, D2). -/
theorem toNat_add_signExtend (m : Addr) (val : BitVec 4) :
    ((m + val.signExtend 12).toNat : Int) = ((m.toNat : Int) + val.toInt) % 4096 := by
  have hval : (val.signExtend 12).toInt = val.toInt := BitVec.toInt_signExtend_of_le (by omega)
  have hm := m.isLt
  have hv := (val.signExtend 12).isLt
  rw [BitVec.toInt_eq_toNat_cond] at hval
  rw [← hval, BitVec.toNat_add]
  split <;> omega

/-- Settles O32: a true test moves MAR, a false one only ends the microinstruction. -/
theorem branchMovesMar : Obligations.BranchMovesMar := by
  intro bmask v c sel val s
  cases htest : s.codeTest bmask v c sel
  case false =>
    refine ⟨s.endA, by rw [exec_branch, execBranch, htest]; rfl, ?_, rfl, fun _ => rfl, fun _ _ => rfl, ⟨rfl, rfl⟩,
      ⟨rfl, rfl, rfl, rfl, rfl⟩, rfl⟩
    have := s.mar.isLt
    rw [State.endA_mar, if_neg Bool.false_ne_true]
    omega
  case true =>
    refine ⟨(s.branchBy val).endA, by rw [exec_branch, execBranch, htest]; rfl, ?_, s.setMar_aboveMar _, fun _ => rfl,
      s.setMar_sameRegs _, ⟨rfl, rfl⟩, ⟨rfl, rfl, rfl, rfl, rfl⟩, rfl⟩
    rw [State.endA_mar, State.mar_branchBy, if_pos rfl, toNat_add_signExtend]

end Sys2Proof.Machine
end

section
/-! LOAD of a readable word, the completion of a bus operation and a master's write (R72, R79, R82, R272); obligations
O34, O45 and O60. -/

namespace Sys2Proof.Machine

/-! ### Writes of one register or one word -/

/-- A written register holds the stored bits of the value (R31). -/
theorem State.raw_writeReg_stored (s : State) (r : RegNo) (v : Word) : (s.writeReg r v).raw r = stored r v := by
  rw [State.raw_writeReg_eq_update, Function.update_self]

theorem State.writeReg_sameRegsExcept (s : State) (r : RegNo) (v : Word) : SameRegsExcept [r] s (s.writeReg r v) := by
  intro i hi
  exact s.raw_writeReg_ne (fun h => hi (List.mem_singleton.mpr h)) v

/-- Settles O34. -/
theorem loadReadsWord : Obligations.LoadReadsWord := by
  intro cf adr w s hread
  refine ⟨(s.writeReg cf w).endA, ?_, s.raw_writeReg_stored cf w, (s.writeReg_right cf w).2⟩
  rw [exec_load, execLoad, State.loadReg, State.withWord_some s hread]

/-! ### The completion of a bus operation (R79) -/

/-- A completion in a CPU that is not stuck, as a step. -/
theorem step_complete {s : State} {d : Word} {rest : List Act} (hsched : s.schedule = .complete d :: rest)
    (hphase : s.phase ≠ .stuck) : step s = .next ((s.withSchedule rest).busComplete d) := by
  have hfree : (s.withSchedule rest).phase ≠ .stuck := hphase
  rw [step_cons hsched, State.perform, State.completes, if_neg hfree]

/-- With nothing outstanding a completion is void (log entry 21). -/
theorem busComplete_none {s : State} (h : s.pending = .none) (d : Word) : s.busComplete d = s := by
  rw [State.busComplete, h]

/-- The data of a read goes to its register. -/
theorem busComplete_reg {s : State} {aw : Word} {r : RegNo} (h : s.pending = .read aw (.reg r)) (d : Word) :
    (s.busComplete d).raw r = stored r d ∧ SameRegsExcept [r] s (s.busComplete d) ∧
    SameStore s (s.busComplete d) ∧ (s.busComplete d).busLog = .cpuRead aw d :: s.busLog := by
  rw [State.busComplete, h]
  exact ⟨s.raw_writeReg_stored r d, s.writeReg_sameRegsExcept r d, fun _ => rfl, rfl⟩

/-- The data of a read goes to its control-store word. -/
theorem busComplete_mem {s : State} {aw : Word} {a : Addr} (h : s.pending = .read aw (.mem a)) (d : Word) :
    (s.busComplete d).memRead a = some d ∧ SameStoreExcept a s (s.busComplete d) ∧
    SameRegsExcept [] s (s.busComplete d) ∧ (s.busComplete d).busLog = .cpuRead aw d :: s.busLog := by
  rw [State.busComplete, h]
  exact ⟨s.memRead_memWrite_self a d, s.memWrite_sameStoreExcept a d, fun _ _ => rfl, rfl⟩

/-- The data of a write goes to the slave alone. -/
theorem busComplete_write {s : State} {aw v : Word} (h : s.pending = .write aw v) (d : Word) :
    SameRegsExcept [] s (s.busComplete d) ∧ SameStore s (s.busComplete d) ∧
    (s.busComplete d).busLog = .cpuWrite aw v :: s.busLog := by
  rw [State.busComplete, h]
  exact ⟨fun _ _ => rfl, fun _ => rfl, rfl⟩

theorem busComplete_idles {s : State} (h : s.pending ≠ .none) (d : Word) : (s.busComplete d).access = .idle := by
  unfold State.busComplete
  split
  · exact absurd ‹_› h
  all_goals rfl

/-- What a completion ends and leaves, whatever was outstanding. -/
theorem busComplete_frame (s : State) (d : Word) :
    (s.busComplete d).schedule = s.schedule ∧ (s.busComplete d).busy = false ∧
    (s.busComplete d).phase = s.phase ∧ (s.busComplete d).parityError = s.parityError ∧
    (s.busComplete d).timeout = s.timeout ∧ (s.busComplete d).timeoutIrq = s.timeoutIrq := by
  unfold State.busComplete
  split
  case h_1 hpending => exact ⟨rfl, by simp [State.busy, hpending], rfl, rfl, rfl, rfl⟩
  all_goals exact ⟨rfl, rfl, rfl, rfl, rfl, rfl⟩

/-- Settles O45, from what `busComplete` does for each kind of outstanding operation. -/
theorem completionDelivers : Obligations.CompletionDelivers := by
  intro s d rest hsched hphase
  obtain ⟨hrest, hidle, hkeep, hparity, htimeout, howed⟩ := busComplete_frame (s.withSchedule rest) d
  exact ⟨_, step_complete hsched hphase, hrest, hidle, hkeep, hparity, htimeout, howed,
    fun h => busComplete_idles (s := s.withSchedule rest) h d,
    fun _ _ h => busComplete_reg (s := s.withSchedule rest) h d,
    fun _ _ h => busComplete_mem (s := s.withSchedule rest) h d,
    fun _ _ h => busComplete_write (s := s.withSchedule rest) h d,
    fun h => busComplete_none (s := s.withSchedule rest) h d⟩

/-! ### A master's write (R82) -/

theorem step_slaveWrite {s : State} {aw v : Word} {rest : List Act} (hsched : s.schedule = .slaveAccess aw v :: rest)
    (hwrite : aw.getLsbD 24 = true) : step s = (s.withSchedule rest).slaveWrites aw v := by
  rw [step_cons hsched, State.perform, State.slaveAccessed_write hwrite]

theorem slaveWrites_word (s : State) {aw : Word} {a : Addr} (hown : aw.extractLsb' 16 8 = 0xFF#8)
    (htarget : slaveTarget aw = .word a) (v : Word) : s.slaveWrites aw v = .next (s.memWrite a v) := by
  rw [State.slaveWrites, namesCpu_eq, decide_eq_true hown, if_pos rfl, htarget]

theorem slaveWrites_reg (s : State) {aw : Word} {r : RegNo} (hown : aw.extractLsb' 16 8 = 0xFF#8)
    (htarget : slaveTarget aw = .reg r) (v : Word) : s.slaveWrites aw v = .next (s.writeReg r v) := by
  rw [State.slaveWrites, namesCpu_eq, decide_eq_true hown, if_pos rfl, htarget]

theorem slaveWrites_unassigned (s : State) {aw : Word} (hown : aw.extractLsb' 16 8 = 0xFF#8)
    (htarget : slaveTarget aw = .unassigned) (v : Word) :
    s.slaveWrites aw v = .refused (.unassignedUnitAddress aw) := by
  rw [State.slaveWrites, namesCpu_eq, decide_eq_true hown, if_pos rfl, htarget]

/-- A write to another unit leaves the CPU inactive (R94). -/
theorem slaveWrites_other (s : State) {aw : Word} (hother : aw.extractLsb' 16 8 ≠ 0xFF#8) (v : Word) :
    s.slaveWrites aw v = .next s := by
  rw [State.slaveWrites, namesCpu_eq, decide_eq_false hother, if_neg Bool.false_ne_true]

/-- Settles O60, one clause for each kind of address. -/
theorem slaveWriteStores : Obligations.SlaveWriteStores := by
  intro s aw v rest hsched hwrite
  rw [step_slaveWrite hsched hwrite]
  refine ⟨fun hown => ⟨fun a ha => ?_, fun r hr => ?_, fun hhigh => ?_⟩, fun hother => slaveWrites_other _ hother v⟩
  · exact ⟨_, slaveWrites_word _ hown (slaveTarget_word ha) v, State.memRead_memWrite_self _ a v,
      (s.withSchedule rest).memWrite_sameStoreExcept a v, fun _ _ => rfl, ⟨rfl, rfl⟩, ⟨rfl, rfl, rfl, rfl, rfl⟩, rfl⟩
  · exact ⟨_, slaveWrites_reg _ hown (slaveTarget_reg hr) v, State.raw_writeReg_stored _ r v,
      (s.withSchedule rest).writeReg_sameRegsExcept r v, fun _ => rfl, ⟨rfl, rfl⟩, ⟨rfl, rfl, rfl, rfl, rfl⟩, rfl⟩
  · exact slaveWrites_unassigned _ hown (slaveTarget_unassigned hhigh) v

end Sys2Proof.Machine
end

section
/-! DIVIDE STEP and MULTIPLY STEP as exact arithmetic on a register pair (R230, R233, R236, R237); obligations O25 and
O27. -/

namespace Sys2Proof.Machine

/-- Two bit strings put together, as a number. -/
theorem toNat_append_eq {n m : Nat} (x : BitVec n) (y : BitVec m) : (x ++ y).toNat = x.toNat * 2 ^ m + y.toNat := by
  rw [BitVec.toNat_append, ← Nat.shiftLeft_add_eq_or_of_lt y.isLt, Nat.shiftLeft_eq]

/-! ### DIVIDE STEP (R233) -/

/-- Without a bit 31 the sign test is the unsigned comparison (R233, D11). -/
theorem divStepTest_iff {a b : Word} (ha : a.toNat < 2 ^ 31) (hb : b.toNat < 2 ^ 31) :
    divStepTest a b = true ↔ b.toNat ≤ a.toNat := by
  have hclear : ∀ w : Word, w.toNat < 2 ^ 31 → w.getLsbD 31 = false := fun w hw => Nat.testBit_lt_two_pow hw
  rw [divStepTest, hclear a ha, hclear b hb, Bool.or_self, if_neg Bool.false_ne_true, decide_eq_true_iff]

/-- The remainder before the shift: the dividend, less the divisor if that is subtracted, modulo 2 to the 32. -/
theorem toNat_divStepRemainder (a b : Word) (fits : Bool) :
    ((if fits then a - b else a).toNat : Int) = ((a.toNat : Int) - (if fits then b.toNat else 0)) % 2 ^ 32 := by
  have ha := a.isLt
  have hb := b.isLt
  cases fits
  · rw [if_neg Bool.false_ne_true, if_neg Bool.false_ne_true]; omega
  · rw [if_pos rfl, if_pos rfl, BitVec.toNat_sub]; omega

/-- A pair shifted left, with a bit entering at bit 0. -/
theorem toNat_shiftIn (p : BitVec 64) (b : Bool) :
    ((p <<< 1).extractLsb' 1 63 ++ BitVec.ofBool b).toNat = p.toNat * 2 % 2 ^ 64 + b.toNat := by
  have hp := p.isLt
  rw [toNat_append_eq, BitVec.extractLsb'_toNat, BitVec.toNat_shiftLeft, BitVec.toNat_ofBool, Nat.shiftLeft_eq,
    Nat.shiftRight_eq_div_pow]
  omega

/-- The pair after a DIVIDE STEP, as a number (R233). -/
theorem toNat_divStepPair (a q b : Word) :
    ((divStepPair a q b).toNat : Int) =
      (((a.toNat : Int) - (if divStepTest a b then b.toNat else 0)) * 2 ^ 32 + q.toNat) * 2 % 2 ^ 64 +
        (divStepTest a b).toNat := by
  have hrem := toNat_divStepRemainder a b (divStepTest a b)
  rw [divStepPair, toNat_shiftIn, toNat_append_eq]
  generalize (if divStepTest a b then a - b else a).toNat = x at hrem ⊢
  push_cast at hrem ⊢
  omega

/-- Settles O25. -/
theorem divStepDivides : Obligations.DivStepDivides := by
  intro skip bf af acf s
  obtain ⟨hpair, hframe⟩ := s.writePair_left af
    (divStepPair (s.readReg af) (s.readReg (pairOf af)) (s.readReg bf)) skip acf
  exact ⟨_, _, _, exec_divStep s skip bf af acf, fun h => divStepTest_iff h.1 h.2, toNat_divStepPair _ _ _, hpair, hframe⟩

/-! ### MULTIPLY STEP: the numbers (R236) -/

/-- The high word of a pair shifted right by one is the high word shifted right by one, its sign kept. -/
theorem pairShift_high (a q : Word) : ((a ++ q).sshiftRight 1).extractLsb' 32 32 = a.sshiftRight 1 := by
  apply BitVec.eq_of_getLsbD_eq
  intro k hk
  rw [BitVec.getLsbD_extractLsb', BitVec.getLsbD_sshiftRight, BitVec.getLsbD_sshiftRight, BitVec.getLsbD_append]
  by_cases hlast : 1 + k < 32
  · simp [hk, hlast, show ¬ 64 ≤ 32 + k by omega, show 1 + (32 + k) < 64 by omega,
      show ¬ 1 + (32 + k) < 32 by omega, show 1 + (32 + k) - 32 = 1 + k by omega]
  · have hmsb : (a ++ q).msb = a.msb := BitVec.msb_append.trans (by simp)
    simp [hk, hlast, hmsb, show ¬ 32 ≤ k by omega, show 32 + k < 64 by omega, show ¬ 1 + (32 + k) < 64 by omega]

/-- The low word takes in the lowest bit of the high word. -/
theorem pairShift_low (a q : Word) :
    ((a ++ q).sshiftRight 1).extractLsb' 0 32 = a.extractLsb' 0 1 ++ q.extractLsb' 1 31 := by
  apply BitVec.eq_of_getLsbD_eq
  intro k hk
  rw [BitVec.getLsbD_extractLsb', BitVec.getLsbD_sshiftRight, BitVec.getLsbD_append, BitVec.getLsbD_append]
  by_cases hlast : k < 31
  · simp [hk, hlast, show ¬ 64 ≤ k by omega, show 1 + k < 64 by omega, show 1 + k < 32 by omega]
  · obtain rfl : k = 31 := by omega
    simp

/-- Bit 31 inverted: 2 to the 31 away, on the side that 32 bits can hold. -/
theorem toInt_xor_sign (w : Word) :
    (w ^^^ 0x80000000#32).toInt = if w.toInt < 0 then w.toInt + 2 ^ 31 else w.toInt - 2 ^ 31 := by
  have hsplit : w ^^^ 0x80000000#32 = ~~~(w.extractLsb' 31 1) ++ w.extractLsb' 0 31 := by
    apply BitVec.eq_of_getLsbD_eq
    intro k hk
    rw [BitVec.getLsbD_xor, BitVec.getLsbD_append]
    interval_cases k <;> simp
  have hw := w.isLt
  rw [hsplit, BitVec.toInt_eq_toNat_cond, BitVec.toInt_eq_toNat_cond, toNat_append_eq, BitVec.toNat_not,
    BitVec.extractLsb'_toNat, BitVec.extractLsb'_toNat, Nat.shiftRight_eq_div_pow, Nat.shiftRight_eq_div_pow]
  split <;> split <;> split <;> omega

/-- The high word as MULTIPLY STEP takes it: with an overflow of the step before undone (R236). -/
def mulWhole (a : Word) (prev : Bool) : Int :=
  if prev then (if a.toInt < 0 then a.toInt + 2 ^ 32 else a.toInt - 2 ^ 32) else a.toInt

/-- The exact value that MULTIPLY STEP puts in the high word. -/
def mulExact (a q b : Word) (prev : Bool) : Int := mulWhole a prev / 2 + (if q.getLsbD 0 then b.toInt else 0)

/-- The high word that MULTIPLY STEP writes. -/
def mulHigh (a q b : Word) (prev : Bool) : Word :=
  if q.getLsbD 0 then addResult (mulStepHigh a q prev) b false else mulStepHigh a q prev

/-- The overflow that MULTIPLY STEP records. -/
def mulOverflow (a q b : Word) (prev : Bool) : Bool := q.getLsbD 0 && addOverflow (mulStepHigh a q prev) b false

/-- The shifted and corrected high word is half of the value before. -/
theorem toInt_mulStepHigh (a q : Word) (prev : Bool) : (mulStepHigh a q prev).toInt = mulWhole a prev / 2 := by
  have hhalf : (a.sshiftRight 1).toInt = a.toInt / 2 := by
    rw [BitVec.toInt_sshiftRight, Int.shiftRight_eq_div_pow]; rfl
  rw [mulStepHigh, pairShift_high, mulWhole]
  cases prev
  · exact hhalf
  · rw [if_pos rfl, if_pos rfl, toInt_xor_sign, hhalf]
    split <;> split <;> omega

theorem mulHigh_eq_ofInt (a q b : Word) (prev : Bool) : mulHigh a q b prev = BitVec.ofInt 32 (mulExact a q b prev) := by
  rw [mulHigh, mulExact, ← toInt_mulStepHigh a q]
  split
  · rw [addResult_eq_ofInt]; simp
  · rw [Int.add_zero, BitVec.ofInt_toInt]

theorem mulOverflow_iff (a q b : Word) (prev : Bool) :
    mulOverflow a q b prev = true ↔ outOfRange (mulExact a q b prev) := by
  rw [mulOverflow, mulExact, ← toInt_mulStepHigh a q]
  cases q.getLsbD 0
  · have hlow := BitVec.le_toInt (mulStepHigh a q prev)
    have hhigh := BitVec.toInt_lt (x := mulStepHigh a q prev)
    rw [Bool.false_and, if_neg Bool.false_ne_true, outOfRange]
    simp only [Bool.false_eq_true, false_iff]
    omega
  · rw [Bool.true_and, addOverflow_iff, if_pos rfl]; simp

theorem toNat_pairShift_low (a q : Word) :
    (((a ++ q).sshiftRight 1).extractLsb' 0 32).toNat = q.toNat / 2 + a.toNat % 2 * 2 ^ 31 := by
  have hq := q.isLt
  rw [pairShift_low, toNat_append_eq, BitVec.extractLsb'_toNat, BitVec.extractLsb'_toNat,
    Nat.shiftRight_eq_div_pow, Nat.shiftRight_eq_div_pow]
  omega

/-! ### MULTIPLY STEP: the state (R236, D13) -/

/-- The codes apart, the class update changes no register. -/
theorem State.raw_mulStepClass_ne (s : State) {r : RegNo} (h : r ≠ 0#3) (prev ovf : Bool) :
    (s.mulStepClass prev ovf).raw r = s.raw r := by
  unfold State.mulStepClass
  split
  · exact s.raw_setClass_ne h _
  · split
    · exact s.raw_setClass_ne h _
    · rfl

theorem State.setClass_belowClass (s : State) (cc : BitVec 2) :
    ((s.setClass cc).raw 0#3).extractLsb' 0 30 = (s.raw 0#3).extractLsb' 0 30 := by
  apply BitVec.eq_of_getLsbD_eq
  intro k hk
  simp [State.getLsbD_raw_setClass, hk]

theorem State.mulStepClass_belowClass (s : State) (prev ovf : Bool) :
    ((s.mulStepClass prev ovf).raw 0#3).extractLsb' 0 30 = (s.raw 0#3).extractLsb' 0 30 := by
  unfold State.mulStepClass
  split
  · exact s.setClass_belowClass _
  · split
    · exact s.setClass_belowClass _
    · rfl

/-- An overflow is recorded. -/
theorem State.resultClass_mulStepClass_overflow (s : State) (prev : Bool) :
    (s.mulStepClass prev true).resultClass = 3#2 := s.resultClass_setClass _

/-- Without an overflow CC leaves Overflow for one of the other three values (log entry 7). -/
theorem State.resultClass_mulStepClass_leaves (s : State) : (s.mulStepClass true false).resultClass ≠ 3#2 := by
  have hother : ∀ i : Fin 3, BitVec.ofFin (i.castLE (by decide : 3 ≤ 2 ^ 2)) ≠ 3#2 := by decide
  have hclass : (s.mulStepClass true false).resultClass = (s.setClass _).resultClass := rfl
  rw [hclass, State.resultClass_setClass]
  exact hother _

/-- Without an overflow before or now CC stays. -/
theorem State.mulStepClass_stays (s : State) : s.mulStepClass false false = s := rfl

/-- The class update leaves the control store, the bus and the latches. -/
theorem State.mulStepClass_frame (s : State) (prev ovf : Bool) :
    (s.mulStepClass prev ovf).store = s.store ∧ SameBus s (s.mulStepClass prev ovf) ∧
    SameOutside s (s.mulStepClass prev ovf) := by
  unfold State.mulStepClass
  split
  · exact ⟨rfl, ⟨rfl, rfl⟩, rfl, rfl, rfl, rfl, rfl⟩
  · split
    · exact ⟨rfl, ⟨rfl, rfl⟩, rfl, rfl, rfl, rfl, rfl⟩
    · exact ⟨rfl, ⟨rfl, rfl⟩, rfl, rfl, rfl, rfl, rfl⟩

/-- The state that MULTIPLY STEP leads to. -/
def State.afterMulStep (s : State) (skip : Bool) (bf af : RegNo) (acf : Acf) : State :=
  ((s.writePair af (mulHigh (s.readReg af) (s.readReg (pairOf af)) (s.readReg bf) (decide (s.resultClass = 3#2)) ++
      ((s.readReg af ++ s.readReg (pairOf af)).sshiftRight 1).extractLsb' 0 32)).mulStepClass
    (decide (s.resultClass = 3#2))
    (mulOverflow (s.readReg af) (s.readReg (pairOf af)) (s.readReg bf) (decide (s.resultClass = 3#2)))).afterT skip acf

theorem exec_mulStep_next (s : State) (skip : Bool) (bf af : RegNo) (acf : Acf) :
    exec (.mulStep skip bf af acf) s = .next (s.afterMulStep skip bf af acf) := rfl

theorem stored_of_ne {r : RegNo} (h : r ≠ 0#3) (v : Word) : stored r v = v := if_neg h

/-- Dropping bit 24 does not change the class bits. -/
theorem stored_class (v : Word) : (stored 0#3 v).extractLsb' 30 2 = v.extractLsb' 30 2 := by
  apply BitVec.eq_of_getLsbD_eq
  intro k hk
  rw [stored, if_pos rfl, BitVec.getLsbD_extractLsb', BitVec.getLsbD_extractLsb', getLsbD_clear24,
    decide_eq_true (by omega : 30 + k ≠ 24), Bool.and_true]

/-- A register other than 0 after a pair is written (R23). -/
theorem State.raw_writePair_general (s : State) (af : RegNo) (hi lo : Word) {r : RegNo} (hr : r ≠ 0#3) :
    (s.writePair af (hi ++ lo)).raw r = if r = af then hi else if r = af ^^^ 1#3 then lo else s.raw r := by
  rw [State.raw_writePair, BitVec.extractLsb'_append_eq_left, BitVec.extractLsb'_append_eq_right]
  by_cases hhigh : r = af
  · subst hhigh; rw [if_pos rfl, if_pos rfl, stored_of_ne hr]
  · by_cases hlow : r = pairOf af
    · have hlow' : r = af ^^^ 1#3 := hlow
      rw [if_neg hhigh, if_neg hhigh, if_pos hlow, if_pos hlow', ← hlow, stored_of_ne hr]
    · have hlow' : r ≠ af ^^^ 1#3 := hlow
      rw [if_neg hhigh, if_neg hhigh, if_neg hlow, if_neg hlow']

/-- Register 0 after a pair is written. -/
theorem State.raw_writePair_zero (s : State) (af : RegNo) (hi lo : Word) :
    (s.writePair af (hi ++ lo)).raw 0#3 =
      if af = 0#3 then stored 0#3 hi else if af ^^^ 1#3 = 0#3 then stored 0#3 lo else s.raw 0#3 := by
  rw [State.raw_writePair, BitVec.extractLsb'_append_eq_left, BitVec.extractLsb'_append_eq_right]
  by_cases hhigh : af = 0#3
  · subst hhigh; rw [if_pos rfl, if_pos rfl]
  · by_cases hlow : af ^^^ 1#3 = 0#3
    · have hlow' : pairOf af = 0#3 := hlow
      rw [if_neg (Ne.symm hhigh), if_neg hhigh, if_pos hlow, if_pos hlow'.symm, hlow']
    · have hlow' : 0#3 ≠ pairOf af := Ne.symm hlow
      rw [if_neg (Ne.symm hhigh), if_neg hhigh, if_neg hlow, if_neg hlow']

/-- The class bits of register 0 after a pair is written. -/
theorem State.resultClass_writePair (s : State) (af : RegNo) (hi lo : Word) :
    (s.writePair af (hi ++ lo)).resultClass =
      (if af = 0#3 then hi else if af ^^^ 1#3 = 0#3 then lo else s.raw 0#3).extractLsb' 30 2 := by
  rw [State.resultClass, State.raw_writePair_zero]
  split
  · exact stored_class hi
  · split
    · exact stored_class lo
    · rfl

theorem State.afterMulStep_frame (s : State) (skip : Bool) (bf af : RegNo) (acf : Acf) :
    LeftFrame [0#3, af, af ^^^ 1#3] skip acf s (s.afterMulStep skip bf af acf) := by
  obtain ⟨hstore, hbus, houtside⟩ := State.mulStepClass_frame (s.writePair af _) _ _
  refine leftFrame_afterT s skip acf hstore (fun r hr => ?_) hbus houtside
  simp only [List.mem_cons, List.not_mem_nil, or_false, not_or] at hr
  obtain ⟨hzero, hhigh, hlow⟩ := hr
  rw [State.raw_mulStepClass_ne _ hzero, State.raw_writePair_ne s hhigh hlow]

/-- Settles O27, from the exact arithmetic of the step and the effect of its class update. -/
theorem mulStepMultiplies : Obligations.MulStepMultiplies := by
  intro skip bf af acf s
  have hovf := mulOverflow_iff (s.readReg af) (s.readReg (pairOf af)) (s.readReg bf) (decide (s.resultClass = 3#2))
  refine ⟨s.afterMulStep skip bf af acf, _, _, _, mulWhole (s.readReg af) (decide (s.resultClass = 3#2)),
    exec_mulStep_next s skip bf af acf, ?_, rfl, mulHigh_eq_ofInt _ _ _ _, toNat_pairShift_low _ _, fun r hr => ?_, ?_,
    fun hout => ?_, fun hin hprev => ?_, fun hin hprev => ?_, s.afterMulStep_frame skip bf af acf⟩
  · simp only [mulWhole, decide_eq_true_eq]
  · exact (State.raw_mulStepClass_ne _ hr _ _).trans (s.raw_writePair_general af _ _ hr)
  · exact (State.mulStepClass_belowClass _ _ _).trans (congrArg _ (s.raw_writePair_zero af _ _))
  · rw [State.afterMulStep, hovf.mpr hout, State.afterT_resultClass, State.resultClass_mulStepClass_overflow]
  · have hnone := Bool.eq_false_iff.mpr (mt hovf.mp hin)
    rw [State.afterMulStep, hnone, decide_eq_true hprev]
    exact State.resultClass_mulStepClass_leaves _
  · have hnone := Bool.eq_false_iff.mpr (mt hovf.mp hin)
    rw [State.afterMulStep, hnone, decide_eq_false hprev, State.mulStepClass_stays, State.afterT_resultClass,
      State.resultClass_writePair]
    rfl

end Sys2Proof.Machine
end

section
/-! The CPU's turns, alone and among other agents, the failing reads and the single step (R86, R130, R331, R340, R344);
obligations O6, O8, O9, O36, O50 and O56. -/

namespace Sys2Proof.Machine

open Host

variable {s : State} {rest : List Act}

/-! ### The CPU's turn (R86, R130) -/

theorem State.withSchedule_nil_self (h : s.schedule = []) : s.withSchedule [] = s := by
  cases s; cases h; rfl

theorem step_cpu (hsched : s.schedule = .cpu :: rest) : step s = (s.withSchedule rest).sequence := by
  rw [step_cons hsched, State.perform]

/-- Alone inside a microinstruction the CPU runs the rest of it, one sequence. -/
theorem runAlone_eq_sequence (hphase : s.phase ≠ .ifetch) : s.runAlone = s.sequence := by
  cases h : s.phase with
  | ifetch => exact absurd h hphase
  | aSeq acf => rw [State.runAlone_aSeq h, State.sequence_aSeq h]
  | sending x => rw [State.runAlone_sending h, State.sequence_sending h]
  | stuck => rw [State.runAlone_stuck h, State.sequence_stuck h]

/-- Inside a microinstruction a turn is the CPU's next sequence, alone or among other agents. -/
theorem step_turn_inside (hturn : CpuTurn s rest) (hphase : s.phase ≠ .ifetch) :
    step s = (s.withSchedule rest).sequence := by
  rcases hturn with ⟨hnil, rfl⟩ | hcpu
  · rw [step_nil hnil, State.withSchedule_nil_self hnil, runAlone_eq_sequence hphase]
  · exact step_cpu hcpu

/-- Before an IFETCH a turn is the CPU's next sequence, where it leaves no right half to run. -/
theorem step_turn_ifetch {t : State} (hturn : CpuTurn s rest) (hphase : s.phase = .ifetch)
    (hseq : (s.withSchedule rest).sequence = .next t) (hdone : t.phase = .ifetch) : step s = .next t := by
  rcases hturn with ⟨hnil, rfl⟩ | hcpu
  · rw [State.withSchedule_nil_self hnil] at hseq
    rw [step_nil hnil, State.runAlone_ifetch hphase, hseq, thenRightHalf_ifetch hdone]
  · rw [step_cpu hcpu, hseq]

theorem step_turn_aSeq {acf : Acf} (hturn : CpuTurn s rest) (hphase : s.phase = .aSeq acf) :
    step s = exec (decodeA acf) (s.withSchedule rest) := by
  rw [step_turn_inside hturn (by simp [hphase])]
  exact State.sequence_aSeq hphase

theorem step_turn_sending {x : Sending} (hturn : CpuTurn s rest) (hphase : s.phase = .sending x) :
    step s = .next ((s.withSchedule rest).sendAddress x) := by
  rw [step_turn_inside hturn (by simp [hphase])]
  exact State.sequence_sending hphase

/-- A right half that the CPU runs alone. -/
theorem step_aSeq_alone {acf : Acf} (hsched : s.schedule = []) (hphase : s.phase = .aSeq acf) :
    step s = exec (decodeA acf) s := by
  have hrun := step_turn_aSeq (.inl ⟨hsched, rfl⟩) hphase
  rwa [State.withSchedule_nil_self hsched] at hrun

/-- Settles O6. -/
theorem sequencesRunDecoded : Obligations.SequencesRunDecoded := by
  refine ⟨fun s w rest hsched hphase howed hrun hread => ?_, fun s acf rest hsched hphase => ?_,
    fun s acf hsched hphase => step_aSeq_alone hsched hphase⟩
  · rw [step_cpu hsched, State.sequence_fetch (s := s.withSchedule rest) hphase howed hrun]
    exact State.fetchAndT_some (s := s.withSchedule rest) hread
  · exact step_turn_aSeq (.inr hsched) hphase

/-- Settles O9: at either kind of turn the CPU's sequence is void. -/
theorem haltedCpuIdles : Obligations.HaltedCpuIdles := by
  intro s hphase howed hhalt
  have hturn : ∀ rest, CpuTurn s rest → step s = .next (s.withSchedule rest) := fun rest hturn =>
    step_turn_ifetch hturn hphase (State.sequence_halted (s := s.withSchedule rest) hphase howed hhalt) hphase
  refine ⟨fun hnil => ?_, fun rest hcpu => hturn rest (.inr hcpu)⟩
  rw [hturn [] (.inl ⟨hnil, rfl⟩), State.withSchedule_nil_self hnil]

/-! ### The single step (R344) -/

/-- HALT/STEP at a CPU that is halted before an IFETCH runs the I- and T-sequences (log entry 23). -/
theorem step_haltStep (hsched : s.schedule = .haltStep :: rest) (hphase : s.phase = .ifetch)
    (hhalt : s.halted = true) : step s = (s.withSchedule rest).fetchAndT := by
  have hcond : (decide ((s.withSchedule rest).phase = .ifetch) && (s.withSchedule rest).halted) = true := by
    simp [hphase, hhalt]
  rw [step_cons hsched, State.perform, State.haltOrStep, if_pos hcond]

/-- Settles O56: the left half is run by the pulse, the right half at the turn that finds it. -/
theorem singleStepRuns : Obligations.SingleStepRuns := by
  intro s w rest hsched hphase hhalt hread
  refine ⟨?_, fun t acf _ hright => ⟨fun hnil => step_aSeq_alone hnil hright,
    fun rest' hcpu => step_turn_aSeq (.inr hcpu) hright⟩⟩
  rw [step_haltStep hsched hphase hhalt]
  exact State.fetchAndT_some (s := s.withSchedule rest) hread

/-! ### Reads that fail their parity check (R331) -/

/-- A pointer into the control store is bits 11-0 of its register (R62, R292). -/
theorem storeAddress_eq (w : Word) : storeAddress w = w.extractLsb' 0 12 := rfl

theorem fetchFault_mar (s : State) : s.fetchFault.mar = s.mar ∨ s.fetchFault.mar = s.mar + 1#12 := by
  rw [State.fetchFault, State.parityFault_mar]
  split
  · exact .inr rfl
  · exact .inl rfl

/-- A CPU that was not stuck stands before an IFETCH after a parity fault. -/
theorem parityFault_phase (hfree : s.phase ≠ .stuck) (mar : Option Addr) : (s.parityFault mar).phase = .ifetch := by
  rw [(s.parityFault_halts mar).phase, if_neg hfree]

/-- Settles O8: each of the three ways to a fetch takes the fault of the fetch. -/
theorem fetchOfBadWordHalts : Obligations.FetchOfBadWordHalts := by
  intro s rest hphase hbad hway
  have hfetch : (s.withSchedule rest).fetchAndT = .next (s.withSchedule rest).fetchFault :=
    State.fetchAndT_none (s := s.withSchedule rest) hbad
  refine ⟨(s.withSchedule rest).fetchFault, ?_, State.parityFault_halts _ _, fetchFault_mar (s.withSchedule rest)⟩
  rcases hway with ⟨hturn, howed, hrun⟩ | ⟨hpulse, hhalt⟩
  · refine step_turn_ifetch hturn hphase ?_ (parityFault_phase (by simp [hphase]) _)
    rw [State.sequence_fetch (s := s.withSchedule rest) hphase howed hrun, hfetch]
  · rw [step_haltStep hpulse hphase hhalt, hfetch]

/-- The end of the microinstruction adds nothing to a parity fault, which has abandoned it. -/
theorem ParityHalt.endA {t : State} (h : ParityHalt s t) (hfree : s.phase ≠ .stuck) : ParityHalt s t.endA :=
  ⟨h.latch, h.halted, (if_neg hfree).symm, h.store, h.bus, h.outside⟩

/-- Settles O36: LOAD, IA.RM and an IA.XM that need not wait. -/
theorem dataReadOfBadWordHalts : Obligations.DataReadOfBadWordHalts := by
  intro s hfree
  have hfault : ParityHalt s (s.parityFault none) := s.parityFault_halts none
  refine ⟨fun cf adr hbad => ⟨_, ?_, hfault.endA hfree⟩, fun cf df ef val hbad =>
    ⟨⟨_, ?_, hfault⟩, fun hidle => ⟨_, ?_, hfault⟩⟩⟩
  · rw [exec_load, execLoad, State.loadReg, s.withWord_none hbad]
  · rw [exec_iaRM, execIaRM, storeAddress_eq, s.withWord_none hbad]
  · rw [exec_iaXM, execIaXM, hidle, if_neg Bool.false_ne_true]
    simp only [storeAddress_eq, hbad]

/-! ### An interrupt that comes inside a microinstruction (R351) -/

theorem step_interrupt {v : Word} (hsched : s.schedule = .interrupt v :: rest) :
    step s = (s.withSchedule rest).interruptOffered v s.sequence := by
  rw [step_cons hsched, State.perform]

theorem interruptOffered_aSeq {acf : Acf} (h : s.phase = .aSeq acf) (v : Word)
    (meanwhile : Outcome State Fault Refusal) : s.interruptOffered v meanwhile = meanwhile := by
  rw [State.interruptOffered, h]

theorem interruptOffered_sending {x : Sending} (h : s.phase = .sending x) (v : Word)
    (meanwhile : Outcome State Fault Refusal) : s.interruptOffered v meanwhile = meanwhile := by
  rw [State.interruptOffered, h]

theorem interruptOffered_ifetch (h : s.phase = .ifetch) (v : Word) (meanwhile : Outcome State Fault Refusal) :
    s.interruptOffered v meanwhile = s.interrupted v := by
  rw [State.interruptOffered, h]

theorem interruptOffered_stuck (h : s.phase = .stuck) (v : Word) (meanwhile : Outcome State Fault Refusal) :
    s.interruptOffered v meanwhile = .next s := by
  rw [State.interruptOffered, h]

/-- Settles O50. -/
theorem interruptWaitsOrIsRefused : Obligations.InterruptWaitsOrIsRefused := by
  intro s v rest hsched
  rw [step_interrupt hsched]
  refine ⟨fun acf h => ?_, fun x h => ?_, fun h hodd => ?_⟩
  · rw [interruptOffered_aSeq (s := s.withSchedule rest) h, State.sequence_aSeq h]
  · rw [interruptOffered_sending (s := s.withSchedule rest) h, State.sequence_sending h]
  · rw [interruptOffered_ifetch (s := s.withSchedule rest) h, State.interrupted, if_pos hodd]

end Sys2Proof.Machine
end

section
/-! INDIRECT ACCESS inside the CPU and over the bus (R73 to R81, R281 to R296); obligations O39 to O44. -/

namespace Sys2Proof.Machine

open Host

/-! ### Inside the CPU (R288 to R290) -/

/-- A transfer into x[CF] followed by the pointer modification. -/
theorem State.writeReg_modify_spec (s : State) (cf df : RegNo) (ef : BitVec 2) (val : BitVec 4) (v : Word) :
    (∀ r, ((s.writeReg cf v).modify cf df ef val).raw r =
      modifiedRegs s.busy cf df ef val (Function.update s.raw cf (stored cf v)) r) ∧
    RightFrame [cf, df] s ((s.writeReg cf v).modify cf df ef val) := by
  obtain ⟨hstore, hregs, hbus, houtside, hphase⟩ := (s.writeReg cf v).modify_frame cf df ef val
  refine ⟨fun r => ?_, hstore, fun r hr => ?_, hbus, houtside, hphase⟩
  · rw [State.raw_modify, State.raw_writeReg_eq_update, State.writeReg_busy]
  · rw [hregs r hr, s.raw_writeReg_ne (fun h => hr (by simp [h]))]

/-- Settles O39. -/
theorem indirectLoads : Obligations.IndirectLoads := by
  intro cf df ef val s
  refine ⟨⟨_, by rw [exec_iaRR, execIaRR], s.writeReg_modify_spec cf df ef val _⟩, fun w hread =>
    ⟨_, ?_, s.writeReg_modify_spec cf df ef val w⟩⟩
  rw [exec_iaRM, execIaRM, storeAddress_eq, s.withWord_some hread]

/-- Settles O40. -/
theorem indirectStores : Obligations.IndirectStores := by
  intro cf df ef val s
  have hframe := (s.memWrite (storeAddress (s.readReg cf)) (s.readReg df)).modify_frame cf df ef val
  refine ⟨_, by rw [exec_iaMR, execIaMR], fun a ha => ?_, fun r => ?_, hframe.bus, hframe.outside, hframe.phase⟩
  · rw [storeAddress_eq, ← ha] at hframe ⊢
    refine ⟨?_, fun c hc => ?_⟩
    · rw [hframe.store.memRead, State.memRead_memWrite_self]
    · rw [hframe.store c, s.memWrite_sameStoreExcept a _ c hc]
  · rw [State.raw_modify]; rfl

/-! ### The bus forms with no operation outstanding, as bus operations (R283) -/

section Idle

variable {s : State} (hidle : s.busy = false) (cf df : RegNo) (ef : BitVec 2) (val : BitVec 4)

include hidle

theorem exec_iaRX_idle : exec (.iaRX cf df ef val) s =
    s.busForm (readAddressWord (s.readReg df)) (.read (readAddressWord (s.readReg df)) (.reg cf)) cf df ef val := by
  rw [exec_iaRX, execIaRX, hidle, if_neg Bool.false_ne_true]

theorem exec_iaMX_idle : exec (.iaMX cf df ef val) s =
    s.busForm (readAddressWord (s.readReg df))
      (.read (readAddressWord (s.readReg df)) (.mem ((s.readReg cf).extractLsb' 0 12))) cf df ef val := by
  rw [exec_iaMX, execIaMX, hidle, if_neg Bool.false_ne_true, storeAddress_eq]

theorem exec_iaXR_idle : exec (.iaXR cf df ef val) s =
    s.busForm (writeAddressWord (s.readReg cf))
      (.write (writeAddressWord (s.readReg cf)) (s.readReg df)) cf df ef val := by
  rw [exec_iaXR, execIaXR, hidle, if_neg Bool.false_ne_true]

theorem exec_iaXM_idle {data : Word} (hread : s.memRead ((s.readReg df).extractLsb' 0 12) = some data) :
    exec (.iaXM cf df ef val) s =
      s.busForm (writeAddressWord (s.readReg cf)) (.write (writeAddressWord (s.readReg cf)) data) cf df ef val := by
  rw [exec_iaXM, execIaXM, hidle, if_neg Bool.false_ne_true]
  simp only [storeAddress_eq, hread]

end Idle

/-! ### Who is addressed (R81), and whether the bus is won (R102) -/

theorem namesCpu_readAddressWord (p : Word) :
    namesCpu (readAddressWord p) = decide (p.extractLsb' 16 8 = 0xFF#8) := by
  rw [namesCpu, unitOf_readAddressWord]

theorem namesCpu_writeAddressWord (p : Word) :
    namesCpu (writeAddressWord p) = decide (p.extractLsb' 16 8 = 0xFF#8) := by
  rw [namesCpu, unitOf_writeAddressWord]

theorem AccessState.winnable_iff (a : AccessState) : a.winnable = true ↔ a = .idle ∨ a = .using := by
  cases a <;> simp [AccessState.winnable]

theorem State.busReady_of_won {s : State} (hidle : s.busy = false) (hwon : s.access = .idle ∨ s.access = .using) :
    s.busReady = true :=
  s.busReady_iff.mpr ⟨hidle, s.access.winnable_iff.mpr hwon⟩

theorem State.busReady_of_not_won {s : State} (h : s.busy = true ∨ (s.access ≠ .idle ∧ s.access ≠ .using)) :
    s.busReady = false := by
  rw [Bool.eq_false_iff, ne_eq, State.busReady_iff, AccessState.winnable_iff]
  rintro ⟨hidle, hwon⟩
  rcases h with hbusy | ⟨hnotIdle, hnotUsing⟩
  · exact Bool.false_ne_true (hidle.symm.trans hbusy)
  · exact hwon.elim hnotIdle hnotUsing

/-! ### Issue, wait and refusal, once for the four bus forms -/

section Forms

variable {s : State} {aw : Word} (hother : namesCpu aw = false)

include hother

/-- A bus form that finds the bus won issues its operation. -/
theorem State.busForm_issues (hidle : s.busy = false) (hwon : s.access = .idle ∨ s.access = .using) {p : Pending}
    (hp : p ≠ .none) (cf df : RegNo) (ef : BitVec 2) (val : BitVec 4) :
    ∃ t, s.busForm aw p cf df ef val = .next t ∧ t.pending = p ∧ t.access = .using ∧
      (∀ r, t.raw r = modifiedRegs true cf df ef val s.raw r) ∧ SameStore s t ∧ SameOutside s t ∧
      t.phase = .ifetch := by
  refine ⟨_, ?_, s.accepted_spec ⟨p, cf, df, ef, val⟩ hp⟩
  rw [s.busForm_sends hother, s.sendAddress_ready (State.busReady_of_won hidle hwon)]

/-- A bus form that does not find the bus won keeps what it has read. -/
theorem State.busForm_waits (hlost : s.access ≠ .idle ∧ s.access ≠ .using) (p : Pending) (cf df : RegNo)
    (ef : BitVec 2) (val : BitVec 4) : s.busForm aw p cf df ef val = .next (s.keepSending ⟨p, cf, df, ef, val⟩) := by
  rw [s.busForm_sends hother, s.sendAddress_waits (State.busReady_of_not_won (.inr hlost))]

end Forms

/-- Settles O41. -/
theorem busReadIssues : Obligations.BusReadIssues := by
  intro cf df ef val s hidle hwon hunit
  have hother : namesCpu (readAddressWord (s.readReg df)) = false :=
    (namesCpu_readAddressWord _).trans (decide_eq_false hunit)
  have hissue (dest : Dest) := State.busForm_issues (s := s) hother hidle hwon
    (p := .read (readAddressWord (s.readReg df)) dest) (by simp) cf df ef val
  simp only [List.forall_mem_cons]
  refine ⟨?_, ?_, List.forall_mem_nil _⟩
  · obtain ⟨t, hnext, hspec⟩ := hissue (.reg cf)
    exact ⟨t, _, (exec_iaRX_idle hidle cf df ef val).trans hnext, fun k hk => getLsbD_readAddressWord _ hk, hspec⟩
  · obtain ⟨t, hnext, hspec⟩ := hissue (.mem ((s.readReg cf).extractLsb' 0 12))
    exact ⟨t, _, (exec_iaMX_idle hidle cf df ef val).trans hnext, fun k hk => getLsbD_readAddressWord _ hk, hspec⟩

/-- Settles O42. -/
theorem busWriteIssues : Obligations.BusWriteIssues := by
  intro cf df ef val s hidle hwon hunit data
  have hother : namesCpu (writeAddressWord (s.readReg cf)) = false :=
    (namesCpu_writeAddressWord _).trans (decide_eq_false hunit)
  obtain ⟨t, hnext, hspec⟩ := State.busForm_issues (s := s) hother hidle hwon
    (p := .write (writeAddressWord (s.readReg cf)) data) (by simp) cf df ef val
  simp only [List.forall_mem_cons]
  refine ⟨fun hdata => ?_, fun hread => ?_, List.forall_mem_nil _⟩
  · have hexec := exec_iaXR_idle hidle cf df ef val
    rw [Option.some.inj hdata] at hexec
    exact ⟨t, _, hexec.trans hnext, fun k hk => getLsbD_writeAddressWord _ hk, hspec⟩
  · exact ⟨t, _, (exec_iaXM_idle hidle cf df ef val hread).trans hnext, fun k hk => getLsbD_writeAddressWord _ hk,
      hspec⟩

/-- Settles O43: the wait for BUSY, the wait for the bus, and the later turn with an address to send. -/
theorem busFormWaits : Obligations.BusFormWaits := by
  refine ⟨fun cf df ef val s hbusy => ?_, fun cf df ef val s hidle hnotIdle hnotUsing => ?_,
    fun s x rest hphase hop hturn => ⟨fun hidle hwon => ?_, fun hlost => ?_⟩⟩
  · rw [exec_iaMX, exec_iaRX, exec_iaXR, exec_iaXM, execIaMX, execIaRX, execIaXR, execIaXM]
    simp only [hbusy, if_true, and_self]
  · refine ⟨readAddressWord (s.readReg df), writeAddressWord (s.readReg cf), fun k hk => getLsbD_readAddressWord _ hk,
      fun k hk => getLsbD_writeAddressWord _ hk, fun hunit => ?_, fun hunit => ?_⟩
    · have hother := (namesCpu_readAddressWord _).trans (decide_eq_false hunit)
      rw [exec_iaRX_idle hidle, exec_iaMX_idle hidle]
      exact ⟨State.busForm_waits hother ⟨hnotIdle, hnotUsing⟩ _ cf df ef val,
        State.busForm_waits hother ⟨hnotIdle, hnotUsing⟩ _ cf df ef val⟩
    · have hother := (namesCpu_writeAddressWord _).trans (decide_eq_false hunit)
      refine ⟨(exec_iaXR_idle hidle cf df ef val).trans ?_, fun data hread =>
        (exec_iaXM_idle hidle cf df ef val hread).trans ?_⟩
      · exact State.busForm_waits hother ⟨hnotIdle, hnotUsing⟩ _ cf df ef val
      · exact State.busForm_waits hother ⟨hnotIdle, hnotUsing⟩ _ cf df ef val
  · refine ⟨_, ?_, (s.withSchedule rest).accepted_spec x hop⟩
    rw [step_turn_sending hturn hphase,
      (s.withSchedule rest).sendAddress_ready (State.busReady_of_won (s := s.withSchedule rest) hidle hwon)]
  · rw [step_turn_sending hturn hphase,
      (s.withSchedule rest).sendAddress_waits (State.busReady_of_not_won (s := s.withSchedule rest) hlost),
      State.keepSending_self (s.withSchedule rest) hphase]

/-- Settles O44. -/
theorem selfAddressRefused : Obligations.SelfAddressRefused := by
  intro cf df ef val s hidle
  refine ⟨fun hunit => ?_, fun hunit => ?_⟩
  · have hself := (namesCpu_readAddressWord _).trans (decide_eq_true hunit)
    exact ⟨(exec_iaMX_idle hidle cf df ef val).trans (s.busForm_self hself _ cf df ef val),
      (exec_iaRX_idle hidle cf df ef val).trans (s.busForm_self hself _ cf df ef val)⟩
  · have hself := (namesCpu_writeAddressWord _).trans (decide_eq_true hunit)
    refine ⟨(exec_iaXR_idle hidle cf df ef val).trans (s.busForm_self hself _ cf df ef val), fun hgood => ?_⟩
    obtain ⟨data, hread⟩ := Option.isSome_iff_exists.mp hgood
    exact (exec_iaXM_idle hidle cf df ef val hread).trans (s.busForm_self hself _ cf df ef val)

end Sys2Proof.Machine
end

section
/-! The bus controller, the access controller, a master's read and the direct lines (R71, R80, R82, R96, R102, R103,
R381); obligations O46, O47, O57, O58 and O59. -/

namespace Sys2Proof.Machine

open Host

/-! ### No answer to the CPU's own access (R80) -/

section NoAnswer

variable {s : State} {rest : List Act}

theorem State.isSending_iff (s : State) : s.isSending = true ↔ ∃ x, s.phase = .sending x := by
  unfold State.isSending
  cases s.phase <;> simp

theorem State.holdsBus_iff (s : State) :
    s.holdsBus = true ↔ s.pending ≠ .none ∨ ((∃ x, s.phase = .sending x) ∧ s.access = .using) := by
  rw [State.holdsBus, Bool.or_eq_true, Bool.and_eq_true, State.busy_iff, State.isSending_iff, decide_eq_true_iff]

theorem getsNoAnswer_void (h : s.holdsBus = false ∨ s.phase = .stuck) : s.getsNoAnswer = .next s := by
  have hcond : (decide (s.phase = .stuck) || !s.holdsBus) = true := by
    rcases h with hfree | hstuck
    · simp [hfree]
    · simp [hstuck]
  rw [State.getsNoAnswer, if_pos hcond]

theorem getsNoAnswer_held (hholds : s.holdsBus = true) (hfree : s.phase ≠ .stuck) :
    s.getsNoAnswer = if s.timeout then .refused .secondTimeout
      else .next { s.timedOut with phase := .stuck, access := .using } := by
  rw [State.getsNoAnswer, if_neg (by simp [hholds, hfree])]

theorem step_noAnswer (hsched : s.schedule = .noAnswer :: rest) : step s = (s.withSchedule rest).getsNoAnswer := by
  rw [step_cons hsched, State.perform]

/-- A turn of a stuck CPU, a completion and an interrupt have no effect (R80). -/
theorem perform_stuck {a : Act} (waiting : State) (hstuck : s.phase = .stuck)
    (ha : a = .cpu ∨ (∃ d, a = .complete d) ∨ (∃ v, a = .interrupt v)) : State.perform waiting s a = .next s := by
  rcases ha with rfl | ⟨d, rfl⟩ | ⟨v, rfl⟩
  · exact State.sequence_stuck hstuck
  · rw [State.perform, State.completes, if_pos hstuck]
  · exact interruptOffered_stuck hstuck v _

/-- Settles O46. -/
theorem noAnswerSticks : Obligations.NoAnswerSticks := by
  intro s
  refine ⟨s.holdsBus_iff, fun rest hsched hholds hfree => ?_, fun rest hsched hvoid => ?_, fun hstuck hnil => ?_,
    fun a rest hstuck hsched ha => ?_⟩
  · rw [step_noAnswer hsched, getsNoAnswer_held (s := s.withSchedule rest) hholds hfree]
    exact ⟨fun hfirst => ⟨_, if_neg (by simp [hfirst]), rfl, rfl, rfl, rfl, rfl, rfl, rfl, fun _ _ => rfl,
      fun _ => rfl⟩, fun hsecond => if_pos hsecond⟩
  · rw [step_noAnswer hsched, getsNoAnswer_void (s := s.withSchedule rest) hvoid]
  · rw [step_nil hnil, State.runAlone_stuck hstuck]
  · rw [step_cons hsched, perform_stuck (s := s.withSchedule rest) s hstuck ha]

end NoAnswer

/-! ### The access controller (R102, R103) -/

section Access

variable {s : State} {rest : List Act}

theorem step_access {sig : AccessSignal} (hsched : s.schedule = .access sig :: rest) :
    step s = .next ((s.withSchedule rest).accessLine sig) := by
  rw [step_cons hsched, State.perform]

/-- A master with an operation outstanding, or stuck, does not follow its lines (R108). -/
theorem accessLine_held (h : s.busy = true ∨ s.phase = .stuck) (sig : AccessSignal) : s.accessLine sig = s := by
  have hcond : (decide (s.phase = .stuck) || s.busy) = true := by
    rcases h with hbusy | hstuck
    · simp [hbusy]
    · simp [hstuck]
  rw [State.accessLine, if_pos hcond]

theorem accessLine_free (hidle : s.busy = false) (hfree : s.phase ≠ .stuck) (sig : AccessSignal) :
    s.accessLine sig = { s with access := s.access.next s.wantsBus sig } := by
  rw [State.accessLine, if_neg (by simp [hidle, hfree])]

/-- A line moves the access controller and nothing else. -/
theorem accessLine_frame (s : State) (sig : AccessSignal) :
    (s.accessLine sig).pending = s.pending ∧ SameOutside s (s.accessLine sig) ∧ Untouched s (s.accessLine sig) := by
  unfold State.accessLine
  split
  all_goals exact ⟨rfl, ⟨rfl, rfl, rfl, rfl, rfl⟩, fun _ _ => rfl, fun _ => rfl, rfl⟩

theorem State.wantsBus_iff (s : State) : s.wantsBus = true ↔
    (∃ acf, s.phase = .aSeq acf ∧ acf.extractLsb' 15 3 = 5#3 ∧ acf.getLsbD 6 = false) ∨
      ∃ x, s.phase = .sending x := by
  unfold State.wantsBus
  cases s.phase <;> simp

/-- How many of the six reject waits a controller has behind it. -/
def AccessState.waitsDone : AccessState → Nat
  | .wait4 => 1
  | .wait5 => 2
  | .wait6 => 3
  | .wait7 => 4
  | .wait8 => 5
  | .idle | .requesting | .using | .wait3 => 0

/-- Out of a reject wait no line leads to the bus or to a request of it. -/
theorem AccessState.next_of_rejectWait {a : AccessState} (ha : a.rejectWait = true) (req : Bool) (sig : AccessSignal) :
    AccessState.next req a sig ≠ .using ∧ AccessState.next req a sig ≠ .requesting := by
  cases a with
  | wait3 | wait4 | wait5 | wait6 | wait7 | wait8 => cases sig <;> exact ⟨nofun, nofun⟩
  | _ => exact absurd ha (by decide)

/-- Before the last reject wait a line leads at most to the next one. -/
theorem AccessState.rejectWait_next {a : AccessState} (ha : a.rejectWait = true) (hmore : a.waitsDone < 5) (req : Bool)
    (sig : AccessSignal) : (AccessState.next req a sig).rejectWait = true ∧
      (AccessState.next req a sig).waitsDone ≤ a.waitsDone + 1 := by
  cases a with
  | wait8 => exact absurd hmore (by decide)
  | wait3 | wait4 | wait5 | wait6 | wait7 =>
    cases sig <;> simp [AccessState.next, AccessState.rejectWait, AccessState.waitsDone]
  | _ => exact absurd ha (by decide)

/-- A rejected controller that sees too few lines to pass the waits ahead of it still waits. -/
theorem AccessState.rejectWait_foldl (req : Bool) (sigs : List AccessSignal) {a : AccessState}
    (ha : a.rejectWait = true) (hfew : a.waitsDone + sigs.length < 6) :
    (sigs.foldl (AccessState.next req) a).rejectWait = true := by
  induction sigs generalizing a with
  | nil => exact ha
  | cons sig sigs ih =>
    rw [List.length_cons] at hfew
    obtain ⟨hwait, hstep⟩ := AccessState.rejectWait_next ha (by omega) req sig
    exact ih hwait (by omega)

/-- Settles O47. -/
theorem rejectWaitsThreeCycles : Obligations.RejectWaitsThreeCycles := by
  refine ⟨fun s sig rest hsched => ?_, State.wantsBus_iff, rfl, rfl, fun sig hsig => ?_, fun req =>
    ⟨rfl, rfl, rfl, fun a ha sig => AccessState.next_of_rejectWait ha req sig, rfl, fun sigs hfew =>
      AccessState.rejectWait_foldl req sigs rfl (by simpa [AccessState.waitsDone] using hfew)⟩⟩
  · obtain ⟨hpending, houtside, hregs, hstore, hphase⟩ := accessLine_frame (s.withSchedule rest) sig
    refine ⟨_, step_access hsched, fun hheld => ?_, fun hidle hfree => ?_, hpending, houtside, hregs, hstore, hphase⟩
    · rw [accessLine_held (s := s.withSchedule rest) hheld]; rfl
    · rw [accessLine_free (s := s.withSchedule rest) hidle hfree]; rfl
  · cases sig with
    | reject => exact absurd rfl hsig
    | busClk | available | crej => exact ⟨rfl, rfl⟩

end Access

/-! ### A master's read (R82) -/

theorem step_slaveRead {s : State} {aw v : Word} {rest : List Act} (hsched : s.schedule = .slaveAccess aw v :: rest)
    (hread : aw.getLsbD 24 = false) : step s = (s.withSchedule rest).slaveReads aw := by
  rw [step_cons hsched, State.perform, State.slaveAccessed_read hread]

section SlaveRead

variable (s : State) {aw : Word}

theorem slaveReads_word (hown : aw.extractLsb' 16 8 = 0xFF#8) {a : Addr} {w : Word}
    (htarget : slaveTarget aw = .word a) (hgood : s.memRead a = some w) : s.slaveReads aw = .next (s.gave aw w) := by
  rw [State.slaveReads, namesCpu_eq, decide_eq_true hown, if_pos rfl, htarget]
  simp only [hgood]

/-- A word that fails parity halts the CPU (R331). -/
theorem slaveReads_badWord (hown : aw.extractLsb' 16 8 = 0xFF#8) {a : Addr} (htarget : slaveTarget aw = .word a)
    (hbad : s.memRead a = none) :
    s.slaveReads aw = .next ((s.parityFault none).gave aw (Config.freeWord s.draws)) := by
  rw [State.slaveReads, namesCpu_eq, decide_eq_true hown, if_pos rfl, htarget]
  simp only [hbad]

theorem slaveReads_reg (hown : aw.extractLsb' 16 8 = 0xFF#8) {r : RegNo} (htarget : slaveTarget aw = .reg r) :
    s.slaveReads aw = .next (s.gave aw (s.readReg r)) := by
  rw [State.slaveReads, namesCpu_eq, decide_eq_true hown, if_pos rfl, htarget]

theorem slaveReads_unassigned (hown : aw.extractLsb' 16 8 = 0xFF#8) (htarget : slaveTarget aw = .unassigned) :
    s.slaveReads aw = .refused (.unassignedUnitAddress aw) := by
  rw [State.slaveReads, namesCpu_eq, decide_eq_true hown, if_pos rfl, htarget]

/-- A read of another unit leaves the CPU inactive (R94). -/
theorem slaveReads_other (hother : aw.extractLsb' 16 8 ≠ 0xFF#8) : s.slaveReads aw = .next s := by
  rw [State.slaveReads, namesCpu_eq, decide_eq_false hother, if_neg Bool.false_ne_true]

end SlaveRead

/-- Settles O59, one clause for each kind of address. -/
theorem slaveReadAnswers : Obligations.SlaveReadAnswers := by
  intro s aw v rest hsched hread
  rw [step_slaveRead hsched hread]
  refine ⟨fun hown => ⟨fun a w ha hgood => ?_, fun a ha hbad => ?_, fun r hr => ?_, fun hhigh => ?_⟩,
    fun hother => slaveReads_other _ hother⟩
  · exact slaveReads_word (s.withSchedule rest) hown (slaveTarget_word ha) hgood
  · have hfault := (s.withSchedule rest).parityFault_halts none
    exact ⟨_, slaveReads_badWord (s.withSchedule rest) hown (slaveTarget_word ha) hbad, hfault.latch, hfault.halted,
      hfault.store, hfault.bus⟩
  · exact slaveReads_reg (s.withSchedule rest) hown (slaveTarget_reg hr)
  · exact slaveReads_unassigned _ hown (slaveTarget_unassigned hhigh)

/-! ### MASTER CLEAR and the status lines (R96, R381) -/

theorem step_masterClear {s : State} {rest : List Act} (hsched : s.schedule = .masterClear :: rest) :
    step s = .next (s.withSchedule rest).masterCleared := by
  rw [step_cons hsched, State.perform]

/-- Settles O57: MASTER CLEAR writes each of these fields or leaves it. -/
theorem masterClearInitializes : Obligations.MasterClearInitializes := by
  intro s rest hsched
  exact ⟨_, step_masterClear hsched, rfl, rfl, rfl, rfl, rfl, rfl, fun _ => rfl, rfl, rfl, rfl⟩

/-- Settles O58: bits 15 and 14 of register 0 read as they are stored. -/
theorem statusLinesShow : Obligations.StatusLinesShow := by
  intro s
  rw [State.getLsbD_readReg_zero, State.getLsbD_readReg_zero, if_neg (by omega), if_neg (by omega)]
  rfl

end Sys2Proof.Machine
end

section
/-! Decoding and encoding are inverse (R122 to R127, R134 to R136): each word, and each right half, is of one of the
encoder's forms, on which the laws say what the decoder reads; obligations O1, O2 and O3. -/

namespace Sys2Proof

open Laws

/-! ### Encode, then decode -/

/-- Settles O2, one constructor after the other. -/
theorem decodeOfEncode : Obligations.DecodeOfEncode := by
  intro i
  cases i with
  | logNotA imm bf af acf => exact RoundTrip.logNotA imm bf af acf
  | logNand imm bf af acf => exact RoundTrip.logNand imm bf af acf
  | logOrNA imm bf af acf => exact RoundTrip.logOrNA imm bf af acf
  | logOnes imm bf af acf => exact RoundTrip.logOnes imm bf af acf
  | logNor imm bf af acf => exact RoundTrip.logNor imm bf af acf
  | logNotB imm bf af acf => exact RoundTrip.logNotB imm bf af acf
  | logXnor imm bf af acf => exact RoundTrip.logXnor imm bf af acf
  | logOrNB imm bf af acf => exact RoundTrip.logOrNB imm bf af acf
  | logAndNA imm bf af acf => exact RoundTrip.logAndNA imm bf af acf
  | logXor imm bf af acf => exact RoundTrip.logXor imm bf af acf
  | logTransfer imm bf af acf => exact RoundTrip.logTransfer imm bf af acf
  | logOr imm bf af acf => exact RoundTrip.logOr imm bf af acf
  | logClear imm bf af acf => exact RoundTrip.logClear imm bf af acf
  | logAndNB imm bf af acf => exact RoundTrip.logAndNB imm bf af acf
  | logAnd imm bf af acf => exact RoundTrip.logAnd imm bf af acf
  | logTest imm bf af acf => exact RoundTrip.logTest imm bf af acf
  | sub imm w bf af acf => exact RoundTrip.sub imm w bf af acf
  | subc imm w bf af acf => exact RoundTrip.subc imm w bf af acf
  | add imm w bf af acf => exact RoundTrip.add imm w bf af acf
  | addc imm w bf af acf => exact RoundTrip.addc imm w bf af acf
  | cmp imm w bf af acf => exact RoundTrip.cmp imm w bf af acf
  | cmpc imm w bf af acf => exact RoundTrip.cmpc imm w bf af acf
  | tadd imm w bf af acf => exact RoundTrip.tadd imm w bf af acf
  | taddc imm w bf af acf => exact RoundTrip.taddc imm w bf af acf
  | rol imm w bf af acf => exact RoundTrip.rol imm w bf af acf
  | sll imm w bf af acf => exact RoundTrip.sll imm w bf af acf
  | srl imm w bf af acf => exact RoundTrip.srl imm w bf af acf
  | sra imm w bf af acf => exact RoundTrip.sra imm w bf af acf
  | drol imm w bf af acf => exact RoundTrip.drol imm w bf af acf
  | dsll imm w bf af acf => exact RoundTrip.dsll imm w bf af acf
  | dsrl imm w bf af acf => exact RoundTrip.dsrl imm w bf af acf
  | dsra imm w bf af acf => exact RoundTrip.dsra imm w bf af acf
  | extUnassigned skip op bf af acf => exact RoundTrip.extUnassigned skip op bf af acf
  | divStep skip bf af acf => exact RoundTrip.divStep skip bf af acf
  | transfer skip bf af acf => exact RoundTrip.transfer skip bf af acf
  | excess6 skip bf af acf => exact RoundTrip.excess6 skip bf af acf
  | mulStep skip bf af acf => exact RoundTrip.mulStep skip bf af acf
  | extract pos bf af acf => exact RoundTrip.extract pos bf af acf
  | insert pos bf af acf => exact RoundTrip.insert pos bf af acf
  | conditional cmask v c sel acf => exact RoundTrip.conditional cmask v c sel acf
  | tSpare rest => exact RoundTrip.tSpare rest
  | branch bmask v c sel val => exact RoundTrip.branch bmask v c sel val
  | store cf adr => exact RoundTrip.store cf adr
  | load cf adr => exact RoundTrip.load cf adr
  | loadi cf adr => exact RoundTrip.loadi cf adr
  | aSpare1 rest => exact RoundTrip.aSpare1 rest
  | aSpare2 rest => exact RoundTrip.aSpare2 rest
  | pmInc cf df xop val => exact RoundTrip.pmInc cf df xop val
  | pmDec cf df xop val => exact RoundTrip.pmDec cf df xop val
  | pmAdd cf df xop val => exact RoundTrip.pmAdd cf df xop val
  | pmSub1 cf df xop val => exact RoundTrip.pmSub1 cf df xop val
  | iaMX cf df ef val => exact RoundTrip.iaMX cf df ef val
  | iaRX cf df ef val => exact RoundTrip.iaRX cf df ef val
  | iaXR cf df ef val => exact RoundTrip.iaXR cf df ef val
  | iaXM cf df ef val => exact RoundTrip.iaXM cf df ef val
  | iaRM cf df ef val => exact RoundTrip.iaRM cf df ef val
  | iaMR cf df ef val => exact RoundTrip.iaMR cf df ef val
  | iaRR cf df ef val => exact RoundTrip.iaRR cf df ef val
  | iaUnassigned cf df ef val => exact RoundTrip.iaUnassigned cf df ef val

/-! ### Words put together from their fields -/

/-- Two neighbouring fields, put together, are one field. -/
theorem extractLsb'_append_below {n : Nat} (x : BitVec n) (lo low high : Nat) :
    x.extractLsb' (lo + low) high ++ x.extractLsb' lo low = x.extractLsb' lo (high + low) := by
  apply BitVec.eq_of_getLsbD_eq
  intro k hk
  rw [BitVec.getLsbD_append]
  by_cases hlow : k < low
  · simp [hlow, hk]
  · simp [hlow, hk, show k - low < high by omega, show lo + low + (k - low) = lo + k by omega]

/-- One bit as a field. -/
theorem ofBool_getLsbD_eq {n : Nat} (x : BitVec n) (k : Nat) : BitVec.ofBool (x.getLsbD k) = x.extractLsb' k 1 := by
  apply BitVec.eq_of_getLsbD_eq
  intro i hi
  obtain rfl : i = 0 := by omega
  simp

/-- The fields of the first four classes (R123). -/
theorem tWord_fields (w : Word) :
    tWord (w.extractLsb' 29 3) (w.getLsbD 28) (w.extractLsb' 24 4) (w.extractLsb' 21 3) (w.extractLsb' 18 3)
      (w.extractLsb' 0 18) = w := by
  rw [tWord, ofBool_getLsbD_eq, extractLsb'_append_below w 28 1 3, extractLsb'_append_below w 24 4 (3 + 1),
    extractLsb'_append_below w 21 3 (3 + 1 + 4), extractLsb'_append_below w 18 3 (3 + 1 + 4 + 3),
    extractLsb'_append_below w 0 18 (3 + 1 + 4 + 3 + 3)]
  exact extractLsb'_whole w

/-- The fields of the OP field of ARITHMETIC and SHIFT/ROTATE (R190, R210). -/
theorem opField_fields (op : BitVec 4) : opField (op.getLsbD 3) (op.getLsbD 2) (op.extractLsb' 0 2) = op := by
  rw [opField, ofBool_getLsbD_eq, ofBool_getLsbD_eq, extractLsb'_append_below op 2 1 1,
    extractLsb'_append_below op 0 2 (1 + 1)]
  exact extractLsb'_whole op

/-- The fields of EXTRACT and INSERT (R124). -/
theorem xWord_fields (w : Word) :
    xWord (w.extractLsb' 29 3) (w.extractLsb' 24 5) (w.extractLsb' 21 3) (w.extractLsb' 18 3) (w.extractLsb' 0 18)
      = w := by
  rw [xWord, extractLsb'_append_below w 24 5 3, extractLsb'_append_below w 21 3 (3 + 5),
    extractLsb'_append_below w 18 3 (3 + 5 + 3), extractLsb'_append_below w 0 18 (3 + 5 + 3 + 3)]
  exact extractLsb'_whole w

/-- The fields of CONDITIONAL (R125). -/
theorem conditionalWord_fields {w : Word} (hclass : w.extractLsb' 29 3 = 6#3) :
    conditionalWord (w.extractLsb' 21 8) (w.getLsbD 20) (w.getLsbD 19) (w.getLsbD 18) (w.extractLsb' 0 18) = w := by
  rw [conditionalWord, ← hclass, ofBool_getLsbD_eq, ofBool_getLsbD_eq, ofBool_getLsbD_eq,
    extractLsb'_append_below w 21 8 3, extractLsb'_append_below w 20 1 (3 + 8),
    extractLsb'_append_below w 19 1 (3 + 8 + 1), extractLsb'_append_below w 18 1 (3 + 8 + 1 + 1),
    extractLsb'_append_below w 0 18 (3 + 8 + 1 + 1 + 1)]
  exact extractLsb'_whole w

/-- The class of a left half and the rest of the word (R122). -/
theorem leftClass_fields (w : Word) : w.extractLsb' 29 3 ++ w.extractLsb' 0 29 = w := by
  rw [extractLsb'_append_below w 0 29 3]
  exact extractLsb'_whole w

/-- The two halves of a word (R120). -/
theorem halves_fields (w : Word) : w.extractLsb' 18 14 ++ w.extractLsb' 0 18 = w := by
  rw [extractLsb'_append_below w 0 18 14]
  exact extractLsb'_whole w

/-- The fields of STORE, LOAD and LOADI (R270). -/
theorem regAddrHalf_fields (h : Acf) :
    regAddrHalf (h.extractLsb' 15 3) (h.extractLsb' 12 3) (h.extractLsb' 0 12) = h := by
  rw [regAddrHalf, extractLsb'_append_below h 12 3 3, extractLsb'_append_below h 0 12 (3 + 3)]
  exact extractLsb'_whole h

/-- The fields of POINTER MODIFICATION and INDIRECT ACCESS (R280, R310). -/
theorem pointerHalf_fields (h : Acf) :
    pointerHalf (h.extractLsb' 15 3) (h.extractLsb' 12 3) (h.extractLsb' 9 3) (h.extractLsb' 7 2) (h.extractLsb' 4 3)
      (h.extractLsb' 0 4) = h := by
  rw [pointerHalf, extractLsb'_append_below h 12 3 3, extractLsb'_append_below h 9 3 (3 + 3),
    extractLsb'_append_below h 7 2 (3 + 3 + 3), extractLsb'_append_below h 4 3 (3 + 3 + 3 + 2),
    extractLsb'_append_below h 0 4 (3 + 3 + 3 + 2 + 3)]
  exact extractLsb'_whole h

/-- The fields of BRANCH (R320). -/
theorem branchHalf_fields {h : Acf} (hclass : h.extractLsb' 15 3 = 0#3) :
    branchHalf (h.extractLsb' 7 8) (h.getLsbD 6) (h.getLsbD 5) (h.getLsbD 4) (h.extractLsb' 0 4) = h := by
  rw [branchHalf, ← hclass, ofBool_getLsbD_eq, ofBool_getLsbD_eq, ofBool_getLsbD_eq,
    extractLsb'_append_below h 7 8 3, extractLsb'_append_below h 6 1 (3 + 8),
    extractLsb'_append_below h 5 1 (3 + 8 + 1), extractLsb'_append_below h 4 1 (3 + 8 + 1 + 1),
    extractLsb'_append_below h 0 4 (3 + 8 + 1 + 1 + 1)]
  exact extractLsb'_whole h

/-- The class of a right half and the rest of it (R126). -/
theorem spareHalf_fields (h : Acf) : spareHalf (h.extractLsb' 15 3) (h.extractLsb' 0 15) = h := by
  rw [spareHalf, extractLsb'_append_below h 0 15 3]
  exact extractLsb'_whole h

/-! ### The forms of a word -/

theorem bitVec2_cases (x : BitVec 2) : x = 0#2 ∨ x = 1#2 ∨ x = 2#2 ∨ x = 3#2 := by
  revert x; decide

theorem bitVec3_cases (x : BitVec 3) :
    x = 0#3 ∨ x = 1#3 ∨ x = 2#3 ∨ x = 3#3 ∨ x = 4#3 ∨ x = 5#3 ∨ x = 6#3 ∨ x = 7#3 := by
  revert x; decide

theorem bitVec4_cases (x : BitVec 4) :
    x = 0#4 ∨ x = 1#4 ∨ x = 2#4 ∨ x = 3#4 ∨ x = 4#4 ∨ x = 5#4 ∨ x = 6#4 ∨ x = 7#4 ∨ x = 8#4 ∨ x = 9#4 ∨ x = 10#4 ∨
      x = 11#4 ∨ x = 12#4 ∨ x = 13#4 ∨ x = 14#4 ∨ x = 15#4 := by
  revert x; decide

/-- A word as the encoder builds it for a left half of one of the eight classes (R122). -/
inductive LeftForm : Word → Prop where
  | logical (imm : Bool) (op : BitVec 4) (bf af : RegNo) (acf : Acf) : LeftForm (tWord 0#3 imm op bf af acf)
  | arithmetic (imm td w : Bool) (fn : BitVec 2) (bf af : RegNo) (acf : Acf) :
      LeftForm (tWord 1#3 imm (opField td w fn) bf af acf)
  | shift (imm td w : Bool) (fn : BitVec 2) (bf af : RegNo) (acf : Acf) :
      LeftForm (tWord 2#3 imm (opField td w fn) bf af acf)
  | extended (skip : Bool) (op : BitVec 4) (bf af : RegNo) (acf : Acf) : LeftForm (tWord 3#3 skip op bf af acf)
  | extract (pos : BitVec 5) (bf af : RegNo) (acf : Acf) : LeftForm (xWord 4#3 pos bf af acf)
  | insert (pos : BitVec 5) (bf af : RegNo) (acf : Acf) : LeftForm (xWord 5#3 pos bf af acf)
  | conditional (cmask : BitVec 8) (v c sel : Bool) (acf : Acf) : LeftForm (conditionalWord cmask v c sel acf)
  | spare (rest : BitVec 29) : LeftForm (7#3 ++ rest)

/-- A right half as the encoder builds it for one of the eight classes (R126). -/
inductive RightForm : Acf → Prop where
  | branch (bmask : BitVec 8) (v c sel : Bool) (val : BitVec 4) : RightForm (branchHalf bmask v c sel val)
  | store (cf : RegNo) (adr : Addr) : RightForm (regAddrHalf 1#3 cf adr)
  | spare1 (rest : BitVec 15) : RightForm (spareHalf 2#3 rest)
  | load (cf : RegNo) (adr : Addr) : RightForm (regAddrHalf 3#3 cf adr)
  | pointer (cf df : RegNo) (ef : BitVec 2) (xop : BitVec 3) (val : BitVec 4) :
      RightForm (pointerHalf 4#3 cf df ef xop val)
  | indirect (cf df : RegNo) (ef : BitVec 2) (xop : BitVec 3) (val : BitVec 4) :
      RightForm (pointerHalf 5#3 cf df ef xop val)
  | spare2 (rest : BitVec 15) : RightForm (spareHalf 6#3 rest)
  | loadi (cf : RegNo) (adr : Addr) : RightForm (regAddrHalf 7#3 cf adr)

/-- Every word is of one of the forms, by its class. -/
theorem leftForm (w : Word) : LeftForm w := by
  have ht := tWord_fields w
  have hop := opField_fields (w.extractLsb' 24 4)
  have hx := xWord_fields w
  have hs := leftClass_fields w
  rcases bitVec3_cases (w.extractLsb' 29 3) with h | h | h | h | h | h | h | h
  · rw [← ht, h]; exact .logical ..
  · rw [← ht, ← hop, h]; exact .arithmetic ..
  · rw [← ht, ← hop, h]; exact .shift ..
  · rw [← ht, h]; exact .extended ..
  · rw [← hx, h]; exact .extract ..
  · rw [← hx, h]; exact .insert ..
  · rw [← conditionalWord_fields h]; exact .conditional ..
  · rw [← hs, h]; exact .spare _

/-- Every right half is of one of the forms, by its class. -/
theorem rightForm (h : Acf) : RightForm h := by
  have ha := regAddrHalf_fields h
  have hs := spareHalf_fields h
  have hp := pointerHalf_fields h
  rcases bitVec3_cases (h.extractLsb' 15 3) with hc | hc | hc | hc | hc | hc | hc | hc
  · rw [← branchHalf_fields hc]; exact .branch ..
  · rw [← ha, hc]; exact .store ..
  · rw [← hs, hc]; exact .spare1 _
  · rw [← ha, hc]; exact .load ..
  · rw [← hp, hc]; exact .pointer ..
  · rw [← hp, hc]; exact .indirect ..
  · rw [← hs, hc]; exact .spare2 _
  · rw [← ha, hc]; exact .loadi ..

/-! ### Decode, then encode -/

/-- `w` is the word of `i`, a well-formed row of the left or of the right half of the table. -/
structure WordOf (left : Bool) (i : Instr) (w : Word) : Prop where
  /-- The encoder gives the word. -/
  encoded : encode i = w
  /-- The instruction is one that a word encodes. -/
  wellFormed : i.wellFormed = true
  /-- The row stands in that half of the table. -/
  half : i.isT = left

theorem wordOf_logical (op : BitVec 4) (imm : Bool) (bf af : RegNo) (acf : Acf) :
    WordOf true (decodeLogical op.toNat imm bf af acf) (tWord 0#3 imm op bf af acf) := by
  rcases bitVec4_cases op with rfl | rfl | rfl | rfl | rfl | rfl | rfl | rfl | rfl | rfl | rfl | rfl | rfl | rfl | rfl |
    rfl <;> exact ⟨rfl, rfl, rfl⟩

theorem wordOf_arithmetic (td w : Bool) (fn : BitVec 2) (imm : Bool) (bf af : RegNo) (acf : Acf) :
    WordOf true (decodeArithmetic (td.toNat * 4 + fn.toNat) imm w bf af acf)
      (tWord 1#3 imm (opField td w fn) bf af acf) := by
  rcases bitVec2_cases fn with rfl | rfl | rfl | rfl <;> cases td <;> exact ⟨rfl, rfl, rfl⟩

theorem wordOf_shift (td w : Bool) (fn : BitVec 2) (imm : Bool) (bf af : RegNo) (acf : Acf) :
    WordOf true (decodeShift (td.toNat * 4 + fn.toNat) imm w bf af acf)
      (tWord 2#3 imm (opField td w fn) bf af acf) := by
  rcases bitVec2_cases fn with rfl | rfl | rfl | rfl <;> cases td <;> exact ⟨rfl, rfl, rfl⟩

theorem wordOf_extended (op : BitVec 4) (skip : Bool) (bf af : RegNo) (acf : Acf) :
    WordOf true (decodeExtended op skip bf af acf) (tWord 3#3 skip op bf af acf) := by
  rcases bitVec4_cases op with rfl | rfl | rfl | rfl | rfl | rfl | rfl | rfl | rfl | rfl | rfl | rfl | rfl | rfl | rfl |
    rfl <;> exact ⟨rfl, rfl, rfl⟩

theorem wordOf_pointer (ef : BitVec 2) (cf df : RegNo) (xop : BitVec 3) (val : BitVec 4) :
    WordOf false (decodePointer ef.toNat cf df xop val) (rightOnlyWord (pointerHalf 4#3 cf df ef xop val)) := by
  rcases bitVec2_cases ef with rfl | rfl | rfl | rfl <;> exact ⟨rfl, rfl, rfl⟩

theorem wordOf_indirect (xop : BitVec 3) (cf df : RegNo) (ef : BitVec 2) (val : BitVec 4) :
    WordOf false (decodeIndirect xop.toNat cf df ef val) (rightOnlyWord (pointerHalf 5#3 cf df ef xop val)) := by
  rcases bitVec3_cases xop with rfl | rfl | rfl | rfl | rfl | rfl | rfl | rfl <;> exact ⟨rfl, rfl, rfl⟩

/-- Every word is the word of the left half it is decoded to (R135). -/
theorem wordOf_decodeT (w : Word) : WordOf true (decodeT w) w := by
  cases leftForm w with
  | logical imm op bf af acf => rw [decodeT_logical]; exact wordOf_logical op imm bf af acf
  | arithmetic imm td w fn bf af acf => rw [decodeT_arithmetic]; exact wordOf_arithmetic td w fn imm bf af acf
  | shift imm td w fn bf af acf => rw [decodeT_shift]; exact wordOf_shift td w fn imm bf af acf
  | extended skip op bf af acf => rw [decodeT_extended]; exact wordOf_extended op skip bf af acf
  | extract pos bf af acf => rw [decodeT_extract]; exact ⟨rfl, rfl, rfl⟩
  | insert pos bf af acf => rw [decodeT_insert]; exact ⟨rfl, rfl, rfl⟩
  | conditional cmask v c sel acf => rw [decodeT_conditional]; exact ⟨rfl, rfl, rfl⟩
  | spare rest => rw [decodeT_spare]; exact ⟨rfl, rfl, rfl⟩

/-- Every right half, under the left half that does nothing, is the word of what it is decoded to (R135, R136). -/
theorem wordOf_decodeA (h : Acf) : WordOf false (decodeA h) (rightOnlyWord h) := by
  cases rightForm h with
  | branch bmask v c sel val => rw [decodeA_branch]; exact ⟨rfl, rfl, rfl⟩
  | store cf adr => rw [decodeA_store]; exact ⟨rfl, rfl, rfl⟩
  | spare1 rest => rw [decodeA_spare1]; exact ⟨rfl, rfl, rfl⟩
  | load cf adr => rw [decodeA_load]; exact ⟨rfl, rfl, rfl⟩
  | pointer cf df ef xop val => rw [decodeA_pointer]; exact wordOf_pointer ef cf df xop val
  | indirect cf df ef xop val => rw [decodeA_indirect]; exact wordOf_indirect xop cf df ef val
  | spare2 rest => rw [decodeA_spare2]; exact ⟨rfl, rfl, rfl⟩
  | loadi cf adr => rw [decodeA_loadi]; exact ⟨rfl, rfl, rfl⟩

/-- Settles O3. -/
theorem encodeOfDecode : Obligations.EncodeOfDecode :=
  ⟨fun w => have hw := wordOf_decodeT w; ⟨hw.encoded, hw.wellFormed, hw.half⟩,
    fun h => have hh := wordOf_decodeA h; ⟨hh.encoded, hh.wellFormed, hh.half⟩⟩

/-! ### Words of the encoding tables -/

/-- Settles O1: each word is that of its class with the operands written out, which the laws decode. -/
theorem specWordsDecode : Obligations.SpecWordsDecode :=
  ⟨decodeT_arithmetic false false false 2#2 2#3 1#3 0#18,
    decodeT_logical true 14#4 0#3 1#3 0x100FF#18,
    decodeT_shift false true true 1#2 4#3 3#3 0#18,
    decodeT_extended false 15#4 1#3 2#3 0x2409F#18,
    decodeT_insert 4#5 2#3 4#3 0x00FF0#18,
    decodeT_conditional 0xC0#8 true false false 0x3B001#18,
    decodeA_branch 0xC0#8 true false false 14#4,
    decodeA_store 2#3 0x200#12,
    decodeA_pointer 4#3 0#3 1#2 1#3 15#4,
    decodeA_indirect 2#3 1#3 3#2 0#3 1#4,
    decodeA_loadi 2#3 0x800#12⟩

end Sys2Proof
end

section
/-! The opcode table (R135, R138): the row that applies to a word is the one of the form the word has, and no two rows of
one half of the table apply to the same word; obligation O4. -/

namespace Sys2Proof

/-- The row's bits stand in the word (R138). -/
def OpcodeRow.Applies (r : OpcodeRow) (w : Word) : Prop := w &&& r.mask = r.pattern

/-! ### At most one row applies -/

/-- No word has the bits of both rows. -/
def OpcodeRow.Apart (r q : OpcodeRow) : Prop := r.pattern &&& q.mask ≠ q.pattern &&& r.mask

theorem OpcodeRow.Apart.not_applies {r q : OpcodeRow} {w : Word} (h : r.Apart q) (hr : r.Applies w) : ¬ q.Applies w := by
  intro hq
  refine h ?_
  rw [← hr, ← hq, BitVec.and_assoc, BitVec.and_assoc, BitVec.and_comm q.mask]

/-- In a list of rows that are apart at most one row applies to a word. -/
theorem applies_unique {rows : List OpcodeRow} (hrows : rows.Pairwise OpcodeRow.Apart) {w : Word} {r q : OpcodeRow}
    (hr : r ∈ rows) (hq : q ∈ rows) (hrw : r.Applies w) (hqw : q.Applies w) : r = q := by
  have hsymm : Std.Symm OpcodeRow.Apart := ⟨fun _ _ h => h.symm⟩
  by_contra hne
  exact (hrows.forall hr hq hne).not_applies hrw hqw

theorem leftRows_apart : leftRows.Pairwise OpcodeRow.Apart := by
  unfold OpcodeRow.Apart
  decide +kernel

theorem rightRows_apart : rightRows.Pairwise OpcodeRow.Apart := by
  unfold OpcodeRow.Apart
  decide +kernel

/-! ### The rows, by the fields they fix -/

/-- The row of a left half whose class and OP bits in `m` are fixed. -/
def opRow (name : String) (cls : BitVec 3) (m op : BitVec 4) : OpcodeRow :=
  ⟨name, true, tWord 7#3 false m 0#3 0#3 0#18, tWord cls false op 0#3 0#3 0#18⟩

/-- The row of a left half whose class alone is fixed. -/
def leftClassRow (name : String) (cls : BitVec 3) : OpcodeRow := ⟨name, true, 7#3 ++ 0#29, cls ++ 0#29⟩

/-- The row of a right half whose class, and the EF and XOP bits in `me` and `mx`, are fixed. -/
def pointerRow (name : String) (cls : BitVec 3) (me ef : BitVec 2) (mx xop : BitVec 3) : OpcodeRow :=
  ⟨name, false, 0#14 ++ pointerHalf 7#3 0#3 0#3 me mx 0#4, 0#14 ++ pointerHalf cls 0#3 0#3 ef xop 0#4⟩

/-- The row of a right half whose class alone is fixed. -/
def rightClassRow (name : String) (cls : BitVec 3) : OpcodeRow :=
  ⟨name, false, 0#14 ++ spareHalf 7#3 0#15, 0#14 ++ spareHalf cls 0#15⟩

theorem class_and_mask (cls : BitVec 3) : cls &&& 7#3 = cls := BitVec.and_allOnes

/-- A mask is laid on each part of a word. -/
theorem append_and_append {n m : Nat} {x mx px : BitVec n} {y my py : BitVec m} (hx : x &&& mx = px)
    (hy : y &&& my = py) : (x ++ y) &&& (mx ++ my) = px ++ py := by
  rw [BitVec.and_append, hx, hy]

theorem opRow_applies {name : String} {cls : BitVec 3} {m op op' : BitVec 4} (hop : op' &&& m = op) (b : Bool)
    (bf af : RegNo) (acf : Acf) : (opRow name cls m op).Applies (tWord cls b op' bf af acf) := by
  have hbit : BitVec.ofBool b &&& BitVec.ofBool false = BitVec.ofBool false := BitVec.and_zero
  have hhead := append_and_append (append_and_append (class_and_mask cls) hbit) hop
  exact append_and_append (append_and_append (append_and_append hhead BitVec.and_zero) BitVec.and_zero) BitVec.and_zero

theorem leftClassRow_applies {name : String} {cls : BitVec 3} {w : Word} (hclass : w.extractLsb' 29 3 = cls) :
    (leftClassRow name cls).Applies w := by
  rw [← leftClass_fields w, hclass]
  exact append_and_append (class_and_mask cls) BitVec.and_zero

/-- A row of the right half looks at the right half only. -/
theorem applies_rightHalf {name : String} {mask pattern : Acf} {w : Word}
    (h : w.extractLsb' 0 18 &&& mask = pattern) :
    (OpcodeRow.mk name false (0#14 ++ mask) (0#14 ++ pattern)).Applies w := by
  rw [← halves_fields w]
  exact append_and_append BitVec.and_zero h

theorem pointerRow_applies {name : String} {cls : BitVec 3} {me ef ef' : BitVec 2} {mx xop xop' : BitVec 3} {w : Word}
    {cf df : RegNo} {val : BitVec 4} (hef : ef' &&& me = ef) (hxop : xop' &&& mx = xop)
    (hw : w.extractLsb' 0 18 = pointerHalf cls cf df ef' xop' val) : (pointerRow name cls me ef mx xop).Applies w := by
  refine applies_rightHalf ?_
  rw [hw]
  have hregs := append_and_append (append_and_append (class_and_mask cls) (BitVec.and_zero (x := cf)))
    (BitVec.and_zero (x := df))
  exact append_and_append (append_and_append (append_and_append hregs hef) hxop) BitVec.and_zero

theorem rightClassRow_applies {name : String} {cls : BitVec 3} {w : Word}
    (hclass : (w.extractLsb' 0 18).extractLsb' 15 3 = cls) : (rightClassRow name cls).Applies w := by
  refine applies_rightHalf ?_
  rw [← spareHalf_fields (w.extractLsb' 0 18), hclass]
  exact append_and_append (class_and_mask cls) BitVec.and_zero

/-! ### The row of each form stands in the table -/

theorem logicalRow_mem (op : BitVec 4) (imm : Bool) (bf af : RegNo) (acf : Acf) :
    opRow (decodeLogical op.toNat imm bf af acf).mnemonic 0#3 15#4 op ∈ leftRows := by
  refine List.mem_of_getElem? (i := op.toNat) ?_
  rcases bitVec4_cases op with rfl | rfl | rfl | rfl | rfl | rfl | rfl | rfl | rfl | rfl | rfl | rfl | rfl | rfl | rfl |
    rfl <;> rfl

theorem arithmeticRow_mem (td w : Bool) (fn : BitVec 2) (imm : Bool) (bf af : RegNo) (acf : Acf) :
    opRow (decodeArithmetic (td.toNat * 4 + fn.toNat) imm w bf af acf).mnemonic 1#3 11#4 (opField td false fn)
      ∈ leftRows := by
  refine List.mem_of_getElem? (i := 16 + (td.toNat * 4 + fn.toNat)) ?_
  rcases bitVec2_cases fn with rfl | rfl | rfl | rfl <;> cases td <;> rfl

theorem shiftRow_mem (td w : Bool) (fn : BitVec 2) (imm : Bool) (bf af : RegNo) (acf : Acf) :
    opRow (decodeShift (td.toNat * 4 + fn.toNat) imm w bf af acf).mnemonic 2#3 11#4 (opField td false fn)
      ∈ leftRows := by
  refine List.mem_of_getElem? (i := 24 + (td.toNat * 4 + fn.toNat)) ?_
  rcases bitVec2_cases fn with rfl | rfl | rfl | rfl <;> cases td <;> rfl

/-- The W bit is no part of a row's OP bits. -/
theorem opField_and_mask (td w : Bool) (fn : BitVec 2) : opField td w fn &&& 11#4 = opField td false fn := by
  revert td w fn; decide

/-- The bits of OP that the row of an EXTENDED instruction fixes: EXT.UNASSIGNED has the two rows 0--- and 10--
(R231). -/
def extendedMask (op : BitVec 4) : BitVec 4 := if op.toNat < 8 then 8#4 else if op.toNat < 12 then 12#4 else 15#4

/-- The place of that row in the table. -/
def extendedIndex (op : BitVec 4) : Nat := if op.toNat < 8 then 32 else if op.toNat < 12 then 33 else 22 + op.toNat

theorem extendedRow_mem (op : BitVec 4) (skip : Bool) (bf af : RegNo) (acf : Acf) :
    opRow (decodeExtended op skip bf af acf).mnemonic 3#3 (extendedMask op) (op &&& extendedMask op) ∈ leftRows := by
  refine List.mem_of_getElem? (i := extendedIndex op) ?_
  rcases bitVec4_cases op with rfl | rfl | rfl | rfl | rfl | rfl | rfl | rfl | rfl | rfl | rfl | rfl | rfl | rfl | rfl |
    rfl <;> rfl

theorem pmRow_mem (ef : BitVec 2) (cf df : RegNo) (xop : BitVec 3) (val : BitVec 4) :
    pointerRow (decodePointer ef.toNat cf df xop val).mnemonic 4#3 3#2 ef 0#3 0#3 ∈ rightRows := by
  refine List.mem_of_getElem? (i := 4 + ef.toNat) ?_
  rcases bitVec2_cases ef with rfl | rfl | rfl | rfl <;> rfl

theorem iaRow_mem (xop : BitVec 3) (cf df : RegNo) (ef : BitVec 2) (val : BitVec 4) :
    pointerRow (decodeIndirect xop.toNat cf df ef val).mnemonic 5#3 0#2 0#2 7#3 xop ∈ rightRows := by
  refine List.mem_of_getElem? (i := 8 + xop.toNat) ?_
  rcases bitVec3_cases xop with rfl | rfl | rfl | rfl | rfl | rfl | rfl | rfl <;> rfl

/-- Some left-half row applies to a word, and the decoder gives its mnemonic. -/
theorem exists_leftRow (w : Word) : ∃ r ∈ leftRows, r.Applies w ∧ (decodeT w).mnemonic = r.mnemonic := by
  cases leftForm w with
  | logical imm op bf af acf =>
    rw [decodeT_logical]
    exact ⟨_, logicalRow_mem op imm bf af acf, opRow_applies BitVec.and_allOnes .., rfl⟩
  | arithmetic imm td w fn bf af acf =>
    rw [decodeT_arithmetic]
    exact ⟨_, arithmeticRow_mem td w fn imm bf af acf, opRow_applies (opField_and_mask td w fn) .., rfl⟩
  | shift imm td w fn bf af acf =>
    rw [decodeT_shift]
    exact ⟨_, shiftRow_mem td w fn imm bf af acf, opRow_applies (opField_and_mask td w fn) .., rfl⟩
  | extended skip op bf af acf =>
    rw [decodeT_extended]
    exact ⟨_, extendedRow_mem op skip bf af acf, opRow_applies rfl .., rfl⟩
  | extract pos bf af acf =>
    rw [decodeT_extract]
    exact ⟨leftClassRow "EXTRACT" 4#3, List.mem_of_getElem? (i := 38) rfl, leftClassRow_applies (xWord_class ..), rfl⟩
  | insert pos bf af acf =>
    rw [decodeT_insert]
    exact ⟨leftClassRow "INSERT" 5#3, List.mem_of_getElem? (i := 39) rfl, leftClassRow_applies (xWord_class ..), rfl⟩
  | conditional cmask v c sel acf =>
    rw [decodeT_conditional]
    exact ⟨leftClassRow "CONDITIONAL" 6#3, List.mem_of_getElem? (i := 40) rfl,
      leftClassRow_applies (conditionalWord_class ..), rfl⟩
  | spare rest =>
    rw [decodeT_spare]
    exact ⟨leftClassRow "T-SPARE" 7#3, List.mem_of_getElem? (i := 41) rfl,
      leftClassRow_applies BitVec.extractLsb'_append_eq_left, rfl⟩

/-- Some right-half row applies to a word, and the decoder gives its mnemonic. -/
theorem exists_rightRow (w : Word) :
    ∃ r ∈ rightRows, r.Applies w ∧ (decodeA (w.extractLsb' 0 18)).mnemonic = r.mnemonic := by
  have hform := rightForm (w.extractLsb' 0 18)
  generalize hw : w.extractLsb' 0 18 = h at hform ⊢
  have hclass : ∀ {cls}, h.extractLsb' 15 3 = cls → ∀ name, (rightClassRow name cls).Applies w :=
    fun hc _ => rightClassRow_applies (hw ▸ hc)
  cases hform with
  | branch bmask v c sel val =>
    rw [decodeA_branch]
    exact ⟨_, List.mem_of_getElem? (i := 0) rfl, hclass (branchHalf_class ..) "BRANCH", rfl⟩
  | store cf adr =>
    rw [decodeA_store]
    exact ⟨_, List.mem_of_getElem? (i := 1) rfl, hclass (regAddrHalf_class ..) "STORE", rfl⟩
  | spare1 rest =>
    rw [decodeA_spare1]
    exact ⟨_, List.mem_of_getElem? (i := 2) rfl, hclass (spareHalf_class ..) "A-SPARE1", rfl⟩
  | load cf adr =>
    rw [decodeA_load]
    exact ⟨_, List.mem_of_getElem? (i := 3) rfl, hclass (regAddrHalf_class ..) "LOAD", rfl⟩
  | pointer cf df ef xop val =>
    rw [decodeA_pointer]
    exact ⟨_, pmRow_mem ef cf df xop val, pointerRow_applies BitVec.and_allOnes BitVec.and_zero hw, rfl⟩
  | indirect cf df ef xop val =>
    rw [decodeA_indirect]
    exact ⟨_, iaRow_mem xop cf df ef val, pointerRow_applies BitVec.and_zero BitVec.and_allOnes hw, rfl⟩
  | spare2 rest =>
    rw [decodeA_spare2]
    exact ⟨_, List.mem_of_getElem? (i := 16) rfl, hclass (spareHalf_class ..) "A-SPARE2", rfl⟩
  | loadi cf adr =>
    rw [decodeA_loadi]
    exact ⟨_, List.mem_of_getElem? (i := 17) rfl, hclass (regAddrHalf_class ..) "LOADI", rfl⟩

/-! ### Exactly one row applies, and it is decoded -/

section
variable {rows : List OpcodeRow} (hrows : rows.Pairwise OpcodeRow.Apart) {w : Word} {name : String}
  (hsome : ∃ r ∈ rows, r.Applies w ∧ name = r.mnemonic)
include hrows hsome

theorem mnemonic_of_applies {r : OpcodeRow} (hmem : r ∈ rows) (hr : r.Applies w) : name = r.mnemonic := by
  obtain ⟨q, hq, hqw, hname⟩ := hsome
  rw [hname, applies_unique hrows hq hmem hqw hr]

theorem existsUnique_applies : ∃! r, r ∈ rows ∧ r.Applies w := by
  obtain ⟨q, hq, hqw, -⟩ := hsome
  exact ⟨q, ⟨hq, hqw⟩, fun r ⟨hr, hrw⟩ => applies_unique hrows hr hq hrw hqw⟩

end

/-- Settles O4: the row that applies is the one found for the word's form. -/
theorem tableRowIsDecoded : Obligations.TableRowIsDecoded :=
  ⟨fun _ hmem w hr => mnemonic_of_applies leftRows_apart (exists_leftRow w) hmem hr,
    fun _ hmem w hr => mnemonic_of_applies rightRows_apart (exists_rightRow w) hmem hr,
    fun w => existsUnique_applies leftRows_apart (exists_leftRow w),
    fun w => existsUnique_applies rightRows_apart (exists_rightRow w)⟩

end Sys2Proof
end

section
/-! The operand forms of the encoding (R128, R160, R191), EXCESS SIX (R235), CONDITIONAL (R261), the reserved encodings
(R140, R231, R291) and the step of a CPU that runs alone (R130); obligations O5, O15, O16, O26, O31 and O53. -/

namespace Sys2Proof.Machine

open Host

/-! ### Operands -/

/-- The expanded right half, by its justify bit J, its fill bit F and IF (R128). -/
theorem expand_append (form : BitVec 2) (imm : BitVec 16) :
    expand (form ++ imm) =
      if form.getLsbD 1 then imm ++ (if form.getLsbD 0 then 0xFFFF#16 else 0#16)
      else (if form.getLsbD 0 then 0xFFFF#16 else 0#16) ++ imm := by
  have himm : (form ++ imm).extractLsb' 0 16 = imm := BitVec.extractLsb'_append_eq_right
  have hfill : (form ++ imm).getLsbD 16 = form.getLsbD 0 := getLsbD_append_left form imm 16 (by omega)
  have hjustify : (form ++ imm).getLsbD 17 = form.getLsbD 1 := getLsbD_append_left form imm 17 (by omega)
  simp only [expand, himm, hfill, hjustify]

/-- Settles O15. -/
theorem expandJustifiesAndFills : Obligations.ExpandJustifiesAndFills := fun imm =>
  ⟨expand_append 0#2 imm, expand_append 1#2 imm, expand_append 2#2 imm, expand_append 3#2 imm⟩

@[simp] theorem operand2_immediate (s : State) (bf : RegNo) (acf : Acf) : s.operand2 true bf acf = expand acf := rfl

@[simp] theorem operand2_register (s : State) (bf : RegNo) (acf : Acf) : s.operand2 false bf acf = s.readReg bf := rfl

/-- The small value of ARITHMETIC (R191). -/
theorem toNat_arithOperand_val (s : State) (imm : Bool) (bf : RegNo) (acf : Acf) :
    (s.arithOperand imm true bf acf).toNat = bf.toNat :=
  BitVec.toNat_setWidth_of_le (w := 3) (by omega)

@[simp] theorem arithOperand_operand (s : State) (imm : Bool) (bf : RegNo) (acf : Acf) :
    s.arithOperand imm false bf acf = s.operand2 imm bf acf := rfl

/-- Settles O16. -/
theorem secondOperand : Obligations.SecondOperand := fun s bf acf =>
  ⟨operand2_immediate s bf acf, operand2_register s bf acf, fun imm => toNat_arithOperand_val s imm bf acf,
    fun imm => arithOperand_operand s imm bf acf⟩

/-! ### EXCESS SIX (R235) -/

/-- The last digit of a bit string. -/
theorem lastDigit_append {n : Nat} {x : BitVec n} {e : BitVec 4} : (x ++ e).extractLsb' (4 * 0) 4 = e :=
  BitVec.extractLsb'_append_eq_right

/-- A digit left of the last one. -/
theorem digit_append_succ {n k : Nat} {x : BitVec n} {e e' : BitVec 4} (h : x.extractLsb' (4 * k) 4 = e') :
    (x ++ e).extractLsb' (4 * (k + 1)) 4 = e' :=
  (extractLsb'_append_left x e _ 4 (by omega)).trans h

/-- The digits of a word written digit by digit. -/
theorem digit_digits (e : Nat → BitVec 4) {d : Nat} (hd : d < 8) :
    digit (e 7 ++ e 6 ++ e 5 ++ e 4 ++ e 3 ++ e 2 ++ e 1 ++ e 0) d = e d := by
  have hfirst : (e 7).extractLsb' (4 * 0) 4 = e 7 := extractLsb'_whole (e 7)
  unfold digit
  interval_cases d
  · exact lastDigit_append
  · iterate 1 apply digit_append_succ
    exact lastDigit_append
  · iterate 2 apply digit_append_succ
    exact lastDigit_append
  · iterate 3 apply digit_append_succ
    exact lastDigit_append
  · iterate 4 apply digit_append_succ
    exact lastDigit_append
  · iterate 5 apply digit_append_succ
    exact lastDigit_append
  · iterate 6 apply digit_append_succ
    exact lastDigit_append
  · iterate 7 apply digit_append_succ
    exact hfirst

/-- Each digit is corrected by itself. -/
theorem digit_excess6 (src old : Word) {d : Nat} (hd : d < 8) :
    digit (excess6 src old) d = excess6Digit (digit src d) (digit old d) :=
  digit_digits (fun d => excess6Digit (digit src d) (digit old d)) hd

/-- Settles O26, with EXCESS6_OTHER_DIGITS itself for the treatment of the other digits. -/
theorem excess6Corrects : Obligations.Excess6Corrects :=
  ⟨Config.excess6Keeps, fun skip bf af acf s => by
    obtain ⟨hgets, hframe⟩ := s.writeReg_left af (excess6 (s.readReg bf) (s.readReg af)) skip acf
    exact ⟨_, _, exec_excess6 s skip bf af acf, fun d hd => digit_excess6 _ _ hd, hgets, hframe⟩⟩

/-! ### CONDITIONAL and the reserved encodings -/

/-- Settles O31: the state is the same but for what runs next. -/
theorem conditionalSkips : Obligations.ConditionalSkips := fun cmask v c sel acf s =>
  ⟨_, exec_conditional s cmask v c sel acf,
    leftFrame_afterT s (s.codeTest cmask v c sel) acf rfl (fun _ _ => rfl) ⟨rfl, rfl⟩ ⟨rfl, rfl, rfl, rfl, rfl⟩⟩

/-- Settles O53: each row's meaning is its refusal. -/
theorem reservedEncodingsRefused : Obligations.ReservedEncodingsRefused := fun s =>
  ⟨exec_tSpare s, exec_aSpare1 s, exec_aSpare2 s, exec_extUnassigned s, exec_iaUnassigned s⟩

/-! ### A whole microinstruction (R130) -/

theorem thenRightHalf_done {t : State} (h : ∀ acf, t.phase ≠ .aSeq acf) : thenRightHalf (.next t) = .next t := by
  cases hphase : t.phase with
  | aSeq acf => exact absurd hphase (h acf)
  | ifetch => exact thenRightHalf_ifetch hphase
  | sending x => simp only [thenRightHalf, hphase]
  | stuck => simp only [thenRightHalf, hphase]

/-- A CPU that runs alone before an IFETCH runs the left half, and the right half after it. -/
theorem step_microinstruction {s : State} {w : Word} (hsched : s.schedule = []) (hphase : s.phase = .ifetch)
    (howed : s.timeoutIrq = false) (hrun : s.halted = false) (hread : s.memRead s.mar = some w) :
    step s = thenRightHalf (exec (decodeT w) s.incMar) := by
  rw [step_nil hsched, State.runAlone_ifetch hphase, State.sequence_fetch hphase howed hrun, State.fetchAndT_some hread]

/-- Settles O5. -/
theorem stepRunsDecoded : Obligations.StepRunsDecoded := by
  intro s w hsched hphase howed hrun hread
  rw [step_microinstruction hsched hphase howed hrun hread]
  cases exec (decodeT w) s.incMar with
  | next t =>
    cases hright : t.phase with
    | aSeq acf => simp only [thenRightHalf_aSeq hright, hright]
    | ifetch => simp only [thenRightHalf_ifetch hright, hright]
    | sending x => simp only [thenRightHalf_done (t := t) (by simp [hright]), hright]
    | stuck => simp only [thenRightHalf_done (t := t) (by simp [hright]), hright]
  | fault f => rfl
  | refused r => rfl

end Sys2Proof.Machine
end

section
/-! SHIFT/ROTATE (R212 to R221): a shift by an amount is as many one-bit steps; obligations O21 and O22. -/

namespace Sys2Proof.Machine

open Host

/-! ### A shift as repeated one-bit steps (R212, R213) -/

/-- The closed form of a shift is the repetition of its one-bit step. -/
theorem shift_eq_iterate_oneStep {n : Nat} (hn : 1 < n) (ty : ShiftTy) (v : BitVec n) (k : Nat) :
    ty.shift v k = (ShiftTy.oneStep ty)^[k] v := by
  induction k with
  | zero => exact shift_zero ty v
  | succ k ih => rw [shift_succ hn, ih, Function.iterate_succ_apply']

theorem shift_eq_iterate_step32 (ty : ShiftTy) (v : BitVec 32) (k : Nat) : ty.shift v k = (step32 ty)^[k] v := by
  have hstep : ShiftTy.oneStep ty = step32 ty := funext (oneStep_eq_step32 ty)
  rw [shift_eq_iterate_oneStep (by omega), hstep]

theorem shift_eq_iterate_step64 (ty : ShiftTy) (q : BitVec 64) (k : Nat) : ty.shift q k = (step64 ty)^[k] q := by
  have hstep : ShiftTy.oneStep ty = step64 ty := funext (oneStep_eq_step64 ty)
  rw [shift_eq_iterate_oneStep (by omega), hstep]

/-! ### The operations that the rows share -/

/-- Single length: x[AF] gets its repeated one-bit step, nothing else changes (R212). -/
theorem State.shiftSingle_spec (s : State) (ty : ShiftTy) (imm w : Bool) (bf af : RegNo) (acf : Acf) :
    Gets af ((step32 ty)^[s.shiftAmount imm w bf acf] (s.readReg af)) (s.shiftSingle ty imm w bf af acf) ∧
    LeftFrame [af] imm acf s (s.shiftSingle ty imm w bf af acf) := by
  rw [← shift_eq_iterate_step32]
  exact s.writeReg_left af _ imm acf

/-- Double length: the pair, x[AF] high, gets its repeated one-bit step, nothing else changes (R213). -/
theorem State.shiftDouble_spec (s : State) (ty : ShiftTy) (imm w : Bool) (bf af : RegNo) (acf : Acf) :
    HoldsPair af ((step64 ty)^[s.shiftAmount imm w bf acf] (s.readReg af ++ s.readReg (af ^^^ 1#3)))
      (s.shiftDouble ty imm w bf af acf) ∧
    LeftFrame [af, af ^^^ 1#3] imm acf s (s.shiftDouble ty imm w bf af acf) := by
  rw [← shift_eq_iterate_step64]
  exact s.writePair_left af _ imm acf

/-! ### The rows (R214 to R221) -/

/-- What is claimed of the SHIFT/ROTATE microinstruction `p.1`, which shifts x[AF] by the type `p.2`. -/
def SingleShiftRow (p : (Bool → Bool → RegNo → RegNo → Acf → Instr) × ShiftTy) : Prop :=
  ∀ (imm w : Bool) (bf af : RegNo) (acf : Acf) (s : State),
    ∃ t, exec (p.1 imm w bf af acf) s = .next t ∧
      Gets af ((step32 p.2)^[s.shiftAmount imm w bf acf] (s.readReg af)) t ∧ LeftFrame [af] imm acf s t

/-- The same of one that shifts the pair. -/
def DoubleShiftRow (p : (Bool → Bool → RegNo → RegNo → Acf → Instr) × ShiftTy) : Prop :=
  ∀ (imm w : Bool) (bf af : RegNo) (acf : Acf) (s : State),
    ∃ t, exec (p.1 imm w bf af acf) s = .next t ∧
      HoldsPair af ((step64 p.2)^[s.shiftAmount imm w bf acf] (s.readReg af ++ s.readReg (af ^^^ 1#3))) t ∧
      LeftFrame [af, af ^^^ 1#3] imm acf s t

section
variable {row : Bool → Bool → RegNo → RegNo → Acf → Instr} {ty : ShiftTy}

theorem singleShiftRow
    (hexec : ∀ imm w bf af acf s, exec (row imm w bf af acf) s = .next (s.shiftSingle ty imm w bf af acf)) :
    SingleShiftRow (row, ty) := fun imm w bf af acf s =>
  ⟨_, hexec imm w bf af acf s, s.shiftSingle_spec ty imm w bf af acf⟩

theorem doubleShiftRow
    (hexec : ∀ imm w bf af acf s, exec (row imm w bf af acf) s = .next (s.shiftDouble ty imm w bf af acf)) :
    DoubleShiftRow (row, ty) := fun imm w bf af acf s =>
  ⟨_, hexec imm w bf af acf s, s.shiftDouble_spec ty imm w bf af acf⟩

end

/-- Settles O21: each row is the shared operation of single length at its type. -/
theorem singleShiftRepeats : Obligations.SingleShiftRepeats := by
  show ∀ p ∈ _, SingleShiftRow p
  simp only [List.forall_mem_cons]
  exact ⟨singleShiftRow fun _ _ _ _ _ _ => exec_rol _ _ _ _ _ _,
    singleShiftRow fun _ _ _ _ _ _ => exec_sll _ _ _ _ _ _,
    singleShiftRow fun _ _ _ _ _ _ => exec_srl _ _ _ _ _ _,
    singleShiftRow fun _ _ _ _ _ _ => exec_sra _ _ _ _ _ _,
    List.forall_mem_nil _⟩

/-- Settles O22: each row is the shared operation of double length at its type. -/
theorem doubleShiftRepeats : Obligations.DoubleShiftRepeats := by
  show ∀ p ∈ _, DoubleShiftRow p
  simp only [List.forall_mem_cons]
  exact ⟨doubleShiftRow fun _ _ _ _ _ _ => exec_drol _ _ _ _ _ _,
    doubleShiftRow fun _ _ _ _ _ _ => exec_dsll _ _ _ _ _ _,
    doubleShiftRow fun _ _ _ _ _ _ => exec_dsrl _ _ _ _ _ _,
    doubleShiftRow fun _ _ _ _ _ _ => exec_dsra _ _ _ _ _ _,
    List.forall_mem_nil _⟩

end Sys2Proof.Machine
end

section
/-! TRANSFER (R234): a left half that writes one register; obligation O24. -/

namespace Sys2Proof.Machine

/-- Settles O24: the frame of a one-register write leaves register 0, and so the condition codes, as they were, unless
AF names it. -/
theorem transferCopies : Obligations.TransferCopies := fun skip bf af acf s =>
  ⟨_, exec_transfer s skip bf af acf, s.writeReg_left af (s.readReg bf) skip acf⟩

end Sys2Proof.Machine
end

section
/-! EXTRACT and INSERT (R251, R252): the rotated source under the mask, alone or merged into the old word; obligations
O28 and O29. -/

namespace Sys2Proof.Machine

/-- A left rotate by less than the width, bit by bit: bit `k` comes from `n` places to its right, around the end. -/
theorem getLsbD_rotateLeft_of_lt {n k : Nat} (v : Word) (hn : n < 32) (hk : k < 32) :
    (v.rotateLeft n).getLsbD k = v.getLsbD ((k + 32 - n) % 32) := by
  rw [BitVec.getLsbD_rotateLeft, Nat.mod_eq_of_lt hn]
  by_cases hwrap : k < n
  · have hsource : (k + 32 - n) % 32 = 32 - n + k := by omega
    simp only [hwrap, hsource, decide_true, cond_true]
  · have hsource : (k + 32 - n) % 32 = k - n := by omega
    simp only [hwrap, hk, hsource, decide_true, decide_false, cond_false, Bool.true_and]

/-- A word laid over another under a mask, bit by bit (R252). -/
theorem getLsbD_merge {k : Nat} (new old mask : Word) (hk : k < 32) :
    ((new &&& mask) ||| (old &&& ~~~mask)).getLsbD k = if mask.getLsbD k then new.getLsbD k else old.getLsbD k := by
  rw [BitVec.getLsbD_or, BitVec.getLsbD_and, BitVec.getLsbD_and, BitVec.getLsbD_not]
  cases mask.getLsbD k <;> simp [hk]

/-- Settles O28: a one-register write of the rotated source under the mask; POS is below 32. -/
theorem extractMasks : Obligations.ExtractMasks := fun pos bf af acf s =>
  ⟨_, _, exec_extract s pos bf af acf,
    fun k hk => by rw [BitVec.getLsbD_and, getLsbD_rotateLeft_of_lt _ pos.isLt hk],
    s.writeReg_left af _ true acf⟩

/-- Settles O29: a one-register write of the rotated source merged into x[AF] as it was read before the write. -/
theorem insertMerges : Obligations.InsertMerges := fun pos bf af acf s =>
  ⟨_, _, exec_insert s pos bf af acf,
    fun k hk => by rw [getLsbD_merge _ _ _ hk, getLsbD_rotateLeft_of_lt _ pos.isLt hk],
    s.writeReg_left af _ true acf⟩

end Sys2Proof.Machine
end

section
/-! STORE, LOADI and the return from an interrupt handler (R271, R272, R273, R353, R356); obligations O33, O35 and
O51. -/

namespace Sys2Proof.Machine

/-! ### STORE and LOADI -/

/-- Settles O33: a write of one word, which reads back at its own address and leaves every other cell. -/
theorem storeWritesWord : Obligations.StoreWritesWord := fun cf adr s =>
  ⟨_, exec_store s cf adr, s.memRead_memWrite_self adr _, s.memWrite_sameStoreExcept adr _, fun _ _ => rfl,
    ⟨rfl, rfl⟩, ⟨rfl, rfl, rfl, rfl, rfl⟩, rfl⟩

/-- Settles O35: sign extension to 32 bits keeps the signed value, and a one-register write puts it into x[CF]. -/
theorem loadImmediateExtends : Obligations.LoadImmediateExtends := fun cf adr s =>
  ⟨_, adr.signExtend 32, exec_loadi s cf adr, BitVec.toInt_signExtend_of_le (by omega),
    s.writeReg_right cf (adr.signExtend 32)⟩

/-! ### The return from an interrupt handler (R356) -/

/-- An interrupt at an even vector, before an IFETCH, is the exchange through its pair (R351 to R353). -/
theorem step_interrupt_taken {s : State} {v : Word} {rest : List Act} (hsched : s.schedule = .interrupt v :: rest)
    (hphase : s.phase = .ifetch) (heven : v.getLsbD 0 = false) :
    step s = .next ((s.withSchedule rest).interruptThrough (v.extractLsb' 0 12)) := by
  rw [step_interrupt hsched, interruptOffered_ifetch (s := s.withSchedule rest) hphase, State.interrupted,
    if_neg (Bool.eq_false_iff.mp heven)]

/-- Register 0 written back as it was read holds every bit but 24 as before: the read replaces only that bit by BUSY
(R30), and the write drops it (R31). -/
theorem State.getLsbD_stored_readReg_zero (s : State) {k : Nat} (hk : k ≠ 24) :
    (stored 0#3 (s.readReg 0#3)).getLsbD k = (s.raw 0#3).getLsbD k := by
  have hwritten : (stored 0#3 (s.readReg 0#3)).getLsbD k = (s.readReg 0#3).getLsbD k := by
    rw [stored, if_pos rfl, getLsbD_clear24, decide_eq_true hk, Bool.and_true]
  rw [hwritten, s.getLsbD_readReg_zero, if_neg hk]

/-- Settles O51: the exchange leaves register 0 as read in the odd word, and the LOAD, by O34, writes it back. -/
theorem returnRestoresState : Obligations.ReturnRestoresState := by
  intro s v w rest hsched hphase heven hread
  obtain ⟨hodd, -, -, hentry, -⟩ := (s.withSchedule rest).interruptThrough_spec hread
  obtain ⟨u, hload, hzero, hreturn⟩ := loadReadsWord 0#3 _ _ _ hodd
  refine ⟨_, u, step_interrupt_taken hsched hphase heven, hload, fun k hk => ?_, fun r hr => ?_⟩
  · rw [hzero]
    exact (s.withSchedule rest).getLsbD_stored_readReg_zero hk
  · exact (hreturn.regs r hr).trans (hentry r hr)

end Sys2Proof.Machine
end

section
/-! POINTER MODIFICATION and LOOP (R310 to R318): what the microinstructions share is the sequence of R311, whose result
each of them chooses; obligations O37 and O38. -/

namespace Sys2Proof.Machine

/-- Settles O37: each row is the shared sequence (R311) at its own result. -/
theorem pointerModificationLoops : Obligations.PointerModificationLoops :=
  List.forall_mem_cons.mpr ⟨fun cf df xop val s => ⟨_, exec_pmInc s cf df xop val, s.pointerMod_spec cf _ xop val⟩,
    List.forall_mem_cons.mpr ⟨fun cf df xop val s => ⟨_, exec_pmDec s cf df xop val, s.pointerMod_spec cf _ xop val⟩,
      List.forall_mem_singleton.mpr fun cf df xop val s =>
        ⟨_, exec_pmAdd s cf df xop val, s.pointerMod_spec cf _ xop val⟩⟩⟩

/-- The formula of EF = 11 is the exact signed value, wrapped to 32 bits (R315). -/
theorem ptrmodResult_eq_ofInt (c d : Word) :
    ptrmodResult Config.ptrmodEf3 c d = BitVec.ofInt 32 (c.toInt - d.toInt - 1) := by
  apply BitVec.eq_of_toInt_eq
  have hone : (1#32 : Word).toInt = 1 := rfl
  rw [ptrmodResult_decided, BitVec.toInt_sub, BitVec.toInt_sub, hone, BitVec.toInt_ofInt, Int.bmod_sub_bmod]

theorem exec_pmSub1_next (s : State) (cf df : RegNo) (xop : BitVec 3) (val : BitVec 4) :
    exec (.pmSub1 cf df xop val) s =
      .next (s.pointerMod cf (BitVec.ofInt 32 ((s.readReg cf).toInt - (s.readReg df).toInt - 1)) xop val) := by
  rw [exec_pmSub1, execPmSub1, ptrmodResult_eq_ofInt]

/-- XOP = 3 asks for zero or positive: it loops on "not negative" (R310). -/
theorem loops_three_iff (r : Word) : Loops 3#3 r ↔ 0 ≤ r.toInt := by
  have hsigns : Loops 3#3 r ↔ r.toInt = 0 ∨ 0 < r.toInt := by simp [Loops]
  rw [hsigns]
  omega

/-- "Not negative" of a difference less 1 that fits compares the operands strictly (R317). -/
theorem loops_three_iff_lt {c d : Int} (hfits : ¬ outOfRange (c - d - 1)) :
    Loops 3#3 (BitVec.ofInt 32 (c - d - 1)) ↔ d < c := by
  rw [loops_three_iff, toInt_ofInt_of_fits hfits]
  omega

/-- Settles O38: the shared sequence (R311) at the exact difference less 1, whose sign, where it fits, is the comparison. -/
theorem pointerSubtractionLoops : Obligations.PointerSubtractionLoops := by
  intro cf df xop val s r zero
  obtain ⟨hreg, hloop, hstay, habove, hframe⟩ := s.pointerMod_spec cf r xop val
  exact ⟨_, exec_pmSub1_next s cf df xop val, hreg, hloop, hstay, habove, hframe, loops_three_iff_lt⟩

end Sys2Proof.Machine
end

section
/-! Interrupts as they are taken, by a vector and by the bus time-out, and the direct lines RUN, HALT/STEP and PARITY RESET
(R331, R333, R342, R343, R345, R351 to R353, R358); obligations O48, O49, O52, O54 and O55. -/

namespace Sys2Proof.Machine

open Host

/-! ### The interrupt exchange (R353) -/

/-- Settles O48: before an IFETCH the act is the exchange through its pair. -/
theorem interruptExchanges : Obligations.InterruptExchanges := by
  intro s v w rest hsched hphase heven hread
  obtain ⟨hodd, hstore, hzero, hregs, hbus, houtside, hstays⟩ := (s.withSchedule rest).interruptThrough_spec hread
  exact ⟨_, step_interrupt_taken hsched hphase heven, hodd, hstore, hzero, hregs, hbus, houtside, hstays.trans hphase⟩

/-- An exchange whose even word fails its parity check is the parity fault of a CPU that has written the odd word (R331,
R353). -/
theorem State.interruptThrough_badWord (s : State) {e : Addr} (hbad : s.memRead e = none) :
    ParityHalt (s.memWrite (e + 1#12) (s.readReg 0#3)) (s.interruptThrough e) ∧
      (s.interruptThrough e).memRead (e + 1#12) = some (s.readReg 0#3) ∧
      SameStoreExcept (e + 1#12) s (s.interruptThrough e) := by
  have hfault : ParityHalt (s.memWrite (e + 1#12) (s.readReg 0#3)) (s.interruptThrough e) := by
    rw [s.interruptThrough_none hbad]
    exact State.parityFault_halts _ none
  refine ⟨hfault, ?_, fun c hc => (hfault.store c).trans (s.memWrite_sameStoreExcept _ _ c hc)⟩
  rw [hfault.store.memRead, s.memRead_memWrite_self]

/-- The exchange leaves the CPU before an IFETCH, whether or not its even word is good. -/
theorem State.interruptThrough_phase (s : State) (hphase : s.phase = .ifetch) (e : Addr) :
    (s.interruptThrough e).phase = .ifetch := by
  cases hread : s.memRead e with
  | some w =>
    obtain ⟨-, -, -, -, -, -, hstays⟩ := s.interruptThrough_spec hread
    exact hstays.trans hphase
  | none =>
    rw [s.interruptThrough_none hread]
    exact parityFault_phase (by simp [hphase]) none

/-- Settles O49. -/
theorem interruptThroughBadWordHalts : Obligations.InterruptThroughBadWordHalts := by
  intro s v rest hsched hphase heven hbad
  obtain ⟨hfault, hodd, hstore⟩ := (s.withSchedule rest).interruptThrough_badWord hbad
  obtain ⟨-, -, hacts, -⟩ := hfault.outside
  exact ⟨_, step_interrupt_taken hsched hphase heven, hfault.latch, hfault.halted,
    (s.withSchedule rest).interruptThrough_phase hphase _, hacts, hodd, hstore, hfault.bus⟩

/-! ### The bus time-out and its interrupt (R333, R358) -/

theorem step_busTimeout {s : State} {rest : List Act} (hsched : s.schedule = .busTimeout :: rest) :
    step s = (s.withSchedule rest).busTimesOut := by
  rw [step_cons hsched, State.perform]

theorem busTimesOut_first {s : State} (hclear : s.timeout = false) : s.busTimesOut = .next s.timedOut := by
  rw [State.busTimesOut, hclear, if_neg Bool.false_ne_true]

theorem busTimesOut_second {s : State} (hset : s.timeout = true) : s.busTimesOut = .refused .secondTimeout := by
  rw [State.busTimesOut, if_pos hset]

/-- The time-out interrupt differs from the exchange through 04C-04D in the debt alone. -/
theorem State.timeoutInterrupt_phase (s : State) (hphase : s.phase = .ifetch) : s.timeoutInterrupt.phase = .ifetch := by
  have hstays := s.interruptThrough_phase hphase 0x04C#12
  cases hread : s.memRead 0x04C#12 with
  | some w => rwa [s.timeoutInterrupt_some hread]
  | none => rwa [s.timeoutInterrupt_none hread]

/-- The CPU takes an owed interrupt at its turn before an IFETCH: the exchange leaves no right half to run, so the turn
ends with it, alone or among other agents (R351, R358). -/
theorem step_turn_owed {s : State} {rest : List Act} (hturn : CpuTurn s rest) (hphase : s.phase = .ifetch)
    (howed : s.timeoutIrq = true) : step s = .next (s.withSchedule rest).timeoutInterrupt :=
  step_turn_ifetch hturn hphase (State.sequence_owed (s := s.withSchedule rest) hphase howed)
    ((s.withSchedule rest).timeoutInterrupt_phase hphase)

/-- Settles O52: the time-out, its repetition, and the owed interrupt through a good and through a bad word 04C. -/
theorem timeoutInterrupts : Obligations.TimeoutInterrupts := by
  refine ⟨fun s rest hsched hclear => ⟨(s.withSchedule rest).timedOut, ?_, rfl, rfl, rfl, rfl,
      ⟨fun _ _ => rfl, fun _ => rfl, rfl⟩, rfl, rfl⟩, fun s rest hsched hset => ?_,
    fun s rest hturn hphase howed => ⟨fun w hgood => ?_, fun hbad => ?_⟩⟩
  · rw [step_busTimeout hsched]
    exact busTimesOut_first hclear
  · rw [step_busTimeout hsched]
    exact busTimesOut_second hset
  · obtain ⟨hodd, hstore, hzero, hregs, hbus, ⟨hparity, hlatch, -, hacts, hlog⟩, hstays⟩ :=
      (s.withSchedule rest).interruptThrough_spec hgood
    refine ⟨((s.withSchedule rest).interruptThrough 0x04C#12).irqDone, ?_, hodd, hstore, hzero, hregs, hbus,
      hstays.trans hphase, rfl, hlatch, hparity, hacts, hlog⟩
    rw [step_turn_owed hturn hphase howed, (s.withSchedule rest).timeoutInterrupt_some hgood]
  · obtain ⟨hfault, hodd, hstore⟩ := (s.withSchedule rest).interruptThrough_badWord hbad
    obtain ⟨hlatch, hdebt, hacts, hlog⟩ := hfault.outside
    refine ⟨(s.withSchedule rest).interruptThrough 0x04C#12, ?_, hfault.latch, hfault.halted,
      (s.withSchedule rest).interruptThrough_phase hphase _, hodd, hstore, hfault.bus, hdebt.trans howed, hlatch, hacts,
      hlog⟩
    rw [step_turn_owed hturn hphase howed, (s.withSchedule rest).timeoutInterrupt_none hbad]

/-! ### The direct lines (R342, R343, R345) -/

/-- Settles O54. -/
theorem parityResetClears : Obligations.ParityResetClears := by
  intro s rest hsched
  rw [step_cons hsched, State.perform]
  rfl

/-- Writing H writes bit 15 of register 0 and nothing else. -/
theorem State.setHalted_spec (s : State) (h : Bool) :
    (s.setHalted h).halted = h ∧ (∀ k, k ≠ 15 → ((s.setHalted h).raw 0#3).getLsbD k = (s.raw 0#3).getLsbD k) ∧
      SameRegsExcept [0#3] s (s.setHalted h) ∧ SameStore s (s.setHalted h) ∧ SameBus s (s.setHalted h) ∧
      (s.setHalted h).phase = s.phase ∧ SameOutside s (s.setHalted h) := by
  refine ⟨s.halted_setHalted h, fun k hk => ?_, fun r hr => ?_, fun _ => rfl, ⟨rfl, rfl⟩, rfl, rfl, rfl, rfl, rfl, rfl⟩
  · rw [s.getLsbD_raw_setHalted, if_neg hk]
  · exact s.raw_setHalted_ne (List.ne_of_not_mem_cons hr) h

theorem step_run {s : State} {rest : List Act} (hsched : s.schedule = .run :: rest) :
    step s = .next ((s.withSchedule rest).setHalted false) := by
  rw [step_cons hsched, State.perform]

/-- HALT/STEP sets H unless the CPU is halted before an IFETCH, where it steps (`step_haltStep`). -/
theorem step_haltStep_sets {s : State} {rest : List Act} (hsched : s.schedule = .haltStep :: rest)
    (hgoing : s.halted = false ∨ s.phase ≠ .ifetch) : step s = .next ((s.withSchedule rest).setHalted true) := by
  have hnotStep : ¬ (decide ((s.withSchedule rest).phase = .ifetch) && (s.withSchedule rest).halted) = true := by
    rcases hgoing with hrun | hinside
    · simp [hrun]
    · simp [hinside]
  rw [step_cons hsched, State.perform, State.haltOrStep, if_neg hnotStep]

/-- Settles O55: each pulse writes H alone. -/
theorem runAndHaltLines : Obligations.RunAndHaltLines := fun s rest =>
  ⟨fun hsched => ⟨_, step_run hsched, (s.withSchedule rest).setHalted_spec false⟩,
    fun hsched hgoing => ⟨_, step_haltStep_sets hsched hgoing, (s.withSchedule rest).setHalted_spec true⟩⟩

end Sys2Proof.Machine
end
